-- ==== Sys2Proof/Word.lean ====
section
/-! DEFINITION. The value types of HUFFCORE: bytes, 32-bit words and bit strings (00_scope.md R6, R9, R10). -/

namespace Sys2Proof

/-- A Symbol, or one byte of a byte memory: 8 bits (00_scope.md R6). -/
abbrev Byte := BitVec 8

/-- A register or a host data word: 32 bits (00_scope.md R10). -/
abbrev Word := BitVec 32

/-- A bit string, the first bit emitted or consumed at the head (00_scope.md R9). -/
abbrev Bits := List Bool

end Sys2Proof
end

