-- ==== Sys2Proof/Config.lean ====
section
/-! DEFINITION. What an implementation of HUFFCORE fixes (the capacities), the shapes of the entries of its stores, and
the free values: the values the spec calls UNSPECIFIED, each an uninterpreted constant. -/

namespace Sys2Proof

/-- The four byte memories (10_state.md R47). -/
inductive MemId where
  | inp | out | bs | dec
deriving DecidableEq, Repr

/-- The OPEN parameters IN_CAP, OUT_CAP, BS_CAP and DEC_CAP, in bytes (00_scope.md R7). -/
structure Caps where
  inCap : Nat
  outCap : Nat
  bsCap : Nat
  decCap : Nat
deriving DecidableEq, Repr

/-- The capacity of one byte memory, CAP(sp) of 20_memory.md R74. -/
def Caps.cap (c : Caps) : MemId → Nat
  | .inp => c.inCap
  | .out => c.outCap
  | .bs => c.bsCap
  | .dec => c.decCap

/-- A legal capacity: a multiple of 4 from 4 to 1 048 576 (00_scope.md R7). -/
abbrev Caps.LegalCap (n : Nat) : Prop := n % 4 = 0 ∧ 4 ≤ n ∧ n ≤ 1048576

/-- All four capacities are legal (00_scope.md R7). -/
abbrev Caps.Legal (c : Caps) : Prop :=
  LegalCap c.inCap ∧ LegalCap c.outCap ∧ LegalCap c.bsCap ∧ LegalCap c.decCap

/-- One entry of the node arena (10_state.md R40). -/
structure Node where
  leaf : Bool
  sym : Byte
  left : BitVec 9
  right : BitVec 9
  weight : BitVec 40
deriving DecidableEq, Repr, Inhabited

/-- One entry of the code LUT (10_state.md R45): CBITS[j] is bit 255 - j of `cbits`. -/
structure LutEntry where
  present : Bool
  len : BitVec 8
  cbits : BitVec 256
deriving DecidableEq, Repr, Inhabited

namespace Config

/-- The capacities State.reset has. DESIGN CHOICE (log 3): the spec leaves them OPEN and its test vectors take 4096;
every other legal choice is a state the step function covers as well. -/
def caps : Caps := ⟨4096, 4096, 4096, 4096⟩

/-- What a byte that nothing has written reads as from State.reset on. DESIGN CHOICE (log 2), unsafe. -/
def unwrittenByte : Byte := 0

/-- FREE VALUE (log 4): draw `n` of byte `a` of a byte memory (70_reset_and_hazards.md R292, 60_exceptions.md R262). -/
opaque freeByte : MemId → Nat → Nat → Byte

/-- FREE VALUE (log 4): draw `n` of the histogram counter of a symbol (R292, R262). -/
opaque freeCount : Nat → Nat → Word

/-- FREE VALUE (log 4): draw `n` of an arena entry (R292, R262). -/
opaque freeNode : Nat → Nat → Node

/-- FREE VALUE (log 4): draw `n` of a LUT entry (R292, R262). -/
opaque freeEntry : Nat → Nat → LutEntry

/-- FREE VALUE (log 9, 10): the rdata of a response where the spec states none, a fresh draw for every response: a read of an UNSPECIFIED
location while a command is pending (44_control.md R238), and a write that is not refused (20_memory.md R71). -/
opaque freeRdata : Nat → Word

end Config

end Sys2Proof
end

