-- ==== Sys2Proof/Syntax.lean ====
section
/-! DEFINITION. The commands of HUFFCORE (spec/opcode_table.json), the host's bus requests, and the host program syntax of
30_encoding.md section 3. Syntax only: the meanings are the machine's. -/

namespace Sys2Proof

/-- One constructor per row of spec/opcode_table.json (30_encoding.md R101, R103). -/
inductive Instr where
  /-- 44_control.md R230 -/
  | nop
  /-- 40_histogram_builder.md R140 -/
  | histClear
  /-- 40_histogram_builder.md R141 -/
  | histAccum
  /-- 40_histogram_builder.md R142 -/
  | treeBuild
  /-- 42_payload_encoder.md R190 -/
  | codeGen
  /-- 41_tree_codec.md R160 -/
  | treeSer
  /-- 42_payload_encoder.md R195 -/
  | payEnc
  /-- 41_tree_codec.md R170 -/
  | treeDes
  /-- 43_payload_decoder.md R210 -/
  | payDec
  /-- 44_control.md R231: a write to CTRL with bit 0 = 1, whose bits [31:1] are `ignored` (30_encoding.md R103) -/
  | srst (ignored : Nat)
deriving DecidableEq, Repr

/-- One request of the host port (20_memory.md R71). `wdata` of a read is not looked at. -/
structure BusReq where
  addr : BitVec 24
  write : Bool
  wdata : Word
  size : BitVec 4
deriving DecidableEq, Repr

/-- One response of the host port (20_memory.md R71): rdata and the bus error bit, for a read and for a write. -/
structure BusResp where
  rdata : Word
  err : Bool
deriving DecidableEq, Repr

/-- One operation of the host agent, the unit the host performs in one step (00_scope.md R13, log 1). -/
inductive HostOp where
  /-- one bus read or write -/
  | access (r : BusReq)
  /-- `wait` (30_encoding.md R115): reads STATUS, and is performed again while BUSY reads 1 -/
  | waitIdle
  /-- the host reads STATUS and, if ERR is 1, leaves out its next `n` operations (30_encoding.md R117) -/
  | stopIfErr (n : Nat)
  /-- the input `rst_n` is held low for a while (70_reset_and_hazards.md R290, log 11) -/
  | rstN
deriving DecidableEq, Repr

/-- The two agents (00_scope.md R13). -/
inductive Agent where
  | host | core
deriving DecidableEq, Repr

/-- A line of a host program (30_encoding.md R115 to R118). -/
inductive Stmt where
  /-- `wr`: a 32-bit write of `v` at a byte address -/
  | wr (addr v : Nat)
  /-- `rd`: a 32-bit read -/
  | rd (addr : Nat)
  /-- `cmd MNEMONIC` -/
  | cmd (i : Instr)
  /-- `srst` -/
  | srst
  /-- `wait` -/
  | wait
  /-- `cmdw MNEMONIC` (R116) -/
  | cmdw (i : Instr)
  /-- `bytes SP, a, b0 b1 ...` (R116) -/
  | bytes (sp : MemId) (a : Nat) (bs : List Byte)
  /-- `COMPRESS n` (R117) -/
  | compress (n : Nat)
  /-- `DECOMPRESS nbits, rep` (R118) -/
  | decompress (nbits rep : Nat)
deriving DecidableEq, Repr

end Sys2Proof
end

