-- ==== Sys2Proof/Machine/State.lean ====
section
/-! DEFINITION. The state of HUFFCORE as plain data (10_state.md R51), the state after reset, and the reasons a step can stop. -/

namespace Sys2Proof.Machine

/-- STATUS (10_state.md R26). Its reserved bits read 0 and are no state. -/
structure Status where
  busy : Bool
  done : Bool
  err : Bool
  treeValid : Bool
  codeValid : Bool
  singleLeaf : Bool
  ovr : Bool
deriving DecidableEq, Repr

/-- ERRCODE (10_state.md R27). -/
structure ErrCode where
  op : Byte
  sub : Byte
  code : Byte
deriving DecidableEq, Repr

/-- IRQ_EN (10_state.md R29). -/
structure IrqEn where
  doneIe : Bool
  errIe : Bool
deriving DecidableEq, Repr

/-- IRQ_STATUS (10_state.md R30). -/
structure IrqStatus where
  doneEvt : Bool
  errEvt : Bool
deriving DecidableEq, Repr

/-- The node arena NODE[0 .. 510] (10_state.md R40). -/
abbrev Arena := Vector Node 511

/-- The histogram HIST[0 .. 255] (10_state.md R43). -/
abbrev Hist := Vector Word 256

/-- The code LUT LUT[0 .. 255] (10_state.md R45). -/
abbrev Lut := Vector LutEntry 256

/-- One byte memory (10_state.md R47): the bytes written, by rising byte index, and which draw the other bytes come from
(`none`: nothing has been drawn since State.reset; log 2, 5). -/
structure ByteMem where
  draw : Option Nat
  cells : List Host.Cell
deriving DecidableEq, Repr

/-- The whole state: the registers of 10_state.md R23 to R39 (ID, VERSION and CTRL are hard-wired, log 15), the stores of R40
to R47, the pending command of R48, and four fields of the model's own (log 1, 4, 10). -/
structure State where
  /-- CAP_IN .. CAP_DEC (R23) -/
  caps : Caps
  /-- CMD (R25) -/
  cmd : Word
  /-- STATUS (R26) -/
  status : Status
  /-- ERRCODE (R27) -/
  errCode : ErrCode
  /-- ERR_INFO (R28) -/
  errInfo : Word
  /-- IRQ_EN (R29) -/
  irqEn : IrqEn
  /-- IRQ_STATUS (R30) -/
  irqStatus : IrqStatus
  /-- IN_LEN (R31) -/
  inLen : Word
  /-- OUT_BITPTR (R32) -/
  outBitptr : Word
  /-- BS_LEN (R33) -/
  bsLen : Word
  /-- BS_BITPTR (R34) -/
  bsBitptr : Word
  /-- DEC_LEN (R35) -/
  decLen : Word
  /-- DEC_REPEAT (R36) -/
  decRepeat : Word
  /-- ROOT (R37) -/
  root : BitVec 9
  /-- NODE_COUNT (R38) -/
  nodeCount : BitVec 10
  /-- SYM_COUNT (R39) -/
  symCount : BitVec 9
  /-- SEG_PAD (R39) -/
  segPad : Byte
  /-- SEG_BITS (R39) -/
  segBits : Word
  /-- NODE (R40) -/
  arena : Arena
  /-- HIST (R43) -/
  hist : Hist
  /-- LUT (R45) -/
  lut : Lut
  /-- IN (R47) -/
  inMem : ByteMem
  /-- OUT (R47) -/
  outMem : ByteMem
  /-- BS (R47) -/
  bsMem : ByteMem
  /-- DEC (R47) -/
  decMem : ByteMem
  /-- the pending command (R48) -/
  pending : Option Word
  /-- the model's own: how many draws of UNSPECIFIED values there have been (log 4) -/
  draws : Nat
  /-- the model's own: the host's remaining operations (00_scope.md R13, log 1) -/
  host : List HostOp
  /-- the model's own: which agent moves in the coming steps (log 1) -/
  sched : List Agent
  /-- the model's own: the last response of the host port (20_memory.md R71, log 10) -/
  resp : Option BusResp
deriving DecidableEq, Repr

/-- Why the machine stops. HUFFCORE itself never does (93_implementation_defined.md): these two stand for pseudocode that
yields no result, in states no run reaches (log 8). -/
inductive Fault where
  /-- Raised by CODE_GEN and TREE_SER when the walk from ROOT meets NODE[511] or does not end: the recursions of
  41_tree_codec.md R161 and 42_payload_encoder.md R190 have no result. Safe: 10_state.md R50 excludes it. -/
  | arenaNotATree
  /-- Raised by PAY_DEC when ROOT or a child index is 511, an entry the arena lacks (10_state.md R40). Safe: 10_state.md R50
  excludes it. -/
  | noSuchNode
deriving DecidableEq, Repr

/-- Why an instruction has no meaning. -/
inductive Refusal where
  /-- Raised by exec for an instruction without a meaning; safe. No arm of exec raises it: every instruction has its
  meaning. -/
  | notModelled (mnemonic : String)
deriving DecidableEq, Repr

/-- What a meaning answers. -/
abbrev Result := Host.Outcome State Fault Refusal

/-- STATUS after reset (70_reset_and_hazards.md R291). -/
def Status.reset : Status := ⟨false, false, false, false, false, false, false⟩

/-- A byte memory nothing has written and nothing has been drawn for (log 2). -/
def ByteMem.empty : ByteMem := ⟨none, []⟩

/-- An all-zero arena entry, the value State.reset names for the entries the spec leaves UNSPECIFIED (log 2). -/
def zeroNode : Node := ⟨false, 0, 0, 0, 0⟩

/-- An absent LUT entry: PRESENT 0, LEN 0, CBITS zeros(256) (42_payload_encoder.md R190). -/
def absentEntry : LutEntry := ⟨false, 0, 0⟩

/-- The histogram of HIST_CLEAR: every counter 0 (40_histogram_builder.md R140). -/
def zeroHist : Hist := Vector.replicate 256 0

/-- The LUT with no symbol present (42_payload_encoder.md R190). -/
def absentLut : Lut := Vector.replicate 256 absentEntry

/-- The machine right after reset with given capacities: registers as 70_reset_and_hazards.md R291 states, nothing pending
(R292), and the stores, which the spec leaves UNSPECIFIED, at the values log 2 names. -/
def State.resetWith (c : Caps) : State where
  caps := c
  cmd := 0
  status := Status.reset
  errCode := ⟨0, 0, 0⟩
  errInfo := 0
  irqEn := ⟨false, false⟩
  irqStatus := ⟨false, false⟩
  inLen := 0
  outBitptr := 0
  bsLen := 0
  bsBitptr := 0
  decLen := 0
  decRepeat := 0
  root := 0
  nodeCount := 0
  symCount := 0
  segPad := 0
  segBits := 0
  arena := Vector.replicate 511 zeroNode
  hist := zeroHist
  lut := absentLut
  inMem := ByteMem.empty
  outMem := ByteMem.empty
  bsMem := ByteMem.empty
  decMem := ByteMem.empty
  pending := none
  draws := 0
  host := []
  sched := []
  resp := none

/-- The machine right after reset (70_reset_and_hazards.md R291, R292), with the capacities of Config (log 3). -/
def State.reset : State := State.resetWith Config.caps

end Sys2Proof.Machine
end

