-- ==== Sys2Proof/Machine/Flags.lean ====
section
/-! DEFINITION. The flags: STATUS and the other flag registers as the host reads them, the validity flags of the tree and the
code table, and the interrupt line. -/

namespace Sys2Proof.Machine

/-- STATUS as a word (10_state.md R26): BUSY bit 0, DONE 1, ERR 2, TREE_VALID 3, CODE_VALID 4, SINGLE_LEAF 5, OVR 8. -/
def statusWord (st : Status) : Word :=
  0#23 ++ BitVec.ofBool st.ovr ++ 0#2 ++ BitVec.ofBool st.singleLeaf ++ BitVec.ofBool st.codeValid
    ++ BitVec.ofBool st.treeValid ++ BitVec.ofBool st.err ++ BitVec.ofBool st.done ++ BitVec.ofBool st.busy

/-- ERRCODE as a word (10_state.md R27). -/
def errCodeWord (e : ErrCode) : Word := 0#8 ++ e.op ++ e.sub ++ e.code

/-- IRQ_EN as a word (10_state.md R29). -/
def irqEnWord (e : IrqEn) : Word := 0#30 ++ BitVec.ofBool e.errIe ++ BitVec.ofBool e.doneIe

/-- IRQ_STATUS as a word (10_state.md R30). -/
def irqStatusWord (e : IrqStatus) : Word := 0#30 ++ BitVec.ofBool e.errEvt ++ BitVec.ofBool e.doneEvt

/-- The value a host write gives IRQ_EN; its reserved bits ignore the write (10_state.md R22, R29). -/
def irqEnOfWord (w : Word) : IrqEn := ⟨w.getLsbD 0, w.getLsbD 1⟩

/-- The interrupt line (60_exceptions.md R263). -/
def irq (s : State) : Bool :=
  (s.irqStatus.doneEvt && s.irqEn.doneIe) || (s.irqStatus.errEvt && s.irqEn.errIe)

/-- A new tree stands in the arena: ROOT, NODE_COUNT, SYM_COUNT, and TREE_VALID 1, CODE_VALID 0, SINGLE_LEAF as given
(40_histogram_builder.md R142, 41_tree_codec.md R170). -/
def installTree (root count leaves : Nat) (single : Bool) (s : State) : State :=
  { s with
    root := BitVec.ofNat 9 root
    nodeCount := BitVec.ofNat 10 count
    symCount := BitVec.ofNat 9 leaves
    status := { s.status with treeValid := true, codeValid := false, singleLeaf := single } }

/-- CODE_VALID as given (42_payload_encoder.md R190). -/
def setCodeValid (b : Bool) (s : State) : State := { s with status := { s.status with codeValid := b } }

end Sys2Proof.Machine
end

