-- ==== Sys2Proof/WellFormed.lean ====
section
/-! DEFINITION. The checks a term of the syntax passes before it stands for words of the hardware. -/

namespace Sys2Proof

/-- An instruction is well formed when its operand fits the bits the encoding gives it: SRST's ignored bits are the 31 bits
[31:1] of a CTRL word (30_encoding.md R103). No CMDW command has an operand field (30_encoding.md R100). -/
def Instr.wf : Instr → Bool
  | .nop | .histClear | .histAccum | .treeBuild | .codeGen | .treeSer | .payEnc | .treeDes | .payDec => true
  | .srst ignored => ignored < 2 ^ 31

/-- The instruction is a command, that is, its word is written to CMD (30_encoding.md R100, R103). -/
def Instr.isCommand : Instr → Bool
  | .nop | .histClear | .histAccum | .treeBuild | .codeGen | .treeSer | .payEnc | .treeDes | .payDec => true
  | .srst _ => false

/-- A value that fits a 32-bit register. -/
def fits32 (v : Nat) : Bool := v < 2 ^ 32

/-- A byte address the host may name: 24 bits and word-aligned (20_memory.md R72). -/
def wordAddr (a : Nat) : Bool := a < 2 ^ 24 && a % 4 == 0

/-- A line of a host program is well formed when its addresses are word addresses, its values fit 32 bits, `cmd` and `cmdw`
name a command, and `bytes` starts at a multiple of 4 (30_encoding.md R115, R116). -/
def Stmt.wf : Stmt → Bool
  | .wr addr v => wordAddr addr && fits32 v
  | .rd addr => wordAddr addr
  | .cmd i | .cmdw i => i.isCommand
  | .srst | .wait => true
  | .bytes _ a bs => a % 4 == 0 && a + bs.length ≤ 2 ^ 20
  | .compress n => fits32 n
  | .decompress nbits rep => fits32 nbits && fits32 rep

end Sys2Proof
end

