-- ==== Sys2Proof/Decode.lean ====
section
/-! DEFINITION. Decoding of the words the host writes to CMD and CTRL, and the encoder (30_encoding.md section 1). -/

namespace Sys2Proof

/-- The two registers through which an instruction word reaches HUFFCORE: CMD takes the format CMDW, CTRL the format CTRLW
(30_encoding.md R100, R103). -/
inductive Port where
  | cmd | ctrl
deriving DecidableEq, Repr

/-- Why a word is no instruction. -/
inductive DecodeError where
  /-- a CMD word with RSVD ≠ 0 (30_encoding.md R102) -/
  | reservedBits
  /-- a CMD word with OPCODE in 0x09 .. 0xFF (30_encoding.md R102) -/
  | illegalOpcode
  /-- a CTRL word with bit 0 = 0, which has no effect (30_encoding.md R103) -/
  | noReset
deriving DecidableEq, Repr

/-- CMD.OPCODE, bits [7:0] of a CMD word (30_encoding.md R100). -/
def opcodeOf (w : Word) : Byte := w.extractLsb' 0 8

/-- CMD.RSVD, bits [31:8] of a CMD word (30_encoding.md R100). -/
def rsvdOf (w : Word) : BitVec 24 := w.extractLsb' 8 24

/-- The opcode map (30_encoding.md R101). -/
def ofOpcode (op : Byte) : Option Instr :=
  match op.toNat with
  | 0x00 => some .nop
  | 0x01 => some .histClear
  | 0x02 => some .histAccum
  | 0x03 => some .treeBuild
  | 0x04 => some .codeGen
  | 0x05 => some .treeSer
  | 0x06 => some .payEnc
  | 0x07 => some .treeDes
  | 0x08 => some .payDec
  | _ => none

/-- A word written to CMD (30_encoding.md R100 to R102, 44_control.md R233). -/
def decodeCmd (w : Word) : Except DecodeError Instr :=
  if rsvdOf w ≠ 0 then .error .reservedBits
  else match ofOpcode (opcodeOf w) with
    | some i => .ok i
    | none => .error .illegalOpcode

/-- A word written to CTRL (30_encoding.md R103). -/
def decodeCtrl (w : Word) : Except DecodeError Instr :=
  if w.getLsbD 0 then .ok (.srst (w.toNat / 2)) else .error .noReset

/-- The decoder: what the word `w` written to the register `p` is. Total, and each rejection has a name. -/
def decode : Port → Word → Except DecodeError Instr
  | .cmd, w => decodeCmd w
  | .ctrl, w => decodeCtrl w

/-- The encoder: the register an instruction is written to and its word (30_encoding.md R101, R103). -/
def encode : Instr → Port × Word
  | .nop => (.cmd, 0x00000000)
  | .histClear => (.cmd, 0x00000001)
  | .histAccum => (.cmd, 0x00000002)
  | .treeBuild => (.cmd, 0x00000003)
  | .codeGen => (.cmd, 0x00000004)
  | .treeSer => (.cmd, 0x00000005)
  | .payEnc => (.cmd, 0x00000006)
  | .treeDes => (.cmd, 0x00000007)
  | .payDec => (.cmd, 0x00000008)
  | .srst ignored => (.ctrl, BitVec.ofNat 32 (2 * ignored + 1))

/-- What the opcode table's rows say of a bare word, which does not tell the register it is written to: a word that is a
command when written to CMD is that command, any other word is what it is when written to CTRL. The words 0x1, 0x3, 0x5 and
0x7 are both (30_encoding.md R101, R103); this reading takes the command (log 7). -/
def decodeBareWord (w : Word) : Option Instr :=
  match decode .cmd w with
  | .ok i => some i
  | .error _ => (decode .ctrl w).toOption

/-- The instruction the decoder reads from a word numbered as spec/opcode_table.json numbers it. Every instruction is one
32-bit word (30_encoding.md R100), so a word of more bits is none. -/
def decodeTableWord (nbits w : Nat) : Option Instr :=
  if 2 ^ 32 ≤ w % 2 ^ nbits then none else decodeBareWord (BitVec.ofNat 32 (w % 2 ^ nbits))

end Sys2Proof
end

