-- ==== Sys2Proof/Machine/Ops.lean ====
section
/-! DEFINITION. The named operations over the stores and registers: byte memories and their bit views, the draws of
UNSPECIFIED stores, command acceptance, success completion, error completion (taking an exception) and its acknowledgement,
and the reset. -/

namespace Sys2Proof.Machine

/-! ### Bit strings (00_scope.md R9) -/

/-- `bits_N(v)`: the N-bit unsigned binary representation of v, most significant bit first. -/
def bitsN (n v : Nat) : Bits := (List.range n).map fun j => v.testBit (n - 1 - j)

/-- `uint(bs)`: the unsigned value of a bit string read most significant bit first. -/
def uint (bs : Bits) : Nat := bs.foldl (fun acc b => 2 * acc + b.toNat) 0

/-- `zeros(n)`. -/
def zeros (n : Nat) : Bits := List.replicate n false

/-! ### Byte memories (20_memory.md R74; log 2, 5) -/

/-- The value listed at byte index `a`. -/
def cellAt : List Host.Cell → Nat → Option Byte
  | [], _ => none
  | (b, v) :: cs, a => if b = a then some v else cellAt cs a

/-- The rising list with the byte `v` at `a`. -/
def putCell : List Host.Cell → Nat → Byte → List Host.Cell
  | [], a, v => [(a, v)]
  | (b, w) :: cs, a, v =>
    if a < b then (a, v) :: (b, w) :: cs
    else if a = b then (a, v) :: cs
    else (b, w) :: putCell cs a v

/-- The rising list with no byte at `a`. -/
def dropCell : List Host.Cell → Nat → List Host.Cell
  | [], _ => []
  | (b, w) :: cs, a => if a = b then cs else (b, w) :: dropCell cs a

/-- What byte `a` of the memory `id` reads as when it is not listed: the fixed byte of log 2 from State.reset on, a free
value once the memory has been drawn (log 4). -/
def ByteMem.unlisted (id : MemId) (m : ByteMem) (a : Nat) : Byte :=
  match m.draw with
  | none => Config.unwrittenByte
  | some n => Config.freeByte id n a

/-- `MemRead(sp, a, 1)` (20_memory.md R74). -/
def ByteMem.read (id : MemId) (m : ByteMem) (a : Nat) : Byte :=
  match cellAt m.cells a with
  | some v => v
  | none => m.unlisted id a

/-- `MemWrite(sp, a, 1, v)` (20_memory.md R74), keeping the canonical form: where the value of an unlisted byte is known,
writing that value removes the entry (log 5). -/
def ByteMem.write (m : ByteMem) (a : Nat) (v : Byte) : ByteMem :=
  if m.draw = none ∧ v = Config.unwrittenByte then { m with cells := dropCell m.cells a }
  else { m with cells := putCell m.cells a v }

/-- The byte indices of a list of cells rise strictly. -/
def risingCells : List Host.Cell → Bool
  | [] => true
  | [_] => true
  | (a, _) :: (b, w) :: cs => a < b && risingCells ((b, w) :: cs)

/-- The canonical form of a memory of `cap` bytes: strictly rising indices below `cap`, and no entry equal to what an unlisted
byte is known to read as (log 5). -/
def ByteMem.wf (cap : Nat) (m : ByteMem) : Bool :=
  risingCells m.cells && m.cells.all fun c =>
    decide (c.1 < cap) && (m.draw.isSome || decide (c.2 ≠ Config.unwrittenByte))

/-- Bit `j` of a byte of the bit view, 0 the most significant (20_memory.md R75). -/
def byteBit (v : Byte) (j : Nat) : Bool := v.getLsbD (7 - j % 8)

/-- The byte with only bit `j` of its bit view changed to `b` (20_memory.md R75). -/
def setByteBit (v : Byte) (j : Nat) (b : Bool) : Byte :=
  let mask : Byte := BitVec.ofNat 8 (2 ^ (7 - j % 8))
  if b then v ||| mask else v &&& ~~~mask

/-- `BitRead(sp, k)` (20_memory.md R75). -/
def ByteMem.bit (id : MemId) (m : ByteMem) (k : Nat) : Bool := byteBit (m.read id (k / 8)) (k % 8)

/-- `BitWrite(sp, k, b)` (20_memory.md R75). -/
def ByteMem.setBit (id : MemId) (m : ByteMem) (k : Nat) (b : Bool) : ByteMem :=
  m.write (k / 8) (setByteBit (m.read id (k / 8)) (k % 8) b)

/-- The `n` bits of the bit view from bit `k` on. -/
def ByteMem.bits (id : MemId) (m : ByteMem) (k n : Nat) : Bits := (List.range n).map fun j => m.bit id (k + j)

/-- `BitWrite` of the bits of a string to the bit indices from `k` on, in order. -/
def ByteMem.setBits (id : MemId) : ByteMem → Nat → Bits → ByteMem
  | m, _, [] => m
  | m, k, b :: bs => ByteMem.setBits id (m.setBit id k b) (k + 1) bs

/-- `MemWrite` of bytes to the byte indices from `a` on, in order. -/
def ByteMem.writeBytes : ByteMem → Nat → List Byte → ByteMem
  | m, _, [] => m
  | m, a, v :: vs => ByteMem.writeBytes (m.write a v) (a + 1) vs

/-- The word at byte index `a`: byte `a` in bits [7:0] up to byte `a + 3` in bits [31:24] (20_memory.md R76). -/
def ByteMem.readWord (id : MemId) (m : ByteMem) (a : Nat) : Word :=
  m.read id (a + 3) ++ m.read id (a + 2) ++ m.read id (a + 1) ++ m.read id a

/-- A host write of a word sets its four bytes (20_memory.md R76). -/
def ByteMem.writeWord (m : ByteMem) (a : Nat) (w : Word) : ByteMem :=
  m.writeBytes a [w.extractLsb' 0 8, w.extractLsb' 8 8, w.extractLsb' 16 8, w.extractLsb' 24 8]

/-- The byte memory a name stands for. -/
def State.mem (s : State) : MemId → ByteMem
  | .inp => s.inMem
  | .out => s.outMem
  | .bs => s.bsMem
  | .dec => s.decMem

/-- The state with one byte memory replaced. -/
def State.setMem (s : State) (id : MemId) (m : ByteMem) : State :=
  match id with
  | .inp => { s with inMem := m }
  | .out => { s with outMem := m }
  | .bs => { s with bsMem := m }
  | .dec => { s with decMem := m }

/-- The byte `sp[a]` in a state. -/
def State.byteAt (s : State) (id : MemId) (a : Nat) : Byte := (s.mem id).read id a

/-- Bit `k` of the bit view of `sp` in a state. -/
def State.bitAt (s : State) (id : MemId) (k : Nat) : Bool := (s.mem id).bit id k

/-! ### Histogram, arena and LUT access (00_scope.md R11) -/

/-- `HIST[s]`. -/
def Hist.count (h : Hist) (sym : Byte) : Word := h[sym.toNat]'sym.isLt

/-- `HIST[s] <- v`. -/
def Hist.put (h : Hist) (sym : Byte) (v : Word) : Hist := h.set sym.toNat v sym.isLt

/-- `NODE[i]`, none for the index 511 that a 9-bit field can hold and the arena lacks (10_state.md R40). -/
def Arena.node? (ar : Arena) (i : BitVec 9) : Option Node := ar[i.toNat]?

/-- `NODE[i] <- n`; every rule writes at i < 511. -/
def Arena.put (ar : Arena) (i : Nat) (n : Node) : Arena := ar.setIfInBounds i n

/-- `LUT[s]`. -/
def Lut.entry (l : Lut) (sym : Byte) : LutEntry := l[sym.toNat]'sym.isLt

/-- `LUT[s] <- e`. -/
def Lut.put (l : Lut) (sym : Byte) (e : LutEntry) : Lut := l.set sym.toNat e sym.isLt

/-- `LUT[s].BITS`: the bit string CBITS[0 .. LEN-1] (10_state.md R45). -/
def lutBits (e : LutEntry) : Bits := (List.range e.len.toNat).map fun j => e.cbits.getMsbD j

/-- The LUT entry of the code `c`: PRESENT 1, LEN |c|, CBITS `c ++ zeros(256 - |c|)` (42_payload_encoder.md R190). -/
def entryOfCode (c : Bits) : LutEntry :=
  ⟨true, BitVec.ofNat 8 c.length, BitVec.ofNat 256 (uint (c ++ zeros (256 - c.length)))⟩

/-! ### UNSPECIFIED stores: a stable draw, made once (44_control.md R236, 60_exceptions.md R262; log 4) -/

/-- A table of `n` free entries. -/
def drawTable {α : Type} (n : Nat) (f : Nat → α) : Vector α n := ⟨⟨(List.range n).map f⟩, by simp⟩

/-- Every HIST counter becomes UNSPECIFIED. -/
def State.drawHist (s : State) : State :=
  { s with hist := drawTable 256 (Config.freeCount s.draws), draws := s.draws + 1 }

/-- Every LUT entry becomes UNSPECIFIED. -/
def State.drawLut (s : State) : State :=
  { s with lut := drawTable 256 (Config.freeEntry s.draws), draws := s.draws + 1 }

/-- Every byte of DEC becomes UNSPECIFIED. -/
def State.drawDec (s : State) : State :=
  { s with decMem := ⟨some s.draws, []⟩, draws := s.draws + 1 }

/-! ### Acceptance, completion and errors -/

/-- Command acceptance of the word `w` (44_control.md R232). -/
def accept (w : Word) (s : State) : State :=
  { s with
    cmd := w
    status := { s.status with busy := true, done := false, err := false }
    errCode := ⟨0, 0, 0⟩
    errInfo := 0
    pending := some w }

/-- Success completion, `complete()` (60_exceptions.md R259). -/
def complete (s : State) : State :=
  { s with
    status := { s.status with busy := false, done := true }
    irqStatus := { s.irqStatus with doneEvt := true }
    pending := none }

/-- The error kinds (60_exceptions.md R251). -/
inductive ErrKind where
  | illegalCmd | emptyInput | malformedStream | unknownSymbol | noTree | noCode
  | outOverflow | decOverflow | lenRange | countOverflow | dupSymbol
deriving DecidableEq, Repr

/-- ERRCODE.CODE of an error kind (60_exceptions.md R251). -/
def errNumber : ErrKind → Byte
  | .illegalCmd => 0x01
  | .emptyInput => 0x02
  | .malformedStream => 0x03
  | .unknownSymbol => 0x04
  | .noTree => 0x05
  | .noCode => 0x06
  | .outOverflow => 0x07
  | .decOverflow => 0x08
  | .lenRange => 0x09
  | .countOverflow => 0x0A
  | .dupSymbol => 0x0B

/-- The sub-codes of MALFORMED_STREAM (60_exceptions.md R253). -/
inductive BadStream where
  | truncPadField | padRange | truncTree | arenaOverflow | padMismatch | truncPadBits | incompleteCode | singleLeafBits
deriving DecidableEq, Repr

/-- ERRCODE.SUB of a MALFORMED_STREAM (60_exceptions.md R253). -/
def badStreamNumber : BadStream → Byte
  | .truncPadField => 0x01
  | .padRange => 0x02
  | .truncTree => 0x03
  | .arenaOverflow => 0x04
  | .padMismatch => 0x05
  | .truncPadBits => 0x06
  | .incompleteCode => 0x07
  | .singleLeafBits => 0x08

/-- Error completion, `raise Error(c, sub, info)` (60_exceptions.md R260): the exception entry of this block. What saves the
failing operation is ERRCODE (OP from CMD[7:0]) and ERR_INFO. The effects of R262 on the stores are applied by the caller to
the state it passes. -/
def raise (k : ErrKind) (sub : Byte) (info : Nat) (s : State) : State :=
  { s with
    errCode := ⟨opcodeOf s.cmd, sub, errNumber k⟩
    errInfo := BitVec.ofNat 32 info
    status := { s.status with busy := false, done := true, err := true }
    irqStatus := ⟨true, true⟩
    pending := none }

/-- The host's acknowledgement of events, a write to IRQ_STATUS: there is no return operation (60_exceptions.md R265,
10_state.md R30). -/
def acknowledge (w : Word) (s : State) : State :=
  { s with irqStatus := ⟨s.irqStatus.doneEvt && !w.getLsbD 0, s.irqStatus.errEvt && !w.getLsbD 1⟩ }

/-- A host write to STATUS clears OVR if its bit 8 is 1 (44_control.md R235). -/
def clearOvr (w : Word) (s : State) : State :=
  { s with status := { s.status with ovr := s.status.ovr && !w.getLsbD 8 } }

/-- A dropped host write sets OVR (44_control.md R239). -/
def dropWrite (s : State) : State := { s with status := { s.status with ovr := true } }

/-- The answer of a command that ends in success. -/
def succeed (s : State) : Result := .next (complete s)

/-- The answer of a command that ends in an error. -/
def fail (k : ErrKind) (sub : Byte) (info : Nat) (s : State) : Result := .next (raise k sub info s)

/-- The answer of a command that ends in MALFORMED_STREAM. -/
def failStream (b : BadStream) (info : Nat) (s : State) : Result := fail .malformedStream (badStreamNumber b) info s

/-- The core performs an illegal command word: ILLEGAL_CMD, ERR_INFO the whole word, nothing else changes
(44_control.md R233, 30_encoding.md R102). -/
def illegalCommand (w : Word) (s : State) : Result := fail .illegalCmd 0x00 w.toNat s

/-! ### Reset (70_reset_and_hazards.md R290 to R294) -/

/-- The effect of a reset on a running machine: every register at its value after reset (R291), nothing pending, and every
store UNSPECIFIED (R292), as a fresh draw. The capacities are constant (10_state.md R23), and the model's own fields that
stand for the host are not the block's (log 14). -/
def resetEffect (s : State) : State :=
  { State.resetWith s.caps with
    arena := drawTable 511 (Config.freeNode s.draws)
    hist := drawTable 256 (Config.freeCount s.draws)
    lut := drawTable 256 (Config.freeEntry s.draws)
    inMem := ⟨some s.draws, []⟩
    outMem := ⟨some s.draws, []⟩
    bsMem := ⟨some s.draws, []⟩
    decMem := ⟨some s.draws, []⟩
    draws := s.draws + 1
    host := s.host
    sched := s.sched
    resp := s.resp }

end Sys2Proof.Machine
end

