-- ==== Sys2Proof/Machine/Operands.lean ====
section
/-! DEFINITION. Where commands take their operands from and put their results: the input symbols, the tree in the arena, and
the segments of the bitstreams (commands have no operand field, 30_encoding.md R100). -/

namespace Sys2Proof.Machine

/-- The input symbols IN[0 .. IN_LEN-1] (10_state.md R31). -/
def inputBytes (s : State) : List Byte := (List.range s.inLen.toNat).map (s.byteAt .inp)

/-- A tree of the arena, each node with its arena index: "either a leaf, holding exactly one Symbol, or an internal node,
holding exactly two children (left, right), no symbol" (10_state.md R40). -/
inductive Tree where
  | leaf (idx : Nat) (sym : Byte)
  | node (idx : Nat) (l r : Tree)
deriving DecidableEq, Repr

/-- The subtree of the arena rooted at an index, none if the walk meets NODE[511] or is longer than `fuel` nodes deep. No path
of a tree in the arena is deeper than its 511 entries (log 8). -/
def readTree (ar : Arena) : Nat → BitVec 9 → Option Tree
  | 0, _ => none
  | fuel + 1, i =>
    match ar.node? i with
    | none => none
    | some nd =>
      if nd.leaf then some (.leaf i.toNat nd.sym)
      else
        match readTree ar fuel nd.left, readTree ar fuel nd.right with
        | some l, some r => some (.node i.toNat l r)
        | _, _ => none

/-- The current tree, rooted at ROOT. -/
def currentTree (s : State) : Option Tree := readTree s.arena 511 s.root

/-- The arena indices of a tree's nodes in pre-order. -/
def Tree.indices : Tree → List Nat
  | .leaf i _ => [i]
  | .node i l r => i :: (l.indices ++ r.indices)

/-- The arena index of a tree's root. -/
def Tree.rootIdx : Tree → Nat
  | .leaf i _ => i
  | .node i _ _ => i

/-- The number of leaves of a tree. -/
def Tree.leafCount : Tree → Nat
  | .leaf _ _ => 1
  | .node _ l r => l.leafCount + r.leafCount

/-- The tree is a single leaf. -/
def Tree.isLeaf : Tree → Bool
  | .leaf _ _ => true
  | .node _ _ _ => false

/-- One leaf met by the walk of 42_payload_encoder.md R190: its arena index, its symbol and the path to it. -/
structure LeafCode where
  idx : Nat
  sym : Byte
  code : Bits
deriving DecidableEq, Repr

/-- The leaves of a tree in pre-order, left subtree first, each with its path after `c`: 0 per left edge, 1 per right edge
(42_payload_encoder.md R190, R191). -/
def Tree.leafCodes : Tree → Bits → List LeafCode
  | .leaf i sym, c => [⟨i, sym, c⟩]
  | .node _ l r, c => l.leafCodes (c ++ [false]) ++ r.leafCodes (c ++ [true])

/-! ### Segments (30_encoding.md R106) -/

/-- The pad count of a segment body of `n` bits (30_encoding.md R106). -/
def padOf (n : Nat) : Nat := (8 - n % 8) % 8

/-- `bits_8(P) ++ body ++ zeros(P)` (30_encoding.md R106). -/
def frameSegment (body : Bits) : Bits := bitsN 8 (padOf body.length) ++ body ++ zeros (padOf body.length)

/-- The last lines of TREE_SER and PAY_ENC: write the segment of `body` to OUT at OUT_BITPTR, if it fits, and record it
(41_tree_codec.md R160, 42_payload_encoder.md R195). -/
def emitSegment (body : Bits) (s : State) : Result :=
  let seg := frameSegment body
  if 8 * s.caps.outCap < s.outBitptr.toNat + seg.length then fail .outOverflow 0x00 seg.length s
  else
    succeed { s with
      outMem := s.outMem.setBits .out s.outBitptr.toNat seg
      outBitptr := BitVec.ofNat 32 (s.outBitptr.toNat + seg.length)
      segPad := BitVec.ofNat 8 (padOf body.length)
      segBits := BitVec.ofNat 32 seg.length }

/-- The header of the segment at BS_BITPTR: its pad count P, or why there is none and the bit index that tells it
(41_tree_codec.md R170, 43_payload_decoder.md R211). -/
def readPadField (s : State) : Except (BadStream × Nat) Nat :=
  let off := s.bsBitptr.toNat
  if s.bsLen.toNat < off + 8 then .error (.truncPadField, off)
  else
    let p := uint (s.bsMem.bits .bs off 8)
    if 7 < p then .error (.padRange, off) else .ok p

/-- BS_LEN exceeds the capacity of BS, in bits (10_state.md R33). -/
def bsLenOutOfRange (s : State) : Bool := 8 * s.caps.bsCap < s.bsLen.toNat

/-- IN_LEN exceeds the capacity of IN (10_state.md R31). -/
def inLenOutOfRange (s : State) : Bool := s.caps.inCap < s.inLen.toNat

end Sys2Proof.Machine
end

