-- ==== Sys2Proof/Machine/Bus.lean ====
section
/-! DEFINITION. The host port: the address map, the registers and windows as the host reads them, and what a host write does,
idle and busy (20_memory.md, 44_control.md R232 to R240). -/

namespace Sys2Proof.Machine

/-- The 24 registers, in the order of their offsets (10_state.md R23 to R39). -/
inductive Reg where
  | id | version | ctrl | cmd | status | errCode | errInfo | irqEn | irqStatus | inLen | outBitptr | bsLen | bsBitptr
  | decLen | decRepeat | root | nodeCount | symCount | segPad | segBits | capIn | capOut | capBs | capDec
deriving DecidableEq, Repr

/-- The registers at the word offsets 0x0000, 0x0004, .., 0x005C (20_memory.md R73). -/
def regsInOrder : List Reg :=
  [.id, .version, .ctrl, .cmd, .status, .errCode, .errInfo, .irqEn, .irqStatus, .inLen, .outBitptr, .bsLen, .bsBitptr,
   .decLen, .decRepeat, .root, .nodeCount, .symCount, .segPad, .segBits, .capIn, .capOut, .capBs, .capDec]

/-- A mapped word of the host space (20_memory.md R73). -/
inductive Loc where
  | reg (r : Reg)
  /-- HIST[s] (10_state.md R44) -/
  | hist (sym : Byte)
  /-- the CODE_LEN word of a symbol (10_state.md R46) -/
  | codeLen (sym : Byte)
  /-- word w of the CODE_BITS of a symbol (10_state.md R46) -/
  | codeBits (sym : Byte) (w : Nat)
  /-- word w of NODE[i] (10_state.md R42) -/
  | node (i : Nat) (w : Nat)
  /-- the word at byte index a of a byte memory (20_memory.md R76) -/
  | mem (id : MemId) (a : Nat)
deriving DecidableEq, Repr

/-- Where a byte memory's window begins (20_memory.md R73). -/
def memBase : MemId → Nat
  | .inp => 0x100000
  | .out => 0x200000
  | .bs => 0x300000
  | .dec => 0x400000

/-- The byte memory window that maps an address, if any (20_memory.md R73). -/
def decodeMemWindow (c : Caps) (n : Nat) : Option Loc :=
  if 0x100000 ≤ n ∧ n < 0x100000 + c.inCap then some (.mem .inp (n - 0x100000))
  else if 0x200000 ≤ n ∧ n < 0x200000 + c.outCap then some (.mem .out (n - 0x200000))
  else if 0x300000 ≤ n ∧ n < 0x300000 + c.bsCap then some (.mem .bs (n - 0x300000))
  else if 0x400000 ≤ n ∧ n < 0x400000 + c.decCap then some (.mem .dec (n - 0x400000))
  else none

/-- The address map (20_memory.md R73): what a byte address holds, none where it is misaligned or not mapped (R72). -/
def decodeAddr (c : Caps) (addr : BitVec 24) : Option Loc :=
  let n := addr.toNat
  if n % 4 ≠ 0 then none
  else if n < 0x0060 then regsInOrder[n / 4]?.map .reg
  else if 0x1000 ≤ n ∧ n < 0x1400 then some (.hist (BitVec.ofNat 8 ((n - 0x1000) / 4)))
  else if 0x2000 ≤ n ∧ n < 0x2400 then some (.codeLen (BitVec.ofNat 8 ((n - 0x2000) / 4)))
  else if 0x4000 ≤ n ∧ n < 0x6000 then some (.codeBits (BitVec.ofNat 8 ((n - 0x4000) / 32)) ((n - 0x4000) / 4 % 8))
  else if 0x8000 ≤ n ∧ n < 0x9FF0 then some (.node ((n - 0x8000) / 16) ((n - 0x8000) / 4 % 4))
  else decodeMemWindow c n

/-- The location a request accesses, none where the request is refused (20_memory.md R72). -/
def target (c : Caps) (r : BusReq) : Option Loc := if r.size ≠ 4 then none else decodeAddr c r.addr

/-- The value of a register (10_state.md R23 to R39): ID, VERSION and CTRL are hard-wired, reserved bits read 0 (R22). -/
def regValue (s : State) : Reg → Word
  | .id => 0x48554646
  | .version => 0x00000001
  | .ctrl => 0x00000000
  | .cmd => s.cmd
  | .status => statusWord s.status
  | .errCode => errCodeWord s.errCode
  | .errInfo => s.errInfo
  | .irqEn => irqEnWord s.irqEn
  | .irqStatus => irqStatusWord s.irqStatus
  | .inLen => s.inLen
  | .outBitptr => s.outBitptr
  | .bsLen => s.bsLen
  | .bsBitptr => s.bsBitptr
  | .decLen => s.decLen
  | .decRepeat => s.decRepeat
  | .root => s.root.zeroExtend 32
  | .nodeCount => s.nodeCount.zeroExtend 32
  | .symCount => s.symCount.zeroExtend 32
  | .segPad => s.segPad.zeroExtend 32
  | .segBits => s.segBits
  | .capIn => BitVec.ofNat 32 s.caps.inCap
  | .capOut => BitVec.ofNat 32 s.caps.outCap
  | .capBs => BitVec.ofNat 32 s.caps.bsCap
  | .capDec => BitVec.ofNat 32 s.caps.decCap

/-- Word w of an arena entry (10_state.md R42). -/
def nodeWord (nd : Node) : Nat → Word
  | 0 => 0#16 ++ nd.sym ++ 0#7 ++ BitVec.ofBool nd.leaf
  | 1 => 0#7 ++ nd.right ++ 0#7 ++ nd.left
  | 2 => nd.weight.extractLsb' 0 32
  | _ => 0#24 ++ nd.weight.extractLsb' 32 8

/-- The CODE_LEN word of a LUT entry (10_state.md R46). -/
def codeLenWord (e : LutEntry) : Word := BitVec.ofBool e.present ++ 0#23 ++ e.len

/-- Word w of the CODE_BITS of a LUT entry: bit 31 - m is CBITS[32w + m] (10_state.md R46). -/
def codeBitsWord (e : LutEntry) (w : Nat) : Word := e.cbits.extractLsb' (224 - 32 * w) 32

/-- The current value of a mapped word (44_control.md R236). -/
def peek (s : State) : Loc → Word
  | .reg r => regValue s r
  | .hist sym => s.hist.count sym
  | .codeLen sym => codeLenWord (s.lut.entry sym)
  | .codeBits sym w => codeBitsWord (s.lut.entry sym) w
  | .node i w => match s.arena[i]? with
    | some nd => nodeWord nd w
    | none => 0
  | .mem id a => (s.mem id).readWord id a

/-- The registers a read returns the defined value of while a command is pending (44_control.md R238). -/
def readableWhileBusy : Loc → Bool
  | .reg r => match r with
    | .id | .version | .ctrl | .cmd | .status | .errCode | .errInfo | .irqEn | .irqStatus | .inLen | .bsLen | .decRepeat
    | .capIn | .capOut | .capBs | .capDec => true
    | .outBitptr | .bsBitptr | .decLen | .root | .nodeCount | .symCount | .segPad | .segBits => false
  | .hist _ | .codeLen _ | .codeBits _ _ | .node _ _ | .mem _ _ => false

/-- The response of the host port is recorded. -/
def respond (rdata : Word) (err : Bool) (s : State) : State := { s with resp := some ⟨rdata, err⟩ }

/-- A response without error whose rdata the spec does not state: a fresh free value (log 9, 10). -/
def respondFree (s : State) : State := respond (Config.freeRdata s.draws) false { s with draws := s.draws + 1 }

/-- The response to a refused access, read or write: err 1 and rdata 0 (20_memory.md R77; 92_eei_decisions.md D3, part 4). -/
def refuse (s : State) : State := respond 0 true s

/-- A host read of a mapped word (44_control.md R236, R238): its value, or, while a command is pending and the word is one the
command may write, a fresh free value (log 9). -/
def hostRead (l : Loc) (s : State) : State :=
  if s.status.busy && !readableWhileBusy l then respondFree s
  else respond (peek s l) false s

/-- A host write of a mapped word while no command is pending (44_control.md R237, R232, R235); read-only locations ignore it
(10_state.md R22). CTRL is not among its cases: hostWrite takes it. -/
def pokeIdle (l : Loc) (w : Word) (s : State) : State :=
  match l with
  | .reg r => match r with
    | .cmd => accept w s
    | .status => clearOvr w s
    | .irqEn => { s with irqEn := irqEnOfWord w }
    | .irqStatus => acknowledge w s
    | .inLen => { s with inLen := w }
    | .outBitptr => { s with outBitptr := w }
    | .bsLen => { s with bsLen := w }
    | .bsBitptr => { s with bsBitptr := w }
    | .decRepeat => { s with decRepeat := w }
    | .id | .version | .ctrl | .errCode | .errInfo | .decLen | .root | .nodeCount | .symCount | .segPad | .segBits
    | .capIn | .capOut | .capBs | .capDec => s
  | .hist sym => { s with hist := s.hist.put sym w }
  | .codeLen _ | .codeBits _ _ | .node _ _ => s
  | .mem id a => s.setMem id ((s.mem id).writeWord a w)

/-- A host write of a mapped word while a command is pending (44_control.md R239, R234): STATUS, IRQ_EN and IRQ_STATUS take
it, any other write is dropped and sets OVR. -/
def pokeBusy (l : Loc) (w : Word) (s : State) : State :=
  match l with
  | .reg r => match r with
    | .status => clearOvr w s
    | .irqEn => { s with irqEn := irqEnOfWord w }
    | .irqStatus => acknowledge w s
    | .ctrl => s
    | .id | .version | .cmd | .errCode | .errInfo | .inLen | .outBitptr | .bsLen | .bsBitptr | .decLen | .decRepeat
    | .root | .nodeCount | .symCount | .segPad | .segBits | .capIn | .capOut | .capBs | .capDec => dropWrite s
  | .hist _ | .codeLen _ | .codeBits _ _ | .node _ _ | .mem _ _ => dropWrite s

/-- A host write to a mapped word other than a soft reset, busy or idle. -/
def poke (l : Loc) (w : Word) (s : State) : State := if s.status.busy then pokeBusy l w s else pokeIdle l w s

end Sys2Proof.Machine
end

