-- ==== Sys2Proof/Machine/Control.lean ====
section
/-! DEFINITION. The control family: NOP and the soft reset SRST (44_control.md). -/

namespace Sys2Proof.Machine

/-- NOP (44_control.md R230). -/
def execNop (s : State) : Result := succeed s

/-- SRST (44_control.md R231): discards any pending command without a completion and applies the reset; the other bits of the
written word are ignored (30_encoding.md R103). -/
def execSrst (_ignored : Nat) (s : State) : Result := .next (resetEffect s)

end Sys2Proof.Machine
end

