-- ==== Sys2Proof/Machine/Decoder.lean ====
section
/-! DEFINITION. The decoder: PAY_DEC, the payload unpacker and tree walker (43_payload_decoder.md). -/

namespace Sys2Proof.Machine

/-- How the walk ends. -/
inductive WalkEnd where
  /-- all meaningful bits consumed: the symbols emitted and the node the walk stands at -/
  | finished (syms : List Byte) (cur : BitVec 9)
  /-- a symbol beyond DEC_CAP, completed by meaningful bit `k` -/
  | overflow (k : Nat)
  /-- the walk meets an index the arena lacks (log 8) -/
  | noNode
deriving DecidableEq, Repr

/-- A symbol emitted before the rest of the walk. -/
def WalkEnd.emit (sym : Byte) : WalkEnd → WalkEnd
  | .finished syms cur => .finished (sym :: syms) cur
  | .overflow k => .overflow k
  | .noNode => .noNode

/-- The walk (43_payload_decoder.md R210, R212) over the meaningful bits from bit `k` on, at the node `cur`, with `n` symbols
emitted so far: 0 moves to the left child, 1 to the right child; at a leaf its symbol is emitted and the walk is at the root
again. -/
def walk (ar : Arena) (root : BitVec 9) (decCap : Nat) : Bits → Nat → BitVec 9 → Nat → WalkEnd
  | [], _, cur, _ => .finished [] cur
  | b :: bs, k, cur, n =>
    match ar.node? cur with
    | none => .noNode
    | some nd =>
      let child := if b then nd.right else nd.left
      match ar.node? child with
      | none => .noNode
      | some c =>
        if c.leaf then
          if n = decCap then .overflow k
          else (walk ar root decCap bs (k + 1) root (n + 1)).emit c.sym
        else walk ar root decCap bs (k + 1) child n

/-- The last lines of PAY_DEC: DEC[0 ..] and the registers of a decoded payload segment with pad count `p` and `l` bits after the
pad field (43_payload_decoder.md R210). -/
def finishDecode (syms : List Byte) (p l : Nat) (s : State) : Result :=
  succeed { s with
    decMem := s.decMem.writeBytes 0 syms
    decLen := BitVec.ofNat 32 syms.length
    bsBitptr := s.bsLen
    segPad := BitVec.ofNat 8 p
    segBits := BitVec.ofNat 32 (8 + l) }

/-- The single-leaf case: the leaf's symbol DEC_REPEAT times, and no meaningful bit (43_payload_decoder.md R213). -/
def decodeSingleLeaf (sym : Byte) (p l : Nat) (s : State) : Result :=
  if l - p ≠ 0 then failStream .singleLeafBits (s.bsBitptr.toNat + 8) s.drawDec
  else if s.caps.decCap < s.decRepeat.toNat then fail .decOverflow 0x02 s.decRepeat.toNat s.drawDec
  else finishDecode (List.replicate s.decRepeat.toNat sym) p l s

/-- The case of an internal root: the walk over the M = L - P meaningful bits, which must end at the root
(43_payload_decoder.md R212, R214). -/
def decodeWalk (p l : Nat) (s : State) : Result :=
  let body := s.bsBitptr.toNat + 8
  match walk s.arena s.root s.caps.decCap (s.bsMem.bits .bs body (l - p)) 0 s.root 0 with
  | .noNode => .fault .noSuchNode
  | .overflow k => fail .decOverflow 0x01 (body + k) s.drawDec
  | .finished syms cur =>
    if cur ≠ s.root then failStream .incompleteCode (body + (l - p)) s.drawDec else finishDecode syms p l s

/-- PAY_DEC (43_payload_decoder.md R210 to R214). -/
def execPayDec (s : State) : Result :=
  if bsLenOutOfRange s then fail .lenRange 0x02 s.bsLen.toNat s
  else if !s.status.treeValid then fail .noTree 0x00 0 s
  else
    match readPadField s with
    | .error (b, at_) => failStream b at_ s.drawDec
    | .ok p =>
      let body := s.bsBitptr.toNat + 8
      let l := s.bsLen.toNat - body
      if l < p then failStream .truncPadBits body s.drawDec
      else if l % 8 ≠ 0 then failStream .padMismatch body s.drawDec
      else
        match s.arena.node? s.root with
        | none => .fault .noSuchNode
        | some rt => if rt.leaf then decodeSingleLeaf rt.sym p l s else decodeWalk p l s

end Sys2Proof.Machine
end

