-- ==== Sys2Proof/Machine/Encoder.lean ====
section
/-! DEFINITION. The encoder: CODE_GEN, which derives the code LUT, and PAY_ENC, which packs the payload (42_payload_encoder.md). -/

namespace Sys2Proof.Machine

/-- Enters leaves into a LUT in order, or the first leaf whose symbol is already present (42_payload_encoder.md R190, R192). -/
def fillLut : List LeafCode → Lut → Except LeafCode Lut
  | [], l => .ok l
  | c :: cs, l => if (l.entry c.sym).present then .error c else fillLut cs (l.put c.sym (entryOfCode c.code))

/-- The code table of a tree (42_payload_encoder.md R190, R191). -/
def codeTable (t : Tree) : Except LeafCode Lut := fillLut (t.leafCodes []) absentLut

/-- CODE_GEN (42_payload_encoder.md R190). -/
def execCodeGen (s : State) : Result :=
  if !s.status.treeValid then fail .noTree 0x00 0 s
  else
    match currentTree s with
    | none => .fault .arenaNotATree
    | some t =>
      match codeTable t with
      | .error c => fail .dupSymbol c.sym c.idx (setCodeValid false s.drawLut)
      | .ok l => succeed (setCodeValid true { s with lut := l })

/-- The payload body of symbols, the first of them at input index `i`: the concatenation of their codes, or the lowest input index
whose symbol has no code (42_payload_encoder.md R195 pass 1, 30_encoding.md R111). -/
def payloadBits (l : Lut) : List Byte → Nat → Except (Byte × Nat) Bits
  | [], _ => .ok []
  | sym :: syms, i =>
    if !(l.entry sym).present then .error (sym, i)
    else
      match payloadBits l syms (i + 1) with
      | .error e => .error e
      | .ok bs => .ok (lutBits (l.entry sym) ++ bs)

/-- PAY_ENC (42_payload_encoder.md R195). Pass 1 and the capacity check come before any bit of OUT is written. -/
def execPayEnc (s : State) : Result :=
  if inLenOutOfRange s then fail .lenRange 0x01 s.inLen.toNat s
  else if !s.status.codeValid then fail .noCode 0x00 0 s
  else
    match payloadBits s.lut (inputBytes s) 0 with
    | .error (sym, i) => fail .unknownSymbol sym i s
    | .ok body => emitSegment body s

end Sys2Proof.Machine
end

