-- ==== Sys2Proof/Machine/Histogram.lean ====
section
/-! DEFINITION. The histogram front end: HIST_CLEAR and HIST_ACCUM (40_histogram_builder.md). -/

namespace Sys2Proof.Machine

/-- HIST_CLEAR (40_histogram_builder.md R140). -/
def execHistClear (s : State) : Result := succeed { s with hist := zeroHist }

/-- Counts symbols into a histogram, the first of them at input index `i`, or the symbol and the input index at which a counter
is already 2^32 - 1 (40_histogram_builder.md R141). -/
def countSymbols : List Byte → Nat → Hist → Except (Byte × Nat) Hist
  | [], _, h => .ok h
  | sym :: syms, i, h =>
    if h.count sym = 0xFFFFFFFF then .error (sym, i)
    else countSymbols syms (i + 1) (h.put sym (h.count sym + 1))

/-- HIST_ACCUM (40_histogram_builder.md R141). -/
def execHistAccum (s : State) : Result :=
  if inLenOutOfRange s then fail .lenRange 0x01 s.inLen.toNat s
  else
    match countSymbols (inputBytes s) 0 s.hist with
    | .error (sym, i) => fail .countOverflow sym i s.drawHist
    | .ok h => succeed { s with hist := h }

end Sys2Proof.Machine
end

