-- ==== Sys2Proof/Machine/TreeBuilder.lean ====
section
/-! DEFINITION. The tree builder: TREE_BUILD (40_histogram_builder.md R142 to R146). -/

namespace Sys2Proof.Machine

/-- The symbols of the histogram in ascending order (40_histogram_builder.md R142, `Lst`). -/
def presentSymbols (h : Hist) : List Byte := ((List.range 256).map (BitVec.ofNat 8)).filter fun sym => h.count sym ≠ 0

/-- One entry of the min-priority structure Q: a node's index with its weight. -/
structure QEntry where
  weight : Nat
  idx : Nat
deriving DecidableEq, Repr

/-- The order of extraction: least weight, then least arena index (40_histogram_builder.md R143). -/
def QEntry.before (a b : QEntry) : Bool := a.weight < b.weight || (a.weight == b.weight && a.idx < b.idx)

/-- The entry of least (weight, index) and the rest of the queue. -/
def extractMin : List QEntry → Option (QEntry × List QEntry)
  | [] => none
  | e :: es =>
    match extractMin es with
    | none => some (e, [])
    | some (m, rest) => if e.before m then some (e, es) else some (m, e :: rest)

/-- A leaf of the builder: `{LEAF: 1, SYM, LEFT: 0, RIGHT: 0, WEIGHT: HIST[SYM]}`. -/
def builtLeaf (h : Hist) (sym : Byte) : Node := ⟨true, sym, 0, 0, BitVec.ofNat 40 (h.count sym).toNat⟩

/-- Writes the leaves of `syms` to the arena from index `j` on. -/
def placeLeaves (h : Hist) : List Byte → Nat → Arena → Arena
  | [], _, ar => ar
  | sym :: syms, j, ar => placeLeaves h syms (j + 1) (ar.put j (builtLeaf h sym))

/-- The queue of the leaves of `syms`, the first of them at index `j`. -/
def leafQueue (h : Hist) : List Byte → Nat → List QEntry
  | [], _ => []
  | sym :: syms, j => ⟨(h.count sym).toNat, j⟩ :: leafQueue h syms (j + 1)

/-- What the merge loop leaves: the arena, the root's index and the next free index. -/
structure Built where
  arena : Arena
  root : Nat
  next : Nat
deriving DecidableEq, Repr

/-- The merge of the two least entries into the node `next`: first extracted LEFT, second RIGHT (40_histogram_builder.md R143). -/
def mergedNode (a b : QEntry) : Node :=
  ⟨false, 0, BitVec.ofNat 9 a.idx, BitVec.ofNat 9 b.idx, BitVec.ofNat 40 (a.weight + b.weight)⟩

/-- The loop `while |Q| > 1` (40_histogram_builder.md R142). Each turn shortens the queue by one, so as much fuel as the queue is
long is enough. -/
def mergeLoop : Nat → List QEntry → Built → Built
  | 0, _, b => b
  | fuel + 1, q, b =>
    match extractMin q with
    | none => b
    | some (x, q₁) =>
      match extractMin q₁ with
      | none => { b with root := x.idx }
      | some (y, q₂) =>
        mergeLoop fuel (⟨x.weight + y.weight, b.next⟩ :: q₂)
          { b with arena := b.arena.put b.next (mergedNode x y), next := b.next + 1 }

/-- The tree of the symbols `syms` of a histogram, built over the arena `ar`. -/
def buildTree (h : Hist) (syms : List Byte) (ar : Arena) : Built :=
  mergeLoop syms.length (leafQueue h syms 0) ⟨placeLeaves h syms 0 ar, 0, syms.length⟩

/-- TREE_BUILD (40_histogram_builder.md R142). -/
def execTreeBuild (s : State) : Result :=
  let syms := presentSymbols s.hist
  if syms = [] then fail .emptyInput 0x00 0 s
  else
    let b := buildTree s.hist syms s.arena
    succeed (installTree b.root b.next syms.length (syms.length == 1) { s with arena := b.arena })

end Sys2Proof.Machine
end

