-- ==== Sys2Proof/Machine/TreeCodec.lean ====
section
/-! DEFINITION. The tree serializer and the tree deserializer: TREE_SER and TREE_DES (41_tree_codec.md). -/

namespace Sys2Proof.Machine

/-- SerBits (41_tree_codec.md R161). -/
def Tree.serBits : Tree → Bits
  | .leaf _ sym => true :: bitsN 8 sym.toNat
  | .node _ l r => false :: (l.serBits ++ r.serBits)

/-- TREE_SER (41_tree_codec.md R160). -/
def execTreeSer (s : State) : Result :=
  if !s.status.treeValid then fail .noTree 0x00 0 s
  else
    match currentTree s with
    | none => .fault .arenaNotATree
    | some t => emitSegment t.serBits s

/-- The variables of the parse (41_tree_codec.md R170, R171). -/
structure ParseState where
  pos : Nat
  count : Nat
  leaves : Nat
  arena : Arena
deriving DecidableEq, Repr

/-- A parsed leaf (41_tree_codec.md R171). -/
def parsedLeaf (sym : Byte) : Node := ⟨true, sym, 0, 0, 0⟩

/-- A parsed internal node (41_tree_codec.md R171). -/
def parsedNode (l r : Nat) : Node := ⟨false, 0, BitVec.ofNat 9 l, BitVec.ofNat 9 r, 0⟩

/-- Parse (41_tree_codec.md R171): the index of the parsed node and the variables after it. Every call allocates a node before it
recurses and a 512th node is refused, so the recursion is at most 512 calls deep and fuel 512 does not run out. -/
def parse (m : ByteMem) (endp : Nat) : Nat → ParseState → Except (BadStream × Nat) (Nat × ParseState)
  | 0, st => .error (.arenaOverflow, st.pos)
  | fuel + 1, st =>
    if endp ≤ st.pos then .error (.truncTree, st.pos)
    else if st.count = 511 then .error (.arenaOverflow, st.pos)
    else
      let i := st.count
      let st₁ : ParseState := { st with pos := st.pos + 1, count := st.count + 1 }
      if m.bit .bs st.pos then
        if endp < st₁.pos + 8 then .error (.truncTree, st₁.pos)
        else
          let v := BitVec.ofNat 8 (uint (m.bits .bs st₁.pos 8))
          .ok (i, { st₁ with
            pos := st₁.pos + 8, leaves := st₁.leaves + 1, arena := st₁.arena.put i (parsedLeaf v) })
      else
        match parse m endp fuel st₁ with
        | .error e => .error e
        | .ok (l, st₂) =>
          match parse m endp fuel st₂ with
          | .error e => .error e
          | .ok (r, st₃) => .ok (i, { st₃ with arena := st₃.arena.put i (parsedNode l r) })

/-- The effects every failed TREE_DES has: the arena UNSPECIFIED, TREE_VALID, CODE_VALID and SINGLE_LEAF 0
(60_exceptions.md R262). -/
def destroyTree (s : State) : State :=
  { s with
    arena := drawTable 511 (Config.freeNode s.draws)
    draws := s.draws + 1
    status := { s.status with treeValid := false, codeValid := false, singleLeaf := false } }

/-- TREE_DES (41_tree_codec.md R170, R172, R173). -/
def execTreeDes (s : State) : Result :=
  if bsLenOutOfRange s then fail .lenRange 0x02 s.bsLen.toNat (destroyTree s)
  else
    match readPadField s with
    | .error (b, at_) => failStream b at_ (destroyTree s)
    | .ok p =>
      let body := s.bsBitptr.toNat + 8
      match parse s.bsMem s.bsLen.toNat 512 ⟨body, 0, 0, s.arena⟩ with
      | .error (b, at_) => failStream b at_ (destroyTree s)
      | .ok (_, st) =>
        let t := st.pos - body
        if (t + p) % 8 ≠ 0 then failStream .padMismatch st.pos (destroyTree s)
        else if s.bsLen.toNat < st.pos + p then failStream .truncPadBits st.pos (destroyTree s)
        else
          succeed { installTree 0 st.count st.leaves (st.arena[0]).leaf { s with arena := st.arena } with
            bsBitptr := BitVec.ofNat 32 (st.pos + p)
            segPad := BitVec.ofNat 8 p
            segBits := BitVec.ofNat 32 (8 + t + p) }

end Sys2Proof.Machine
end

