-- ==== Sys2Proof/Machine/Dispatch.lean ====
section
/-! DEFINITION. What each instruction does: one arm per constructor of Instr, one call of its meaning. -/

namespace Sys2Proof.Machine

def exec (i : Instr) (s : State) : Host.Outcome State Fault Refusal :=
  match i with
  | .nop => Sys2Proof.Machine.execNop s
  | .histClear => Sys2Proof.Machine.execHistClear s
  | .histAccum => Sys2Proof.Machine.execHistAccum s
  | .treeBuild => Sys2Proof.Machine.execTreeBuild s
  | .codeGen => Sys2Proof.Machine.execCodeGen s
  | .treeSer => Sys2Proof.Machine.execTreeSer s
  | .payEnc => Sys2Proof.Machine.execPayEnc s
  | .treeDes => Sys2Proof.Machine.execTreeDes s
  | .payDec => Sys2Proof.Machine.execPayDec s
  | .srst ignored => Sys2Proof.Machine.execSrst ignored s

end Sys2Proof.Machine
end

