-- ==== Sys2Proof/Machine/Agents.lean ====
section
/-! DEFINITION. The two agents: one bus access or other operation of the host, and the core's performance of the pending command
(00_scope.md R13, 44_control.md R233); whose turn it is; and where the next instruction word is placed. -/

namespace Sys2Proof.Machine

/-- The next state of an answer, changed by `f`. -/
def mapNext (f : State → State) : Result → Result
  | .next s => .next (f s)
  | .fault r => .fault r
  | .refused r => .refused r

/-- A host write to a mapped word (44_control.md R231, R235 to R239). A write to CTRL is decoded: with bit 0 = 1 it is SRST, busy
or idle; with bit 0 = 0 it has no effect (30_encoding.md R103). -/
def hostWrite (l : Loc) (w : Word) (s : State) : Result :=
  mapNext respondFree <|
    match l with
    | .reg .ctrl => match decode .ctrl w with
      | .ok i => exec i s
      | .error _ => .next s
    | l => .next (poke l w s)

/-- One bus access. A refused request is answered with the bus error and changes nothing else (20_memory.md R77). -/
def busAccess (r : BusReq) (s : State) : Result :=
  match target s.caps r with
  | none => .next (refuse s)
  | some l => if r.write then hostWrite l r.wdata s else .next (hostRead l s)

/-- One step of the host. Without an operation left it does nothing (44_control.md R241, 60_exceptions.md R273). -/
def hostStep (s : State) : Result :=
  match s.host with
  | [] => .next s
  | .access r :: rest => busAccess r { s with host := rest }
  | .waitIdle :: rest =>
    if s.status.busy then .next (hostRead (.reg .status) s)
    else .next (hostRead (.reg .status) { s with host := rest })
  | .stopIfErr n :: rest =>
    .next (hostRead (.reg .status) { s with host := if s.status.err then rest.drop n else rest })
  | .rstN :: rest => .next (resetEffect { s with host := rest })

/-- One step of the core: performs the pending command (44_control.md R233). It is not enabled without one, and then nothing
happens. -/
def coreStep (s : State) : Result :=
  match s.pending with
  | none => .next s
  | some w => match decode .cmd w with
    | .ok i => exec i s
    | .error _ => illegalCommand w s

/-- Whose turn it is: as `sched` says while it lasts, then the core's while a command is pending, so that a pending command is
performed after finitely many host steps (70_reset_and_hazards.md R303, log 1). -/
def turnOf (s : State) : Agent :=
  match s.sched with
  | a :: _ => a
  | [] => if s.pending.isSome then .core else .host

/-- The turn is taken from `sched`. -/
def passTurn (s : State) : State := { s with sched := s.sched.tail }

/-- The step of the agent whose turn it is. -/
def agentStep (s : State) : Result :=
  match turnOf s with
  | .host => hostStep (passTurn s)
  | .core => coreStep (passTurn s)

/-- The offset of CTRL (10_state.md R24). -/
def ctrlAddr : BitVec 24 := 0x000008

/-- The state in which the next step performs the instruction of a bare word (log 6, 7): a word that decodes to SRST is the host's next
operation, a write to CTRL; any other word has been accepted and the core performs it next. -/
def placeWord (w : Word) (s : State) : State :=
  match decodeBareWord w with
  | some (.srst _) => { s with host := .access ⟨ctrlAddr, true, w, 4⟩ :: s.host, sched := .host :: s.sched }
  | _ => { accept w s with sched := .core :: s.sched }

end Sys2Proof.Machine
end

