-- ==== Sys2Proof/Machine/Step.lean ====
section
/-! DEFINITION. One step of the machine, and where the host of this package places an instruction word. -/

namespace Sys2Proof.Machine

/-- One step: a host access, or the core's performance of a pending command, or neither where neither agent has anything to do. -/
def step (s : State) : Host.Outcome State Fault Refusal := agentStep s

/-- The state whose next step runs the instruction of the table word `w` (log 6). -/
def State.withFetchWord (s : State) (nbits w : Nat) : State := placeWord (BitVec.ofNat 32 (w % 2 ^ nbits)) s

end Sys2Proof.Machine
end

