-- ==== Sys2Proof/Machine/HostProgram.lean ====
section
/-! DEFINITION. Host programs: the operations a line of the host syntax stands for (30_encoding.md R115 to R118, log 12). -/

namespace Sys2Proof.Machine

/-- The byte offset of a register (10_state.md R23 to R39). -/
def regOffset (r : Reg) : Nat := 4 * regsInOrder.idxOf r

/-- A 32-bit write at a byte address. -/
def writeOp (addr v : Nat) : HostOp := .access ⟨BitVec.ofNat 24 addr, true, BitVec.ofNat 32 v, 4⟩

/-- A 32-bit read at a byte address. -/
def readOp (addr : Nat) : HostOp := .access ⟨BitVec.ofNat 24 addr, false, 0, 4⟩

/-- `wr NAME, v` for a register. -/
def writeReg (r : Reg) (v : Nat) : HostOp := writeOp (regOffset r) v

/-- `cmd MNEMONIC`: the write of the instruction's word to its register (30_encoding.md R114, R115). -/
def issue (i : Instr) : HostOp :=
  match encode i with
  | (.cmd, w) => writeReg .cmd w.toNat
  | (.ctrl, w) => writeReg .ctrl w.toNat

/-- The word of `bytes` at offset `4m` of its list; missing bytes are 0x00 (30_encoding.md R116). -/
def wordOfBytes (bs : List Byte) (m : Nat) : Nat :=
  (bs.getD (4 * m) 0).toNat + 2 ^ 8 * (bs.getD (4 * m + 1) 0).toNat + 2 ^ 16 * (bs.getD (4 * m + 2) 0).toNat
    + 2 ^ 24 * (bs.getD (4 * m + 3) 0).toNat

/-- `bytes SP, a, b0 b1 ...` (30_encoding.md R116). -/
def storeBytes (sp : MemId) (a : Nat) (bs : List Byte) : List HostOp :=
  (List.range ((bs.length + 3) / 4)).map fun m => writeOp (memBase sp + a + 4 * m) (wordOfBytes bs m)

/-- A pseudo-instruction's groups of operations, of which the groups marked true are `cmdw` and followed by the test of STATUS.ERR: if it is 1 the
host stops the expansion (30_encoding.md R117). -/
def guarded : List (Bool × List HostOp) → List HostOp
  | [] => []
  | (tested, ops) :: groups =>
    let rest := guarded groups
    if tested then ops ++ .stopIfErr rest.length :: rest else ops ++ rest

/-- `cmdw MNEMONIC`, as a tested group of `guarded`. -/
def cmdw (i : Instr) : Bool × List HostOp := (true, [issue i, .waitIdle])

/-- One register write, as an untested group of `guarded`. -/
def put (r : Reg) (v : Nat) : Bool × List HostOp := (false, [writeReg r v])

/-- The operations a line of a host program stands for. -/
def expand : Stmt → List HostOp
  | .wr addr v => [writeOp addr v]
  | .rd addr => [readOp addr]
  | .cmd i => [issue i]
  | .srst => [writeReg .ctrl 0x00000001]
  | .wait => [.waitIdle]
  | .cmdw i => [issue i, .waitIdle]
  | .bytes sp a bs => storeBytes sp a bs
  | .compress n => guarded
      [put .inLen n, cmdw .histClear, cmdw .histAccum, cmdw .treeBuild, cmdw .codeGen, put .outBitptr 0, cmdw .treeSer,
       cmdw .payEnc]
  | .decompress nbits rep => guarded
      [put .bsLen nbits, put .bsBitptr 0, put .decRepeat rep, cmdw .treeDes, cmdw .payDec]

/-- The host is given a program, that is, the operations of its lines in order (00_scope.md R13, log 6). -/
def loadProgram (p : List Stmt) (s : State) : State := { s with host := p.flatMap expand }

end Sys2Proof.Machine
end

