-- ==== Sys2Proof/Safety.lean ====
section
/-! DEFINITION. What counts as a safe run, in the terms the statements use: the validity invariants of 10_state.md R50 with the
bookkeeping around them, and the words in which the statements speak of trees, codes and the address map. -/

namespace Sys2Proof.Machine

/-! ### The address map -/

/-- The byte addresses 20_memory.md R73 maps. -/
def Mapped (c : Caps) (n : Nat) : Prop :=
  n < 0x0060 ∨ (0x1000 ≤ n ∧ n < 0x1400) ∨ (0x2000 ≤ n ∧ n < 0x2400) ∨ (0x4000 ≤ n ∧ n < 0x6000) ∨
    (0x8000 ≤ n ∧ n < 0x9FF0) ∨ (0x100000 ≤ n ∧ n < 0x100000 + c.inCap) ∨ (0x200000 ≤ n ∧ n < 0x200000 + c.outCap) ∨
    (0x300000 ≤ n ∧ n < 0x300000 + c.bsCap) ∨ (0x400000 ≤ n ∧ n < 0x400000 + c.decCap)

/-- A request that 20_memory.md R72 does not refuse: 4 bytes, word-aligned, mapped. -/
def Admitted (c : Caps) (r : BusReq) : Prop := r.size = 4 ∧ r.addr.toNat % 4 = 0 ∧ Mapped c r.addr.toNat

/-- The registers a host write takes effect on while a command is pending (44_control.md R239). -/
def writableWhileBusy : Loc → Bool
  | .reg .ctrl | .reg .status | .reg .irqEn | .reg .irqStatus => true
  | _ => false

/-- The registers a read returns the defined value of while a command is pending, as 44_control.md R238 lists them. -/
def definedWhileBusy : Loc → Bool
  | .reg .id | .reg .version | .reg .capIn | .reg .capOut | .reg .capBs | .reg .capDec | .reg .ctrl | .reg .cmd
  | .reg .status | .reg .errCode | .reg .errInfo | .reg .irqEn | .reg .irqStatus
  | .reg .inLen | .reg .bsLen | .reg .decRepeat => true
  | _ => false

/-- The read-only words (10_state.md R22 to R46). -/
def readOnly : Loc → Bool
  | .reg .id | .reg .version | .reg .errCode | .reg .errInfo | .reg .decLen | .reg .root | .reg .nodeCount
  | .reg .symCount | .reg .segPad | .reg .segBits | .reg .capIn | .reg .capOut | .reg .capBs | .reg .capDec => true
  | .codeLen _ | .codeBits _ _ | .node _ _ => true
  | _ => false

/-! ### Trees, paths and weights -/

/-- The number of nodes of a tree. -/
def Tree.size : Tree → Nat
  | .leaf _ _ => 1
  | .node _ l r => 1 + l.size + r.size

/-- A tree without its arena indices: its shape and its leaf symbols. -/
def Tree.erase : Tree → Tree
  | .leaf _ sym => .leaf 0 sym
  | .node _ l r => .node 0 l.erase r.erase

/-- The bit offsets of a tree's tags in its serialised body, in pre-order, the body beginning at offset `o` (41_tree_codec.md R161): an internal
node's tag, then its left subtree, then its right subtree. -/
def Tree.tagOffsets : Tree → Nat → List Nat
  | .leaf _ _, o => [o]
  | .node _ l r, o => o :: (l.tagOffsets (o + 1) ++ r.tagOffsets (o + 1 + l.serBits.length))

/-- The arena index at the end of a path from an arena index: 0 to the left child, 1 to the right child, from internal nodes
only (42_payload_encoder.md R191). -/
def pathEnd (ar : Arena) : Bits → BitVec 9 → Option (BitVec 9)
  | [], i => some i
  | b :: bs, i =>
    match ar.node? i with
    | none => none
    | some nd => if nd.leaf then none else pathEnd ar bs (if b then nd.right else nd.left)

/-- The path `c` from the root leads to a leaf of symbol `sym`. -/
def LeafAt (ar : Arena) (root : BitVec 9) (c : Bits) (sym : Byte) : Prop :=
  ∃ i nd, pathEnd ar c root = some i ∧ ar.node? i = some nd ∧ nd.leaf = true ∧ nd.sym = sym

/-- The path `c` from the root leads to an internal node other than the root. -/
def InsideAt (ar : Arena) (root : BitVec 9) (c : Bits) : Prop :=
  ∃ i nd, pathEnd ar c root = some i ∧ ar.node? i = some nd ∧ nd.leaf = false ∧ i ≠ root

/-- The weight of an arena entry. -/
def weightAt (ar : Arena) (i : Nat) : Nat :=
  match ar[i]? with
  | some nd => nd.weight.toNat
  | none => 0

/-- Entry `i` is in the priority structure when node `k` is made: it is below `k` and no child of an internal node before `k`, the
internal nodes being those from `n` on (40_histogram_builder.md R142). -/
def InQueue (ar : Arena) (n k i : Nat) : Prop :=
  i < k ∧ ∀ j, n ≤ j → j < k → ∀ nd, ar[j]? = some nd → nd.left.toNat ≠ i ∧ nd.right.toNat ≠ i

/-- The order of extraction (40_histogram_builder.md R143): least weight, then least arena index. -/
def RanksBefore (ar : Arena) (i j : Nat) : Prop :=
  weightAt ar i < weightAt ar j ∨ (weightAt ar i = weightAt ar j ∧ i < j)

/-! ### The invariant -/

/-- `t` is the current tree, full and made of exactly the entries NODE[0 .. NODE_COUNT-1] (10_state.md R50.1). -/
def HoldsTree (s : State) (t : Tree) : Prop :=
  currentTree s = some t ∧ t.indices.Perm (List.range s.nodeCount.toNat) ∧ s.symCount.toNat = t.leafCount ∧
    s.status.singleLeaf = t.isLeaf

/-- 10_state.md R50.1. -/
def TreeValidity (s : State) : Prop := s.status.treeValid = true → ∃ t, HoldsTree s t

/-- 10_state.md R50.2. -/
def CodeValidity (s : State) : Prop :=
  s.status.codeValid = true → s.status.treeValid = true ∧ ∃ t, currentTree s = some t ∧ codeTable t = .ok s.lut

/-- 10_state.md R50.3. -/
def NoTreeNoFlags (s : State) : Prop :=
  s.status.treeValid = false → s.status.singleLeaf = false ∧ s.status.codeValid = false

/-- The validity invariants (10_state.md R50). -/
def Validity (s : State) : Prop := TreeValidity s ∧ CodeValidity s ∧ NoTreeNoFlags s

/-- BUSY shows the pending command, which CMD holds (10_state.md R25, R26, R48). -/
def PendingShown (s : State) : Prop :=
  s.status.busy = s.pending.isSome ∧ ∀ w, s.pending = some w → s.cmd = w

/-- DONE and ERR as 10_state.md R26 to R28 say: neither while busy, ERR only with DONE, and no error recorded without ERR. -/
def ErrorShown (s : State) : Prop :=
  (s.status.busy = true → s.status.done = false) ∧ (s.status.err = true → s.status.done = true) ∧
    (s.status.err = false → s.errCode = ⟨0, 0, 0⟩ ∧ s.errInfo = 0)

/-- The capacities are legal and each byte memory has its canonical form (00_scope.md R7; log 5). -/
def MemoriesCanonical (s : State) : Prop :=
  s.caps.Legal ∧ ∀ id, (s.mem id).wf (s.caps.cap id) = true

/-- The last-result registers hold what they may: SEG_PAD 0 to 7 (30_encoding.md R106), DEC_LEN at most DEC_CAP (20_memory.md R86),
NODE_COUNT at most 511 (10_state.md R38), SYM_COUNT at most 256 (10_state.md R39). -/
def ResultsInRange (s : State) : Prop :=
  s.segPad.toNat ≤ 7 ∧ s.decLen.toNat ≤ s.caps.decCap ∧ s.nodeCount.toNat ≤ 511 ∧ s.symCount.toNat ≤ 256

/-- The invariant every step keeps. -/
def Inv (s : State) : Prop :=
  Validity s ∧ PendingShown s ∧ ErrorShown s ∧ MemoriesCanonical s ∧ ResultsInRange s

/-- A step that does not stop. -/
def Goes (r : Result) : Prop := ∃ t, r = Host.Outcome.next t

end Sys2Proof.Machine
end

