-- ==== Sys2Proof/Certificates/Slice0/Obligations.lean ====
section
/-! DEFINITION. The statements about HUFFCORE. Each docstring names the rule of spec/ it formalises. -/

open Sys2Proof Sys2Proof.Machine

/-- The host's write request `r` in the state `s` leaves the state `t` and is answered without error; the rdata of the answer is some word of which
nothing is said (log 10), and the model's draw counter counts it. -/
def WriteLeaves (r : BusReq) (s t : State) : Prop :=
  ∃ v, busAccess r s = .next { t with resp := some ⟨v, false⟩, draws := t.draws + 1 }

/-- The host's read request `r` in the state `s` answers the word `v` without error and changes nothing but the response. -/
def ReadAnswers (r : BusReq) (s : State) (v : Word) : Prop := busAccess r s = .next { s with resp := some ⟨v, false⟩ }

/-! ### Encoding -/

/-- 30_encoding.md R100, R101, R103: no bit of an encoding is dropped. -/
def Obligations.DecodeOfEncode : Prop :=
  ∀ i : Instr, i.wf = true → decode (encode i).1 (encode i).2 = .ok i

/-- The other direction: each accepted word is the encoding of what it decodes to, which is well formed. -/
def Obligations.EncodeOfDecode : Prop :=
  ∀ (p : Port) (w : Word) (i : Instr), decode p w = .ok i → i.wf = true ∧ encode i = (p, w)

/-- Words written out from the opcode map (30_encoding.md R101, R114) and the CTRLW pattern (R103). -/
def Obligations.WordsOfTheOpcodeMap : Prop :=
  decode .cmd 0b00000000000000000000000000000000 = .ok .nop ∧
  decode .cmd 0b00000000000000000000000000000011 = .ok .treeBuild ∧
  decode .cmd 0b00000000000000000000000000000110 = .ok .payEnc ∧
  decode .cmd 0b00000000000000000000000000001000 = .ok .payDec ∧
  decode .ctrl 0b00000000000000000000000000000001 = .ok (.srst 0) ∧
  decode .ctrl 0b10000000000000000000000000000101 = .ok (.srst 0x40000002)

/-- 30_encoding.md R102: exactly the words above 8 are illegal; each is accepted, and performing it, in the core's step and in the machine's, is an
ILLEGAL_CMD error with the whole word as ERR_INFO that changes no other state. -/
def Obligations.IllegalWordsAreReported : Prop :=
  (∀ w : Word, (∃ i, decode .cmd w = .ok i) ↔ w.toNat ≤ 8) ∧
  (∀ (s : State) (r : BusReq), s.status.busy = false → r.write = true → target s.caps r = some (.reg .cmd) →
    WriteLeaves r s (accept r.wdata s)) ∧
  (∀ (s : State) (w : Word), s.pending = some w → 8 < w.toNat →
    coreStep s = .next { s with
      errCode := ⟨opcodeOf s.cmd, 0x00, 0x01⟩
      errInfo := w
      status := { s.status with busy := false, done := true, err := true }
      irqStatus := ⟨true, true⟩
      pending := none }) ∧
  (∀ (s : State) (w : Word), turnOf s = .core → s.pending = some w → 8 < w.toNat →
    step s = .next { passTurn s with
      errCode := ⟨opcodeOf s.cmd, 0x00, 0x01⟩
      errInfo := w
      status := { s.status with busy := false, done := true, err := true }
      irqStatus := ⟨true, true⟩
      pending := none })

/-! ### The step -/

/-- 44_control.md R233: where it is the core's turn, a step performs the pending command: the decoded instruction's exec (for a word that decodes to
none, IllegalWordsAreReported); without a pending command nothing but the turn passes. -/
def Obligations.StepPerformsPendingCommand : Prop :=
  (∀ (s : State) (w : Word) (i : Instr), turnOf s = .core → s.pending = some w → decode .cmd w = .ok i →
    step s = exec i (passTurn s)) ∧
  (∀ s : State, turnOf s = .core → s.pending = none → step s = .next (passTurn s))

/-- 00_scope.md R13, 20_memory.md R79: where it is the host's turn and its next operation is a bus access, a step is that access, whatever the
request; 30_encoding.md R103, 44_control.md R231: a write to CTRL with bit 0 = 1 runs the decoded SRST, busy or idle, and answers, and with
bit 0 = 0 nothing but the answer happens. -/
def Obligations.StepRunsHostAccess : Prop :=
  ∀ (s : State) (r : BusReq) (rest : List HostOp), turnOf s = .host → s.host = .access r :: rest →
    step s = busAccess r { passTurn s with host := rest } ∧
    (r.write = true → r.size = 4 → r.addr = 0x000008 →
      (r.wdata.getLsbD 0 = true → ∀ i, decode .ctrl r.wdata = .ok i →
        ∃ t v, exec i { passTurn s with host := rest } = .next t ∧
          step s = .next { t with resp := some ⟨v, false⟩, draws := t.draws + 1 }) ∧
      (r.wdata.getLsbD 0 = false →
        ∃ v, step s = .next { passTurn s with host := rest, resp := some ⟨v, false⟩, draws := s.draws + 1 }))

/-- 44_control.md R241, 60_exceptions.md R273: with no host operation left and no command pending, a step changes nothing. -/
def Obligations.IdleMachineStaysAsItIs : Prop :=
  ∀ s : State, s.host = [] → s.sched = [] → s.pending = none → step s = .next s

/-- 70_reset_and_hazards.md R303: a pending command is performed, or discarded by a reset, after finitely many steps, whatever the schedule
(log 1: one more step than the schedule is long). The run can only end earlier in a fault, which log 8 confines to unreachable
states. -/
def Obligations.PendingCommandIsPerformed : Prop :=
  ∀ s : State, s.pending.isSome = true → ∃ k ≤ s.sched.length + 1,
    (∃ t, Host.Core.run Sys2Proof.core k s = .next t ∧ t.pending = none) ∨
    (∃ f, Host.Core.run Sys2Proof.core k s = .fault f)

/-! ### Reset -/

/-- The values 70_reset_and_hazards.md R291 tabulates. -/
def registerAfterReset (c : Caps) : Reg → Word
  | .id => 0x48554646
  | .version => 0x00000001
  | .capIn => BitVec.ofNat 32 c.inCap
  | .capOut => BitVec.ofNat 32 c.outCap
  | .capBs => BitVec.ofNat 32 c.bsCap
  | .capDec => BitVec.ofNat 32 c.decCap
  | _ => 0

/-- The offsets 70_reset_and_hazards.md R291 tabulates. -/
def registerOffset : Reg → Nat
  | .id => 0x0000
  | .version => 0x0004
  | .ctrl => 0x0008
  | .cmd => 0x000C
  | .status => 0x0010
  | .errCode => 0x0014
  | .errInfo => 0x0018
  | .irqEn => 0x001C
  | .irqStatus => 0x0020
  | .inLen => 0x0024
  | .outBitptr => 0x0028
  | .bsLen => 0x002C
  | .bsBitptr => 0x0030
  | .decLen => 0x0034
  | .decRepeat => 0x0038
  | .root => 0x003C
  | .nodeCount => 0x0040
  | .symCount => 0x0044
  | .segPad => 0x0048
  | .segBits => 0x004C
  | .capIn => 0x0050
  | .capOut => 0x0054
  | .capBs => 0x0058
  | .capDec => 0x005C

/-- 70_reset_and_hazards.md R291, for every choice of the capacities: what the host reads at each register's offset in the state after reset, and
the interrupt line. -/
def Obligations.RegistersAfterReset : Prop :=
  ∀ c : Caps, irq (State.resetWith c) = false ∧
    ∀ (r : Reg) (q : BusReq), q.write = false → q.size = 4 → q.addr = BitVec.ofNat 24 (registerOffset r) →
      ReadAnswers q (State.resetWith c) (registerAfterReset c r)

/-- 44_control.md R231, 70_reset_and_hazards.md R290, R293: SRST completes in every state, busy or idle, and leaves every register at its
value after reset, no pending command, no event and no interrupt; the capacities and the host's program are what they were. -/
def Obligations.SoftResetLeavesResetRegisters : Prop :=
  ∀ (s : State) (ignored : Nat), ∃ t, exec (.srst ignored) s = .next t ∧
    (∀ r : Reg, regValue t r = registerAfterReset s.caps r) ∧ t.status = Status.reset ∧ t.pending = none ∧
    t.irqStatus = ⟨false, false⟩ ∧ irq t = false ∧ t.caps = s.caps ∧ t.host = s.host ∧ t.sched = s.sched ∧ t.resp = s.resp

/-- 70_reset_and_hazards.md R290: the hardware reset has exactly the effect of the soft reset. -/
def Obligations.HardwareResetActsAsSoftReset : Prop :=
  ∀ (s : State) (rest : List HostOp) (ignored : Nat), s.host = .rstN :: rest →
    hostStep s = exec (.srst ignored) { s with host := rest } ∧
      (turnOf s = .host → step s = exec (.srst ignored) { passTurn s with host := rest })

/-! ### Completion and errors -/

/-- 60_exceptions.md R259 and 44_control.md R230: success completion sets DONE and DONE_EVT, clears BUSY, takes the pending command away and changes
nothing else; NOP, the word 0x00000000, is that and no more, in every state. -/
def Obligations.NopOnlyCompletes : Prop :=
  decode .cmd 0x00000000 = .ok .nop ∧
  (∀ s : State, complete s = { s with
    status := { s.status with busy := false, done := true }
    irqStatus := { s.irqStatus with doneEvt := true }
    pending := none }) ∧
  ∀ s : State, exec .nop s = .next (complete s)

/-- 60_exceptions.md R260: what an error completion writes; everything else is left to the state it is applied to. 60_exceptions.md R251: the number
of each error kind, as tabulated. -/
def Obligations.ErrorCompletionWrites : Prop :=
  (∀ (k : ErrKind) (sub : Byte) (info : Nat) (s : State), fail k sub info s = .next { s with
    errCode := ⟨opcodeOf s.cmd, sub, errNumber k⟩
    errInfo := BitVec.ofNat 32 info
    status := { s.status with busy := false, done := true, err := true }
    irqStatus := ⟨true, true⟩
    pending := none }) ∧
  (∀ (k : ErrKind) (sub : Byte) (info : Nat) (s : State), fail k sub info s = .next (raise k sub info s)) ∧
  errNumber .illegalCmd = 0x01 ∧ errNumber .emptyInput = 0x02 ∧ errNumber .malformedStream = 0x03 ∧
  errNumber .unknownSymbol = 0x04 ∧ errNumber .noTree = 0x05 ∧ errNumber .noCode = 0x06 ∧ errNumber .outOverflow = 0x07 ∧
  errNumber .decOverflow = 0x08 ∧ errNumber .lenRange = 0x09 ∧ errNumber .countOverflow = 0x0A ∧ errNumber .dupSymbol = 0x0B

/-- 44_control.md R238, R239; 10_state.md R23; 70_reset_and_hazards.md R298; 60_exceptions.md R264: whatever a command does, it ends with BUSY 0,
DONE 1 and DONE_EVT 1 and nothing pending, and it writes neither CMD, IRQ_EN, IN_LEN, BS_LEN, DEC_REPEAT, IN, BS, OVR, the capacities nor the
host's fields. -/
def Obligations.CommandsLeaveHostRegisters : Prop :=
  ∀ (i : Instr) (s t : State), i.isCommand = true → exec i s = .next t →
    t.status.busy = false ∧ t.status.done = true ∧ t.irqStatus.doneEvt = true ∧ t.pending = none ∧
    (s.irqStatus.errEvt = true → t.irqStatus.errEvt = true) ∧
    t.caps = s.caps ∧ t.cmd = s.cmd ∧ t.irqEn = s.irqEn ∧ t.inLen = s.inLen ∧ t.bsLen = s.bsLen ∧
    t.decRepeat = s.decRepeat ∧ t.inMem = s.inMem ∧ t.bsMem = s.bsMem ∧ t.status.ovr = s.status.ovr ∧
    t.host = s.host ∧ t.sched = s.sched ∧ t.resp = s.resp

/-- 60_exceptions.md R262 (first lines): a command whose completion records an error leaves OUT and every register but ERRCODE, ERR_INFO,
STATUS and IRQ_STATUS as they were, where STATUS.ERR was 0 as at acceptance. -/
def Obligations.FailedCommandsKeepRegisters : Prop :=
  ∀ (i : Instr) (s t : State), i.isCommand = true → s.status.err = false → exec i s = .next t → t.status.err = true →
    t.caps = s.caps ∧ t.cmd = s.cmd ∧ t.irqEn = s.irqEn ∧ t.inLen = s.inLen ∧ t.outBitptr = s.outBitptr ∧
    t.bsLen = s.bsLen ∧ t.bsBitptr = s.bsBitptr ∧ t.decLen = s.decLen ∧ t.decRepeat = s.decRepeat ∧ t.root = s.root ∧
    t.nodeCount = s.nodeCount ∧ t.symCount = s.symCount ∧ t.segPad = s.segPad ∧ t.segBits = s.segBits ∧
    t.inMem = s.inMem ∧ t.outMem = s.outMem ∧ t.bsMem = s.bsMem

/-! ### The host port -/

/-- 20_memory.md R72, R77; 44_control.md R240; 92_eei_decisions.md D3: a request that is not of 4 bytes, word-aligned and mapped is answered with err 1
and rdata 0, a read and a write alike, busy or idle, and changes nothing else; every other request is answered with err 0, a write to a read-only
word too, which is ignored (while busy it sets OVR as every dropped write does). -/
def Obligations.RefusedAccessesChangeNothing : Prop :=
  ∀ (s : State) (r : BusReq),
    (¬ Admitted s.caps r → busAccess r s = .next { s with resp := some ⟨0, true⟩ }) ∧
    (Admitted s.caps r → ∃ t d, busAccess r s = .next t ∧ t.resp = some ⟨d, false⟩) ∧
    (∀ l, target s.caps r = some l → r.write = true → readOnly l = true →
      WriteLeaves r s { s with status := { s.status with ovr := s.status.ovr || s.status.busy } })

/-- Where the windows of the byte memories begin (20_memory.md R73). -/
def windowBase : MemId → Nat
  | .inp => 0x100000
  | .out => 0x200000
  | .bs => 0x300000
  | .dec => 0x400000

/-- 20_memory.md R73 with 10_state.md R42, R44, R46 and 20_memory.md R76: where each register, window word and byte memory word is mapped. -/
def Obligations.AddressMapPlacesWindows : Prop :=
  ∀ c : Caps, c.Legal →
    (∀ (r : Reg), decodeAddr c (BitVec.ofNat 24 (registerOffset r)) = some (.reg r)) ∧
    (∀ sym : Byte, decodeAddr c (BitVec.ofNat 24 (0x1000 + 4 * sym.toNat)) = some (.hist sym)) ∧
    (∀ sym : Byte, decodeAddr c (BitVec.ofNat 24 (0x2000 + 4 * sym.toNat)) = some (.codeLen sym)) ∧
    (∀ (sym : Byte) (w : Nat), w ≤ 7 →
      decodeAddr c (BitVec.ofNat 24 (0x4000 + 32 * sym.toNat + 4 * w)) = some (.codeBits sym w)) ∧
    (∀ i w : Nat, i ≤ 510 → w ≤ 3 → decodeAddr c (BitVec.ofNat 24 (0x8000 + 16 * i + 4 * w)) = some (.node i w)) ∧
    (∀ (id : MemId) (m : Nat), 4 * m < c.cap id →
      decodeAddr c (BitVec.ofNat 24 (windowBase id + 4 * m)) = some (.mem id (4 * m)))

/-- The word of each register but the four flag registers, field by field: constants, 32-bit registers, and narrower registers with zeros above
them (10_state.md R22 to R25, R28, R31 to R39). -/
def wordOfRegister (s : State) : Reg → Option Word
  | .id => some 0x48554646
  | .version => some 0x00000001
  | .ctrl => some 0x00000000
  | .cmd => some s.cmd
  | .status => none
  | .errCode => none
  | .errInfo => some s.errInfo
  | .irqEn => none
  | .irqStatus => none
  | .inLen => some s.inLen
  | .outBitptr => some s.outBitptr
  | .bsLen => some s.bsLen
  | .bsBitptr => some s.bsBitptr
  | .decLen => some s.decLen
  | .decRepeat => some s.decRepeat
  | .root => some (s.root.setWidth 32)
  | .nodeCount => some (s.nodeCount.setWidth 32)
  | .symCount => some (s.symCount.setWidth 32)
  | .segPad => some (s.segPad.setWidth 32)
  | .segBits => some s.segBits
  | .capIn => some (BitVec.ofNat 32 s.caps.inCap)
  | .capOut => some (BitVec.ofNat 32 s.caps.outCap)
  | .capBs => some (BitVec.ofNat 32 s.caps.bsCap)
  | .capDec => some (BitVec.ofNat 32 s.caps.decCap)

/-- 44_control.md R236, 20_memory.md R80: a read while idle answers the current value and has no other effect. The value of a register is what
RegisterValuesShowFields says; of a window word, what HistWindowReadsAndWrites, LutWindowsShowCodes, NodeWindowShowsEntries and MemoryWindowLanes say. -/
def Obligations.IdleReadAnswersValue : Prop :=
  ∀ (s : State) (r : BusReq) (l : Loc), s.status.busy = false → r.write = false → target s.caps r = some l →
    ReadAnswers r s (peek s l) ∧ ∀ rg v, l = .reg rg → wordOfRegister s rg = some v → ReadAnswers r s v

/-- 44_control.md R238: a read while a command is pending answers the current value of the 16 listed registers; of every other word it answers
some value, of which nothing is said, and the read changes no state of the spec's. -/
def Obligations.BusyReadAnswersListedRegisters : Prop :=
  ∀ (s : State) (r : BusReq) (l : Loc), s.status.busy = true → r.write = false → target s.caps r = some l →
    (definedWhileBusy l = true → ReadAnswers r s (peek s l) ∧ ∀ rg v, l = .reg rg → wordOfRegister s rg = some v → ReadAnswers r s v) ∧
    (definedWhileBusy l = false → ∃ v,
      busAccess r s = .next { s with resp := some ⟨v, false⟩, draws := s.draws + 1 })

/-- 44_control.md R239, R234: while a command is pending, a write to any mapped word but CTRL, STATUS, IRQ_EN and IRQ_STATUS is dropped, and
OVR is set. -/
def Obligations.BusyWritesAreDropped : Prop :=
  ∀ (s : State) (r : BusReq) (l : Loc), s.status.busy = true → r.write = true → target s.caps r = some l →
    writableWhileBusy l = false →
    WriteLeaves r s { s with status := { s.status with ovr := true } }

/-- 44_control.md R235: writes to STATUS, IRQ_STATUS and IRQ_EN take effect busy or idle, and a write to CTRL acts as R231. -/
def Obligations.ControlWritesActBusyOrIdle : Prop :=
  ∀ (s : State) (r : BusReq), r.write = true →
    (target s.caps r = some (.reg .status) →
      WriteLeaves r s { s with status := { s.status with ovr := s.status.ovr && !r.wdata.getLsbD 8 } }) ∧
    (target s.caps r = some (.reg .irqStatus) →
      WriteLeaves r s { s with
        irqStatus := ⟨s.irqStatus.doneEvt && !r.wdata.getLsbD 0, s.irqStatus.errEvt && !r.wdata.getLsbD 1⟩ }) ∧
    (target s.caps r = some (.reg .irqEn) →
      WriteLeaves r s { s with irqEn := ⟨r.wdata.getLsbD 0, r.wdata.getLsbD 1⟩ }) ∧
    (target s.caps r = some (.reg .ctrl) → r.wdata.getLsbD 0 = true →
      ∃ t, exec (.srst (r.wdata.toNat / 2)) s = .next t ∧ WriteLeaves r s t) ∧
    (target s.caps r = some (.reg .ctrl) → r.wdata.getLsbD 0 = false → WriteLeaves r s s)

/-- 44_control.md R237, 10_state.md R22: a write while idle sets the read-write register to the written word and nothing else; a read-only
word ignores it. -/
def Obligations.IdleWritesSetRegisters : Prop :=
  ∀ (s : State) (r : BusReq) (l : Loc), s.status.busy = false → r.write = true → target s.caps r = some l →
    (l = .reg .inLen → WriteLeaves r s { s with inLen := r.wdata }) ∧
    (l = .reg .outBitptr → WriteLeaves r s { s with outBitptr := r.wdata }) ∧
    (l = .reg .bsLen → WriteLeaves r s { s with bsLen := r.wdata }) ∧
    (l = .reg .bsBitptr → WriteLeaves r s { s with bsBitptr := r.wdata }) ∧
    (l = .reg .decRepeat → WriteLeaves r s { s with decRepeat := r.wdata }) ∧
    (readOnly l = true → WriteLeaves r s s)

/-- 44_control.md R232: acceptance stores the word, starts the command and clears DONE, ERR, ERRCODE and ERR_INFO; every other register keeps
its value. -/
def Obligations.AcceptanceStartsCommand : Prop :=
  ∀ (s : State) (r : BusReq), s.status.busy = false → r.write = true → target s.caps r = some (.reg .cmd) →
    WriteLeaves r s { s with
      cmd := r.wdata
      status := { s.status with busy := true, done := false, err := false }
      errCode := ⟨0, 0, 0⟩
      errInfo := 0
      pending := some r.wdata }

/-- 20_memory.md R76: the word at offset a holds byte a + k in bits [8k+7 : 8k], and stream bit k at bit 8 ((k div 8) mod 4) + 7 - (k mod 8); while
idle a host read answers that word, and a host write sets the four bytes so and no other byte of any memory, and touches nothing else. -/
def Obligations.MemoryWindowLanes : Prop :=
  ∀ (s : State) (r : BusReq) (id : MemId) (a : Nat), (s.mem id).wf (s.caps.cap id) = true → s.status.busy = false →
    target s.caps r = some (.mem id a) →
    (∀ k < 4, (peek s (.mem id a)).extractLsb' (8 * k) 8 = s.byteAt id (a + k)) ∧
    (∀ k, 8 * a ≤ k → k < 8 * a + 32 → (peek s (.mem id a)).getLsbD (8 * (k / 8 % 4) + 7 - k % 8) = s.bitAt id k) ∧
    (r.write = false → ReadAnswers r s (peek s (.mem id a))) ∧
    (r.write = true → ∃ m, WriteLeaves r s (s.setMem id m) ∧
      (∀ k < 4, (s.setMem id m).byteAt id (a + k) = r.wdata.extractLsb' (8 * k) 8) ∧
      (∀ b, (b < a ∨ a + 4 ≤ b) → (s.setMem id m).byteAt id b = s.byteAt id b))

/-- 10_state.md R44: HIST[sym] is the word at 0x1000 + 4 sym; while idle a host read answers the counter, and a host write sets it to the full
word, changes no other counter, and does not change TREE_VALID, CODE_VALID or anything else. -/
def Obligations.HistWindowReadsAndWrites : Prop :=
  ∀ (s : State) (r : BusReq) (sym : Byte), s.status.busy = false → r.size = 4 →
    r.addr = BitVec.ofNat 24 (0x1000 + 4 * sym.toNat) →
    (r.write = false → ReadAnswers r s (s.hist.count sym)) ∧
    (r.write = true → ∃ h : Hist, WriteLeaves r s { s with hist := h } ∧
      h.count sym = r.wdata ∧ ∀ b, b ≠ sym → h.count b = s.hist.count b)

/-- 10_state.md R42: the four words of NODE[i] at 0x8000 + 16 i, field by field; host writes to them are ignored. -/
def Obligations.NodeWindowShowsEntries : Prop :=
  ∀ (s : State) (r : BusReq) (i w : Nat) (nd : Node), s.status.busy = false → s.arena[i]? = some nd → w ≤ 3 → r.size = 4 →
    r.addr = BitVec.ofNat 24 (0x8000 + 16 * i + 4 * w) →
    (r.write = true → WriteLeaves r s s) ∧
    (r.write = false → ∃ v, ReadAnswers r s v ∧
      (w = 0 → v.extractLsb' 0 1 = BitVec.ofBool nd.leaf ∧ v.extractLsb' 1 7 = 0 ∧ v.extractLsb' 8 8 = nd.sym ∧
        v.extractLsb' 16 16 = 0) ∧
      (w = 1 → v.extractLsb' 0 9 = nd.left ∧ v.extractLsb' 9 7 = 0 ∧ v.extractLsb' 16 9 = nd.right ∧ v.extractLsb' 25 7 = 0) ∧
      (w = 2 → v = nd.weight.extractLsb' 0 32) ∧
      (w = 3 → v.extractLsb' 0 8 = nd.weight.extractLsb' 32 8 ∧ v.extractLsb' 8 24 = 0))

/-- 10_state.md R46: the CODE_LEN word of a symbol at 0x2000 + 4 sym and the CODE_BITS words at 0x4000 + 32 sym + 4 w, read only; code bit 0 is bit
31 of word 0. -/
def Obligations.LutWindowsShowCodes : Prop :=
  ∀ (s : State) (r : BusReq) (sym : Byte), s.status.busy = false → r.size = 4 →
    (r.addr = BitVec.ofNat 24 (0x2000 + 4 * sym.toNat) →
      (r.write = true → WriteLeaves r s s) ∧
      (r.write = false → ∃ v, ReadAnswers r s v ∧
        v.extractLsb' 0 8 = (s.lut.entry sym).len ∧ v.extractLsb' 8 23 = 0 ∧ v.getLsbD 31 = (s.lut.entry sym).present)) ∧
    (∀ w ≤ 7, r.addr = BitVec.ofNat 24 (0x4000 + 32 * sym.toNat + 4 * w) →
      (r.write = true → WriteLeaves r s s) ∧
      (r.write = false → ∃ v, ReadAnswers r s v ∧
        ∀ m ≤ 31, v.getLsbD (31 - m) = (s.lut.entry sym).cbits.getMsbD (32 * w + m)))

/-- 10_state.md R22 to R39: the value of every register. Of the flag registers (R26, R27, R29, R30) every bit, the reserved ones 0; of the others the
word of their field, zeros above a narrower field. -/
def Obligations.RegisterValuesShowFields : Prop :=
  ∀ s : State,
    (∀ r, peek s (.reg r) = regValue s r) ∧
    (∀ r v, wordOfRegister s r = some v → regValue s r = v) ∧
    (∀ k, (regValue s .status).getLsbD k =
      if k = 0 then s.status.busy else if k = 1 then s.status.done else if k = 2 then s.status.err
      else if k = 3 then s.status.treeValid else if k = 4 then s.status.codeValid else if k = 5 then s.status.singleLeaf
      else if k = 8 then s.status.ovr else false) ∧
    ((regValue s .errCode).extractLsb' 0 8 = s.errCode.code ∧ (regValue s .errCode).extractLsb' 8 8 = s.errCode.sub ∧
      (regValue s .errCode).extractLsb' 16 8 = s.errCode.op ∧ (regValue s .errCode).extractLsb' 24 8 = 0) ∧
    (∀ k, (regValue s .irqEn).getLsbD k = if k = 0 then s.irqEn.doneIe else if k = 1 then s.irqEn.errIe else false) ∧
    (∀ k, (regValue s .irqStatus).getLsbD k =
      if k = 0 then s.irqStatus.doneEvt else if k = 1 then s.irqStatus.errEvt else false)

/-- 44_control.md R237 (last sentence), 10_state.md R50: no host write but a soft reset changes TREE_VALID, CODE_VALID, SINGLE_LEAF, ROOT,
NODE_COUNT, the arena or the LUT. -/
def Obligations.HostWritesKeepTreeAndTable : Prop :=
  ∀ (s t : State) (r : BusReq), r.write = true → busAccess r s = .next t →
    ¬ (target s.caps r = some (.reg .ctrl) ∧ r.wdata.getLsbD 0 = true) →
    t.status.treeValid = s.status.treeValid ∧ t.status.codeValid = s.status.codeValid ∧
    t.status.singleLeaf = s.status.singleLeaf ∧ t.root = s.root ∧ t.nodeCount = s.nodeCount ∧ t.symCount = s.symCount ∧
    t.arena = s.arena ∧ t.lut = s.lut

/-- 60_exceptions.md R263, in the bits of the registers (10_state.md R29, R30). -/
def Obligations.InterruptLine : Prop :=
  ∀ s : State, irq s =
    (((regValue s .irqStatus).getLsbD 0 && (regValue s .irqEn).getLsbD 0) ||
      ((regValue s .irqStatus).getLsbD 1 && (regValue s .irqEn).getLsbD 1))

/-! ### Host programs -/

/-- 30_encoding.md R115 to R118: the operations of each line of a host program. `cmdw` writes the command's word to CMD and waits; `bytes` writes words
of four bytes, the lowest index in the lowest lane, missing bytes 0x00; COMPRESS and DECOMPRESS are the listed register writes and `cmdw` lines. What
the steps of `wait` and of the test after it do: a wait reads STATUS and is performed again while BUSY reads 1, and the test reads STATUS and, where
ERR reads 1, leaves out all that is left of its line, and nothing else (log 12). -/
def Obligations.HostPseudoInstructions : Prop :=
  (∀ addr v : Nat, expand (.wr addr v) = [.access ⟨BitVec.ofNat 24 addr, true, BitVec.ofNat 32 v, 4⟩]) ∧
  (∀ addr : Nat, ∃ v, expand (.rd addr) = [.access ⟨BitVec.ofNat 24 addr, false, v, 4⟩]) ∧
  (∀ i : Instr, i.isCommand = true → expand (.cmd i) = [.access ⟨0x00000C, true, (encode i).2, 4⟩]) ∧
  expand .srst = [.access ⟨0x000008, true, 0x00000001, 4⟩] ∧ expand .wait = [.waitIdle] ∧
  (∀ i : Instr, i.isCommand = true → expand (.cmdw i) = [.access ⟨0x00000C, true, (encode i).2, 4⟩, .waitIdle]) ∧
  (∀ (sp : MemId) (a : Nat) (bs : List Byte), (expand (.bytes sp a bs)).length = (bs.length + 3) / 4 ∧
    ∀ m < (bs.length + 3) / 4, (expand (.bytes sp a bs))[m]? = some (.access ⟨BitVec.ofNat 24 (windowBase sp + a + 4 * m), true,
      bs.getD (4 * m + 3) 0 ++ bs.getD (4 * m + 2) 0 ++ bs.getD (4 * m + 1) 0 ++ bs.getD (4 * m) 0, 4⟩)) ∧
  (∀ n : Nat, expand (.compress n) =
    [.access ⟨0x000024, true, BitVec.ofNat 32 n, 4⟩,
     .access ⟨0x00000C, true, 0x00000001, 4⟩, .waitIdle, .stopIfErr 16,
     .access ⟨0x00000C, true, 0x00000002, 4⟩, .waitIdle, .stopIfErr 13,
     .access ⟨0x00000C, true, 0x00000003, 4⟩, .waitIdle, .stopIfErr 10,
     .access ⟨0x00000C, true, 0x00000004, 4⟩, .waitIdle, .stopIfErr 7,
     .access ⟨0x000028, true, 0x00000000, 4⟩,
     .access ⟨0x00000C, true, 0x00000005, 4⟩, .waitIdle, .stopIfErr 3,
     .access ⟨0x00000C, true, 0x00000006, 4⟩, .waitIdle, .stopIfErr 0]) ∧
  (∀ nbits rep : Nat, expand (.decompress nbits rep) =
    [.access ⟨0x00002C, true, BitVec.ofNat 32 nbits, 4⟩, .access ⟨0x000030, true, 0x00000000, 4⟩,
     .access ⟨0x000038, true, BitVec.ofNat 32 rep, 4⟩,
     .access ⟨0x00000C, true, 0x00000007, 4⟩, .waitIdle, .stopIfErr 3,
     .access ⟨0x00000C, true, 0x00000008, 4⟩, .waitIdle, .stopIfErr 0]) ∧
  (∀ (s : State) (rest : List HostOp), turnOf s = .host → s.host = .waitIdle :: rest →
    (s.status.busy = true → step s = .next { passTurn s with resp := some ⟨regValue s .status, false⟩ }) ∧
    (s.status.busy = false → step s = .next { passTurn s with host := rest, resp := some ⟨regValue s .status, false⟩ })) ∧
  (∀ (s : State) (n : Nat) (rest : List HostOp), turnOf s = .host → s.host = .stopIfErr n :: rest →
    (s.status.err = true → step s = .next { passTurn s with host := rest.drop n, resp := some ⟨regValue s .status, false⟩ }) ∧
    (s.status.err = false → step s = .next { passTurn s with host := rest, resp := some ⟨regValue s .status, false⟩ }))

/-! ### Histogram -/

/-- 40_histogram_builder.md R140: HIST_CLEAR, the word 0x00000001, completes in every state with every counter 0, and changes nothing else but by
completing. -/
def Obligations.HistClearZeroes : Prop :=
  decode .cmd 0x00000001 = .ok .histClear ∧
  ∀ s : State, ∃ t, exec .histClear s = .next t ∧ t = complete { s with hist := t.hist } ∧ ∀ b, t.hist.count b = 0

/-- 40_histogram_builder.md R141: with IN_LEN within IN_CAP and no counter running over, HIST_ACCUM completes and adds to each counter the
occurrences of its symbol in IN[0 .. IN_LEN-1], and changes nothing else but by completing. -/
def Obligations.HistAccumCounts : Prop :=
  ∀ s : State, s.inLen.toNat ≤ s.caps.inCap →
    (∀ b : Byte, (s.hist.count b).toNat + (inputBytes s).count b < 2 ^ 32) →
    ∃ t, exec .histAccum s = .next t ∧ t = complete { s with hist := t.hist } ∧
      ∀ b : Byte, (t.hist.count b).toNat = (s.hist.count b).toNat + (inputBytes s).count b

/-- 40_histogram_builder.md R141, 60_exceptions.md R262: LEN_RANGE before any count changes; COUNT_OVERFLOW at the first input index whose
counter is already 2^32 - 1, after which nothing is said of HIST. -/
def Obligations.HistAccumErrors : Prop :=
  ∀ s : State,
    (s.caps.inCap < s.inLen.toNat → exec .histAccum s = .next (raise .lenRange 0x01 s.inLen.toNat s)) ∧
    (s.inLen.toNat ≤ s.caps.inCap → ∀ i (h : i < (inputBytes s).length),
      (s.hist.count (inputBytes s)[i]).toNat + ((inputBytes s).take i).count (inputBytes s)[i] = 2 ^ 32 - 1 →
      (∀ j (hj : j < i), (s.hist.count (inputBytes s)[j]).toNat + ((inputBytes s).take j).count (inputBytes s)[j]
        < 2 ^ 32 - 1) →
      ∃ t, exec .histAccum s = .next t ∧
        t = raise .countOverflow (inputBytes s)[i] i { s with hist := t.hist, draws := s.draws + 1 })

/-! ### Tree builder -/

/-- 60_exceptions.md R252, R262: TREE_BUILD over an all-zero histogram is EMPTY_INPUT, SUB 0, ERR_INFO 0, and changes nothing but the
error registers, flags and events of an error completion. -/
def Obligations.TreeBuildOfNothingIsEmptyInput : Prop :=
  ∀ s : State, (∀ b : Byte, s.hist.count b = 0) → exec .treeBuild s = .next (raise .emptyInput 0x00 0 s)

/-- 40_histogram_builder.md R142, R144, R145 (registers and leaves): with n ≥ 1 nonzero counters TREE_BUILD completes; the leaves stand at
0 .. n-1 in ascending symbol order with their counts, entries from NODE_COUNT on keep their contents, and ROOT, NODE_COUNT, SYM_COUNT and
the flags are as the rules say; nothing else changes but by completing. -/
def Obligations.TreeBuildLeavesAndRegisters : Prop :=
  ∀ s : State, ∀ syms : List Byte, syms ≠ [] → syms.Pairwise (fun a b => a.toNat < b.toNat) →
    (∀ b : Byte, b ∈ syms ↔ s.hist.count b ≠ 0) →
    ∃ t, exec .treeBuild s = .next t ∧
      t = complete { s with
        arena := t.arena
        root := BitVec.ofNat 9 (2 * syms.length - 2)
        nodeCount := BitVec.ofNat 10 (2 * syms.length - 1)
        symCount := BitVec.ofNat 9 syms.length
        status := { s.status with treeValid := true, codeValid := false, singleLeaf := decide (syms.length = 1) } } ∧
      (∀ j (h : j < syms.length), t.arena[j]? =
        some ⟨true, syms[j], 0, 0, BitVec.ofNat 40 (s.hist.count syms[j]).toNat⟩) ∧
      (∀ j, 2 * syms.length - 1 ≤ j → t.arena[j]? = s.arena[j]?)

/-- 40_histogram_builder.md R143 (with R142): with n nonzero counters the leaves are 0 .. n-1 in ascending symbol order, and each internal node
n .. 2n-2 of the built tree takes as LEFT the entry of least (weight, index) of those still in the priority structure, as RIGHT the next, and has
the sum of their weights as its weight. -/
def Obligations.TreeBuildMergesTheTwoLeast : Prop :=
  ∀ (s : State) (syms : List Byte) (n : Nat), syms.Pairwise (fun a b => a.toNat < b.toNat) →
    (∀ b : Byte, b ∈ syms ↔ s.hist.count b ≠ 0) → n = syms.length → 1 ≤ n →
    ∃ t, exec .treeBuild s = .next t ∧
      (∀ j (h : j < syms.length), ∃ nd, t.arena[j]? = some nd ∧ nd.leaf = true ∧ nd.sym = syms[j] ∧
        nd.weight.toNat = (s.hist.count syms[j]).toNat) ∧
      ∀ k, n ≤ k → k < 2 * n - 1 →
        ∃ nd, t.arena[k]? = some nd ∧ nd.leaf = false ∧ nd.sym = 0 ∧
          InQueue t.arena n k nd.left.toNat ∧ InQueue t.arena n k nd.right.toNat ∧
          RanksBefore t.arena nd.left.toNat nd.right.toNat ∧
          (∀ i, InQueue t.arena n k i → i ≠ nd.left.toNat → i ≠ nd.right.toNat → RanksBefore t.arena nd.right.toNat i) ∧
          nd.weight.toNat = weightAt t.arena nd.left.toNat + weightAt t.arena nd.right.toNat

/-- 40_histogram_builder.md R145, R146: a built tree is a full binary tree of exactly the entries 0 .. NODE_COUNT-1, its leaf symbols are the
symbols of the nonzero counters, each once, and the root's weight is the sum of all counters. -/
def Obligations.TreeBuildMakesFullTree : Prop :=
  ∀ s : State, (∃ b : Byte, s.hist.count b ≠ 0) →
    ∃ t tr, exec .treeBuild s = .next t ∧ HoldsTree t tr ∧
      ((tr.leafCodes []).map LeafCode.sym).Perm (presentSymbols s.hist) ∧
      weightAt t.arena t.root.toNat = ((List.range 256).map fun b => (s.hist.count (BitVec.ofNat 8 b)).toNat).sum

/-! ### Encoder -/

/-- 42_payload_encoder.md R190, R191; 10_state.md R45: with a valid tree of distinct leaf symbols CODE_GEN completes; the LUT entry of a leaf's
symbol is present with the path to the leaf as its code, zero beyond LEN, every other entry is absent; nothing else changes but
CODE_VALID and by completing. -/
def Obligations.CodeGenWritesPaths : Prop :=
  ∀ (s : State) (tr : Tree), s.status.treeValid = true → HoldsTree s tr → ((tr.leafCodes []).map LeafCode.sym).Nodup →
    ∃ t, exec .codeGen s = .next t ∧
      t = complete { s with lut := t.lut, status := { s.status with codeValid := true } } ∧
      (∀ sym c, LeafAt s.arena s.root c sym →
        (t.lut.entry sym).present = true ∧ (t.lut.entry sym).len.toNat = c.length ∧ lutBits (t.lut.entry sym) = c ∧
        ∀ j, c.length ≤ j → (t.lut.entry sym).cbits.getMsbD j = false) ∧
      (∀ sym, (¬ ∃ c, LeafAt s.arena s.root c sym) → t.lut.entry sym = ⟨false, 0, 0⟩)

/-- 42_payload_encoder.md R190, R192; 60_exceptions.md R262: NO_TREE changes nothing; a repeated leaf symbol is DUP_SYMBOL at its second leaf in
pre-order, which clears CODE_VALID and after which nothing is said of the LUT. -/
def Obligations.CodeGenErrors : Prop :=
  ∀ s : State,
    (s.status.treeValid = false → exec .codeGen s = .next (raise .noTree 0x00 0 s)) ∧
    (s.status.treeValid = true → ∀ (tr : Tree) (before after : List LeafCode) (c : LeafCode), currentTree s = some tr →
      tr.leafCodes [] = before ++ c :: after → (before.map LeafCode.sym).Nodup → c.sym ∈ before.map LeafCode.sym →
      ∃ t, exec .codeGen s = .next t ∧
        t = raise .dupSymbol c.sym c.idx
          { s with lut := t.lut, draws := s.draws + 1, status := { s.status with codeValid := false } })

/-- 30_encoding.md R110, 40_histogram_builder.md R146: after a successful CODE_GEN no symbol's code is a first part of another symbol's code. -/
def Obligations.CodesArePrefixFree : Prop :=
  ∀ (s t : State) (tr : Tree), s.status.treeValid = true → HoldsTree s tr → exec .codeGen s = .next t →
    t.status.codeValid = true → ∀ a b : Byte, a ≠ b → (t.lut.entry a).present = true → (t.lut.entry b).present = true →
      ¬ lutBits (t.lut.entry a) <+: lutBits (t.lut.entry b)

/-- 42_payload_encoder.md R195, 30_encoding.md R106, R111: with CODE_VALID, IN_LEN within IN_CAP, every input symbol present and room in OUT,
PAY_ENC completes; OUT holds pad count, the codes of the input in order and the zero padding at the old OUT_BITPTR, every other bit of OUT is as
before, and OUT_BITPTR, SEG_PAD and SEG_BITS are as the rule says; nothing else changes but by completing. -/
def Obligations.PayEncPacksCodes : Prop :=
  ∀ (s : State) (body : Bits) (p : Nat), s.caps.Legal → s.outMem.wf s.caps.outCap = true →
    s.inLen.toNat ≤ s.caps.inCap → s.status.codeValid = true →
    (∀ b ∈ inputBytes s, (s.lut.entry b).present = true) →
    body = (inputBytes s).flatMap (fun b => lutBits (s.lut.entry b)) → p < 8 → (body.length + p) % 8 = 0 →
    s.outBitptr.toNat + (8 + body.length + p) ≤ 8 * s.caps.outCap →
    ∃ t, exec .payEnc s = .next t ∧
      t = complete { s with
        outMem := t.outMem
        outBitptr := BitVec.ofNat 32 (s.outBitptr.toNat + (8 + body.length + p))
        segPad := BitVec.ofNat 8 p
        segBits := BitVec.ofNat 32 (8 + body.length + p) } ∧
      t.outMem.bits .out s.outBitptr.toNat (8 + body.length + p) = bitsN 8 p ++ body ++ zeros p ∧
      ∀ k, (k < s.outBitptr.toNat ∨ s.outBitptr.toNat + (8 + body.length + p) ≤ k) → t.bitAt .out k = s.bitAt .out k

/-- 42_payload_encoder.md R195, 60_exceptions.md R254, R257: the errors of PAY_ENC in their order, each leaving everything but the error
completion as it was: LEN_RANGE, NO_CODE, UNKNOWN_SYMBOL at the lowest input index without a code, OUT_OVERFLOW with the segment length. -/
def Obligations.PayEncErrors : Prop :=
  ∀ s : State,
    (s.caps.inCap < s.inLen.toNat → exec .payEnc s = .next (raise .lenRange 0x01 s.inLen.toNat s)) ∧
    (s.inLen.toNat ≤ s.caps.inCap → s.status.codeValid = false → exec .payEnc s = .next (raise .noCode 0x00 0 s)) ∧
    (s.inLen.toNat ≤ s.caps.inCap → s.status.codeValid = true → ∀ i (h : i < (inputBytes s).length),
      (s.lut.entry (inputBytes s)[i]).present = false →
      (∀ j (hj : j < i), (s.lut.entry (inputBytes s)[j]).present = true) →
      exec .payEnc s = .next (raise .unknownSymbol (inputBytes s)[i] i s)) ∧
    (s.inLen.toNat ≤ s.caps.inCap → s.status.codeValid = true → (∀ b ∈ inputBytes s, (s.lut.entry b).present = true) →
      ∀ (m p : Nat), m = ((inputBytes s).map fun b => (s.lut.entry b).len.toNat).sum → p < 8 → (m + p) % 8 = 0 →
      8 * s.caps.outCap < s.outBitptr.toNat + (8 + m + p) →
      exec .payEnc s = .next (raise .outOverflow 0x00 (8 + m + p) s))

/-- 42_payload_encoder.md R196: where every input symbol has the empty code, the payload segment is the 8-bit 0x00 whatever IN_LEN is. -/
def Obligations.SingleLeafPayloadIsZeroByte : Prop :=
  ∀ s : State, s.caps.Legal → s.outMem.wf s.caps.outCap = true → s.inLen.toNat ≤ s.caps.inCap → s.status.codeValid = true →
    (∀ b ∈ inputBytes s, (s.lut.entry b).present = true ∧ (s.lut.entry b).len = 0) →
    s.outBitptr.toNat + 8 ≤ 8 * s.caps.outCap →
    ∃ t, exec .payEnc s = .next t ∧ t.status.err = s.status.err ∧ t.segBits = 8 ∧ t.segPad = 0 ∧
      t.outBitptr.toNat = s.outBitptr.toNat + 8 ∧ t.outMem.bits .out s.outBitptr.toNat 8 = zeros 8

/-! ### Tree serializer and deserializer -/

/-- 30_encoding.md R108: a tree of n leaves has n - 1 internal nodes, its body has 10 n - 1 bits, and its segment 8 + T + (8 - T mod 8) mod 8. -/
def Obligations.TreeBodyLength : Prop :=
  ∀ t : Tree, t.size = t.leafCount + (t.leafCount - 1) ∧ 1 ≤ t.leafCount ∧ t.serBits.length = 10 * t.leafCount - 1 ∧
    (frameSegment t.serBits).length = 8 + (10 * t.leafCount - 1) + (8 - (10 * t.leafCount - 1) % 8) % 8

/-- 41_tree_codec.md R160, R161; 30_encoding.md R106: with a valid tree and room in OUT, TREE_SER completes; OUT holds pad count, the pre-order body
and the zero padding at the old OUT_BITPTR, every other bit of OUT is as before (20_memory.md R85), and OUT_BITPTR, SEG_PAD and SEG_BITS are as
the rule says; nothing else changes but by completing. -/
def Obligations.TreeSerWritesSegment : Prop :=
  ∀ (s : State) (tr : Tree) (p : Nat), s.caps.Legal → s.outMem.wf s.caps.outCap = true → s.status.treeValid = true →
    currentTree s = some tr → p < 8 → (tr.serBits.length + p) % 8 = 0 →
    s.outBitptr.toNat + (8 + tr.serBits.length + p) ≤ 8 * s.caps.outCap →
    ∃ t, exec .treeSer s = .next t ∧
      t = complete { s with
        outMem := t.outMem
        outBitptr := BitVec.ofNat 32 (s.outBitptr.toNat + (8 + tr.serBits.length + p))
        segPad := BitVec.ofNat 8 p
        segBits := BitVec.ofNat 32 (8 + tr.serBits.length + p) } ∧
      t.outMem.bits .out s.outBitptr.toNat (8 + tr.serBits.length + p) = bitsN 8 p ++ tr.serBits ++ zeros p ∧
      ∀ k, (k < s.outBitptr.toNat ∨ s.outBitptr.toNat + (8 + tr.serBits.length + p) ≤ k) →
        t.bitAt .out k = s.bitAt .out k

/-- 41_tree_codec.md R160, 60_exceptions.md R262: NO_TREE and OUT_OVERFLOW (with the segment length) leave everything but the error completion as
it was. -/
def Obligations.TreeSerErrors : Prop :=
  ∀ s : State,
    (s.status.treeValid = false → exec .treeSer s = .next (raise .noTree 0x00 0 s)) ∧
    (s.status.treeValid = true → ∀ (tr : Tree) (p : Nat), currentTree s = some tr → p < 8 →
      (tr.serBits.length + p) % 8 = 0 → 8 * s.caps.outCap < s.outBitptr.toNat + (8 + tr.serBits.length + p) →
      exec .treeSer s = .next (raise .outOverflow 0x00 (8 + tr.serBits.length + p) s))

/-- The state BS presents to TREE_DES: at BS_BITPTR a segment of the tree `tr` with pad count `p` and any padding bits, within BS_LEN. -/
def HoldsTreeSegment (s : State) (tr : Tree) (p : Nat) (padding : Bits) : Prop :=
  s.bsLen.toNat ≤ 8 * s.caps.bsCap ∧ p < 8 ∧ (tr.serBits.length + p) % 8 = 0 ∧ padding.length = p ∧
    s.bsBitptr.toNat + (8 + tr.serBits.length + p) ≤ s.bsLen.toNat ∧
    s.bsMem.bits .bs s.bsBitptr.toNat (8 + tr.serBits.length + p) = bitsN 8 p ++ tr.serBits ++ padding

/-- 41_tree_codec.md R170 to R173: TREE_DES completes on a segment of any tree of at most 511 nodes, whatever its padding bits and its symbols;
the arena then holds a tree of the same shape and symbols in pre-order numbering with all weights 0, entries from NODE_COUNT on keep their contents,
and BS_BITPTR, SEG_PAD, SEG_BITS, ROOT, NODE_COUNT, SYM_COUNT and the flags are as the rules say; nothing else changes but by completing. -/
def Obligations.TreeDesRebuildsTree : Prop :=
  ∀ (s : State) (tr : Tree) (p : Nat) (padding : Bits), s.caps.Legal → tr.size ≤ 511 → HoldsTreeSegment s tr p padding →
    ∃ t tr', exec .treeDes s = .next t ∧
      t = complete { s with
        arena := t.arena
        root := 0
        nodeCount := BitVec.ofNat 10 tr.size
        symCount := BitVec.ofNat 9 tr.leafCount
        bsBitptr := BitVec.ofNat 32 (s.bsBitptr.toNat + (8 + tr.serBits.length + p))
        segPad := BitVec.ofNat 8 p
        segBits := BitVec.ofNat 32 (8 + tr.serBits.length + p)
        status := { s.status with treeValid := true, codeValid := false, singleLeaf := tr.isLeaf } } ∧
      currentTree t = some tr' ∧ tr'.erase = tr.erase ∧ tr'.indices = List.range tr.size ∧
      (∀ j, j < tr.size → weightAt t.arena j = 0) ∧ (∀ j, tr.size ≤ j → t.arena[j]? = s.arena[j]?)

/-- 60_exceptions.md R262, 41_tree_codec.md R172: TREE_DES never stops; it either succeeds or raises LEN_RANGE or MALFORMED_STREAM with
TREE_VALID, CODE_VALID and SINGLE_LEAF 0, nothing said of the arena, and everything else as it was. -/
def Obligations.TreeDesFailureDropsTree : Prop :=
  ∀ s : State, ∃ t, exec .treeDes s = .next t ∧
    ((t.status.treeValid = true ∧ t.status.codeValid = false ∧ t.status.err = s.status.err) ∨
      ∃ k sub info, (k = .lenRange ∨ k = .malformedStream) ∧ t = raise k sub info { s with
        arena := t.arena
        draws := s.draws + 1
        status := { s.status with treeValid := false, codeValid := false, singleLeaf := false } })

/-- 60_exceptions.md R253, R257 (header of a tree segment): LEN_RANGE, TRUNC_PAD_FIELD and PAD_RANGE with the values ERRCODE and ERR_INFO get;
in each the tree flags are cleared and nothing is said of the arena. -/
def Obligations.TreeDesHeaderErrors : Prop :=
  ∀ s : State, ∃ t, exec .treeDes s = .next t ∧
    (8 * s.caps.bsCap < s.bsLen.toNat → t = raise .lenRange 0x02 s.bsLen.toNat { s with
      arena := t.arena, draws := s.draws + 1
      status := { s.status with treeValid := false, codeValid := false, singleLeaf := false } }) ∧
    (s.bsLen.toNat ≤ 8 * s.caps.bsCap → s.bsLen.toNat < s.bsBitptr.toNat + 8 →
      t = raise .malformedStream 0x01 s.bsBitptr.toNat { s with
        arena := t.arena, draws := s.draws + 1
        status := { s.status with treeValid := false, codeValid := false, singleLeaf := false } }) ∧
    (s.bsLen.toNat ≤ 8 * s.caps.bsCap → s.bsBitptr.toNat + 8 ≤ s.bsLen.toNat →
      7 < uint (s.bsMem.bits .bs s.bsBitptr.toNat 8) →
      t = raise .malformedStream 0x02 s.bsBitptr.toNat { s with
        arena := t.arena, draws := s.draws + 1
        status := { s.status with treeValid := false, codeValid := false, singleLeaf := false } })

/-- 41_tree_codec.md R170, R171; 60_exceptions.md R253, R257 (body of a tree segment), the stream holding after its pad field `p` a tree body or the
first part of one (every string of bits is one or begins with one): PAD_MISMATCH at the bit after the body; TRUNC_PAD_BITS where the padding starts;
ARENA_OVERFLOW at the 512th tag, where BS_LEN leaves room for it; else, where BS_LEN cuts the body off, TRUNC_TREE at the missing tag, or at the
first symbol bit of the leaf whose symbol is cut. In each the tree flags are cleared and nothing is said of the arena. -/
def Obligations.TreeDesBodyErrors : Prop :=
  ∀ (s : State) (tr : Tree) (p off : Nat), off = s.bsBitptr.toNat → s.bsLen.toNat ≤ 8 * s.caps.bsCap → off + 8 ≤ s.bsLen.toNat →
    p = uint (s.bsMem.bits .bs off 8) → p ≤ 7 →
    ∃ t, exec .treeDes s = .next t ∧
      (tr.size ≤ 511 → off + 8 + tr.serBits.length ≤ s.bsLen.toNat →
        s.bsMem.bits .bs (off + 8) tr.serBits.length = tr.serBits → (tr.serBits.length + p) % 8 ≠ 0 →
        t = raise .malformedStream 0x05 (off + 8 + tr.serBits.length) { s with
          arena := t.arena, draws := s.draws + 1
          status := { s.status with treeValid := false, codeValid := false, singleLeaf := false } }) ∧
      (tr.size ≤ 511 → off + 8 + tr.serBits.length ≤ s.bsLen.toNat →
        s.bsMem.bits .bs (off + 8) tr.serBits.length = tr.serBits → (tr.serBits.length + p) % 8 = 0 →
        s.bsLen.toNat < off + 8 + tr.serBits.length + p →
        t = raise .malformedStream 0x06 (off + 8 + tr.serBits.length) { s with
          arena := t.arena, draws := s.draws + 1
          status := { s.status with treeValid := false, codeValid := false, singleLeaf := false } }) ∧
      (∀ o, (tr.tagOffsets 0)[511]? = some o → off + 8 + o < s.bsLen.toNat → s.bsMem.bits .bs (off + 8) o = tr.serBits.take o →
        t = raise .malformedStream 0x04 (off + 8 + o) { s with
          arena := t.arena, draws := s.draws + 1
          status := { s.status with treeValid := false, codeValid := false, singleLeaf := false } }) ∧
      (∀ n, off + 8 + n = s.bsLen.toNat → n < tr.serBits.length → s.bsMem.bits .bs (off + 8) n = tr.serBits.take n →
        (∀ o, (tr.tagOffsets 0)[511]? = some o → n ≤ o) →
        (n ∈ tr.tagOffsets 0 → t = raise .malformedStream 0x03 (off + 8 + n) { s with
          arena := t.arena, draws := s.draws + 1
          status := { s.status with treeValid := false, codeValid := false, singleLeaf := false } }) ∧
        (∀ o, o ∈ tr.tagOffsets 0 → tr.serBits[o]? = some true → o < n → n < o + 9 →
          t = raise .malformedStream 0x03 (off + 8 + o + 1) { s with
            arena := t.arena, draws := s.draws + 1
            status := { s.status with treeValid := false, codeValid := false, singleLeaf := false } }))

/-- 41_tree_codec.md R174: what TREE_SER wrote at OUT_BITPTR = q, copied into BS at q with BS_BITPTR = q and BS_LEN at least q + S, TREE_DES reads
back as a tree of the same shape and symbols, with BS_BITPTR = q + S and the same SEG_PAD, whatever tree the decoding side held. -/
def Obligations.TreeCodecRoundTrip : Prop :=
  ∀ (s s₁ d : State) (tr : Tree), s.caps.Legal → d.caps.Legal → s.outMem.wf s.caps.outCap = true →
    s.status.treeValid = true → HoldsTree s tr → s.status.err = false → exec .treeSer s = .next s₁ → s₁.status.err = false →
    d.bsBitptr = s.outBitptr → s.outBitptr.toNat + s₁.segBits.toNat ≤ d.bsLen.toNat → d.bsLen.toNat ≤ 8 * d.caps.bsCap →
    (∀ k, s.outBitptr.toNat ≤ k → k < s.outBitptr.toNat + s₁.segBits.toNat → d.bitAt .bs k = s₁.bitAt .out k) →
    ∃ d₁ tr', exec .treeDes d = .next d₁ ∧ d₁.status.treeValid = true ∧ d₁.status.err = d.status.err ∧
      HoldsTree d₁ tr' ∧ tr'.erase = tr.erase ∧ tr'.serBits = tr.serBits ∧
      tr'.indices = List.range d₁.nodeCount.toNat ∧
      (∀ j < d₁.nodeCount.toNat, weightAt d₁.arena j = 0) ∧
      d₁.bsBitptr = s₁.outBitptr ∧ d₁.segPad = s₁.segPad

/-! ### Decoder -/

/-- The payload segment BS presents to PAY_DEC: pad count `p` at BS_BITPTR, `l` bits from there to BS_LEN, well formed (43_payload_decoder.md
R211). -/
def HoldsPayload (s : State) (p l : Nat) : Prop :=
  s.bsLen.toNat ≤ 8 * s.caps.bsCap ∧ s.bsBitptr.toNat + 8 + l = s.bsLen.toNat ∧
    uint (s.bsMem.bits .bs s.bsBitptr.toNat 8) = p ∧ p ≤ 7 ∧ p ≤ l ∧ l % 8 = 0

/-- 43_payload_decoder.md R212, R214: with a valid tree whose root is internal, a payload whose L - P meaningful bits are the paths to leaves of
symbols `syms`, and room in DEC, PAY_DEC completes with exactly those symbols in DEC[0 ..], every other byte of DEC as before; DEC_LEN, BS_BITPTR,
SEG_PAD and SEG_BITS are as the rule says; nothing else changes but by completing. -/
def Obligations.PayDecWalksCodes : Prop :=
  ∀ (s : State) (p l : Nat) (rt : Node) (codes : List (Bits × Byte)), s.caps.Legal → s.decMem.wf s.caps.decCap = true →
    s.status.treeValid = true → HoldsPayload s p l → s.arena.node? s.root = some rt → rt.leaf = false →
    (∀ c ∈ codes, LeafAt s.arena s.root c.1 c.2) →
    s.bsMem.bits .bs (s.bsBitptr.toNat + 8) (l - p) = (codes.map Prod.fst).flatten → codes.length ≤ s.caps.decCap →
    ∃ t, exec .payDec s = .next t ∧
      t = complete { s with
        decMem := t.decMem
        decLen := BitVec.ofNat 32 codes.length
        bsBitptr := s.bsLen
        segPad := BitVec.ofNat 8 p
        segBits := BitVec.ofNat 32 (8 + l) } ∧
      (∀ j (h : j < codes.length), t.byteAt .dec j = codes[j].2) ∧
      (∀ a, codes.length ≤ a → t.byteAt .dec a = s.byteAt .dec a)

/-- 43_payload_decoder.md R214, R210: meaningful bits that go on beyond whole codes to an internal node other than the root are INCOMPLETE_CODE,
and a symbol beyond DEC_CAP is DEC_OVERFLOW at the bit that completes its code; nothing is said of DEC, and everything else is as it was. -/
def Obligations.PayDecWalkErrors : Prop :=
  ∀ (s : State) (p l : Nat) (rt : Node) (codes : List (Bits × Byte)), s.status.treeValid = true → HoldsPayload s p l →
    s.arena.node? s.root = some rt → rt.leaf = false → (∀ c ∈ codes, LeafAt s.arena s.root c.1 c.2) →
    (∀ rest : Bits, codes.length ≤ s.caps.decCap → InsideAt s.arena s.root rest →
      s.bsMem.bits .bs (s.bsBitptr.toNat + 8) (l - p) = (codes.map Prod.fst).flatten ++ rest →
      ∃ t, exec .payDec s = .next t ∧ t = raise .malformedStream 0x07 (s.bsBitptr.toNat + 8 + (l - p))
        { s with decMem := t.decMem, draws := s.draws + 1 }) ∧
    (∀ (c : Bits) (sym : Byte) (rest : Bits), codes.length = s.caps.decCap → LeafAt s.arena s.root c sym →
      s.bsMem.bits .bs (s.bsBitptr.toNat + 8) (l - p) = (codes.map Prod.fst).flatten ++ c ++ rest →
      ∃ t, exec .payDec s = .next t ∧
        t = raise .decOverflow 0x01 (s.bsBitptr.toNat + 8 + (((codes.map Prod.fst).flatten ++ c).length - 1))
          { s with decMem := t.decMem, draws := s.draws + 1 })

/-- 43_payload_decoder.md R213: with a single-leaf tree PAY_DEC writes the leaf's symbol DEC_REPEAT times; a meaningful bit is SINGLE_LEAF_BITS and
a count beyond DEC_CAP is DEC_OVERFLOW. -/
def Obligations.PayDecRepeatsSingleLeaf : Prop :=
  ∀ (s : State) (p l : Nat) (rt : Node), s.caps.Legal → s.decMem.wf s.caps.decCap = true → s.status.treeValid = true →
    HoldsPayload s p l → s.arena.node? s.root = some rt → rt.leaf = true →
    (l = p → s.decRepeat.toNat ≤ s.caps.decCap → ∃ t, exec .payDec s = .next t ∧
      t = complete { s with
        decMem := t.decMem
        decLen := s.decRepeat
        bsBitptr := s.bsLen
        segPad := BitVec.ofNat 8 p
        segBits := BitVec.ofNat 32 (8 + l) } ∧
      (∀ j, j < s.decRepeat.toNat → t.byteAt .dec j = rt.sym) ∧
      (∀ a, s.decRepeat.toNat ≤ a → t.byteAt .dec a = s.byteAt .dec a)) ∧
    (l ≠ p → ∃ t, exec .payDec s = .next t ∧ t = raise .malformedStream 0x08 (s.bsBitptr.toNat + 8)
      { s with decMem := t.decMem, draws := s.draws + 1 }) ∧
    (l = p → s.caps.decCap < s.decRepeat.toNat → ∃ t, exec .payDec s = .next t ∧
      t = raise .decOverflow 0x02 s.decRepeat.toNat { s with decMem := t.decMem, draws := s.draws + 1 })

/-- 43_payload_decoder.md R210, R211; 60_exceptions.md R257, R262: the header errors of PAY_DEC in their order. LEN_RANGE and NO_TREE leave DEC
alone; after the others nothing is said of DEC. -/
def Obligations.PayDecHeaderErrors : Prop :=
  ∀ s : State,
    (8 * s.caps.bsCap < s.bsLen.toNat → exec .payDec s = .next (raise .lenRange 0x02 s.bsLen.toNat s)) ∧
    (s.bsLen.toNat ≤ 8 * s.caps.bsCap → s.status.treeValid = false → exec .payDec s = .next (raise .noTree 0x00 0 s)) ∧
    (s.bsLen.toNat ≤ 8 * s.caps.bsCap → s.status.treeValid = true →
      (s.bsLen.toNat < s.bsBitptr.toNat + 8 → ∃ t, exec .payDec s = .next t ∧
        t = raise .malformedStream 0x01 s.bsBitptr.toNat { s with decMem := t.decMem, draws := s.draws + 1 }) ∧
      (∀ p l : Nat, s.bsBitptr.toNat + 8 + l = s.bsLen.toNat → p = uint (s.bsMem.bits .bs s.bsBitptr.toNat 8) →
        (7 < p → ∃ t, exec .payDec s = .next t ∧
          t = raise .malformedStream 0x02 s.bsBitptr.toNat { s with decMem := t.decMem, draws := s.draws + 1 }) ∧
        (p ≤ 7 → l < p → ∃ t, exec .payDec s = .next t ∧
          t = raise .malformedStream 0x06 (s.bsBitptr.toNat + 8) { s with decMem := t.decMem, draws := s.draws + 1 }) ∧
        (p ≤ 7 → p ≤ l → l % 8 ≠ 0 → ∃ t, exec .payDec s = .next t ∧
          t = raise .malformedStream 0x05 (s.bsBitptr.toNat + 8) { s with decMem := t.decMem, draws := s.draws + 1 })))

/-- 43_payload_decoder.md R215 (the payload half): what PAY_ENC packed with the code table of a tree, PAY_DEC on a side that holds a tree of the same
shape and symbols unpacks to the same symbols: for a tree with an internal root always, for a single leaf when DEC_REPEAT is IN_LEN. -/
def Obligations.PayloadRoundTrip : Prop :=
  ∀ (s s₁ d : State) (tr tr' : Tree), s.caps.Legal → d.caps.Legal → s.outMem.wf s.caps.outCap = true →
    d.decMem.wf d.caps.decCap = true → s.status.treeValid = true → s.status.codeValid = true → HoldsTree s tr →
    codeTable tr = .ok s.lut → s.status.err = false → exec .payEnc s = .next s₁ → s₁.status.err = false →
    d.status.treeValid = true → HoldsTree d tr' → tr'.erase = tr.erase →
    d.bsBitptr = s.outBitptr → d.bsLen = s₁.outBitptr → d.bsLen.toNat ≤ 8 * d.caps.bsCap →
    (∀ k, s.outBitptr.toNat ≤ k → k < s₁.outBitptr.toNat → d.bitAt .bs k = s₁.bitAt .out k) →
    (tr.isLeaf = true → d.decRepeat = s.inLen) → s.inLen.toNat ≤ d.caps.decCap →
    ∃ d₁, exec .payDec d = .next d₁ ∧ d₁.status.err = d.status.err ∧ d₁.decLen = s.inLen ∧
      (∀ i < s.inLen.toNat, d₁.byteAt .dec i = s.byteAt .inp i) ∧ d₁.bsBitptr = d.bsLen

/-! ### Invariants -/

/-- The invariant holds after reset, for every legal choice of the capacities and so for Config's (log 3). -/
def Obligations.ResetHasInvariant : Prop :=
  (∀ c : Caps, c.Legal → Inv (State.resetWith c)) ∧ Inv State.reset

/-- 10_state.md R50: the validity invariants, with the bookkeeping of BUSY, ERR and the results and the canonical form of the memories, are kept by
every step of either agent, from every state that has them. -/
def Obligations.EveryStepKeepsInvariant : Prop :=
  ∀ s t : State, Inv s → step s = .next t → Inv t

/-- From a state with the invariant no step stops: the model's two faults (log 8) are never raised and no instruction is refused. -/
def Obligations.StepsFromInvariantNeverStop : Prop :=
  ∀ s : State, Inv s → Goes (step s)
end

