-- ==== Sys2Proof/Laws/Memory.lean ====
section
/-! SUPPORT. Laws of the byte memories (20_memory.md R74 to R76): what a write does to every byte and bit, and that every
operation keeps the canonical form. -/

namespace Sys2Proof.Machine

/-! ### Cells -/

theorem cellAt_putCell_same (cs : List Host.Cell) (a : Nat) (v : Byte) : cellAt (putCell cs a v) a = some v := by
  induction cs with
  | nil => simp [putCell, cellAt]
  | cons c cs ih =>
    obtain ⟨b, w⟩ := c
    by_cases h₁ : a < b
    · simp [putCell, h₁, cellAt]
    · by_cases h₂ : a = b
      · simp [putCell, h₂, cellAt]
      · simp [putCell, h₁, h₂, cellAt, Ne.symm h₂, ih]

theorem cellAt_putCell_other (cs : List Host.Cell) {a c : Nat} (v : Byte) (h : a ≠ c) :
    cellAt (putCell cs a v) c = cellAt cs c := by
  induction cs with
  | nil => simp [putCell, cellAt, h]
  | cons x cs ih =>
    obtain ⟨b, w⟩ := x
    by_cases h₁ : a < b
    · simp [putCell, h₁, cellAt, h]
    · by_cases h₂ : a = b
      · subst h₂; simp [putCell, cellAt, h]
      · simp [putCell, h₁, h₂, cellAt, ih]

theorem cellAt_dropCell_other (cs : List Host.Cell) {a c : Nat} (h : a ≠ c) :
    cellAt (dropCell cs a) c = cellAt cs c := by
  induction cs with
  | nil => rfl
  | cons x cs ih =>
    obtain ⟨b, w⟩ := x
    by_cases h₂ : a = b
    · subst h₂; simp [dropCell, cellAt, h]
    · simp [dropCell, h₂, cellAt, ih]

/-- The cells rise strictly, in the library's words. -/
theorem risingCells_iff (cs : List Host.Cell) : risingCells cs = true ↔ (cs.map Prod.fst).Pairwise (· < ·) := by
  induction cs with
  | nil => simp [risingCells]
  | cons x cs ih =>
    cases cs with
    | nil => simp [risingCells]
    | cons y cs =>
      obtain ⟨a, v⟩ := x
      obtain ⟨b, w⟩ := y
      simp only [risingCells, Bool.and_eq_true, decide_eq_true_eq, ih, List.map_cons, List.pairwise_cons]
      constructor
      · rintro ⟨h, h₁, h₂⟩
        refine ⟨?_, h₁, h₂⟩
        intro c hc
        rcases List.mem_cons.1 hc with rfl | hc
        · exact h
        · exact lt_trans h (h₁ c hc)
      · rintro ⟨h, h₁, h₂⟩
        exact ⟨h b (by simp), h₁, h₂⟩

theorem cellAt_none_of_lt (cs : List Host.Cell) (a : Nat) (h : ∀ b ∈ cs.map Prod.fst, a < b) : cellAt cs a = none := by
  induction cs with
  | nil => rfl
  | cons x cs ih =>
    obtain ⟨b, w⟩ := x
    have hb : a < b := h b (by simp)
    simp [cellAt, Nat.ne_of_gt hb, ih (fun c hc => h c (by simp at hc ⊢; exact .inr hc))]

theorem cellAt_dropCell_same (cs : List Host.Cell) (a : Nat) (h : risingCells cs = true) :
    cellAt (dropCell cs a) a = none := by
  rw [risingCells_iff] at h
  induction cs with
  | nil => rfl
  | cons x cs ih =>
    obtain ⟨b, w⟩ := x
    simp only [List.map_cons, List.pairwise_cons] at h
    by_cases h₂ : a = b
    · subst h₂
      simpa [dropCell] using cellAt_none_of_lt cs a h.1
    · simp [dropCell, h₂, cellAt, Ne.symm h₂, ih h.2]

theorem mem_putCell {cs : List Host.Cell} {a : Nat} {v : Byte} {c : Host.Cell} (h : c ∈ putCell cs a v) :
    c = (a, v) ∨ c ∈ cs := by
  induction cs with
  | nil => exact .inl (by simpa [putCell] using h)
  | cons x cs ih =>
    obtain ⟨b, w⟩ := x
    by_cases h₁ : a < b
    · simpa [putCell, h₁] using h
    · by_cases h₂ : a = b
      · simp [putCell, h₂] at h ⊢; tauto
      · simp [putCell, h₁, h₂] at h ⊢; tauto

theorem mem_dropCell {cs : List Host.Cell} {a : Nat} {c : Host.Cell} (h : c ∈ dropCell cs a) : c ∈ cs := by
  induction cs with
  | nil => exact h
  | cons x cs ih =>
    obtain ⟨b, w⟩ := x
    by_cases h₂ : a = b
    · simp [dropCell, h₂] at h ⊢; tauto
    · simp [dropCell, h₂] at h ⊢; tauto

theorem putCell_rising {cs : List Host.Cell} (a : Nat) (v : Byte) (h : risingCells cs = true) :
    risingCells (putCell cs a v) = true := by
  rw [risingCells_iff] at h ⊢
  induction cs with
  | nil => simp [putCell]
  | cons x cs ih =>
    obtain ⟨b, w⟩ := x
    simp only [List.map_cons, List.pairwise_cons] at h
    by_cases h₁ : a < b
    · simp only [putCell, h₁, if_true, List.map_cons, List.pairwise_cons]
      refine ⟨?_, h.1, h.2⟩
      intro c hc
      rcases List.mem_cons.1 hc with rfl | hc
      · exact h₁
      · exact lt_trans h₁ (h.1 c hc)
    · by_cases h₂ : a = b
      · subst h₂; simpa [putCell] using h
      · simp only [putCell, h₁, h₂, if_false, List.map_cons, List.pairwise_cons]
        refine ⟨?_, ih h.2⟩
        intro c hc
        obtain ⟨y, hy, rfl⟩ := List.mem_map.1 hc
        rcases mem_putCell hy with rfl | hy
        · show b < a; omega
        · exact h.1 _ (List.mem_map.2 ⟨y, hy, rfl⟩)

theorem dropCell_rising {cs : List Host.Cell} (a : Nat) (h : risingCells cs = true) :
    risingCells (dropCell cs a) = true := by
  rw [risingCells_iff] at h ⊢
  induction cs with
  | nil => simp [dropCell]
  | cons x cs ih =>
    obtain ⟨b, w⟩ := x
    simp only [List.map_cons, List.pairwise_cons] at h
    by_cases h₂ : a = b
    · subst h₂; simpa [dropCell] using h.2
    · simp only [dropCell, h₂, if_false, List.map_cons, List.pairwise_cons]
      refine ⟨?_, ih h.2⟩
      intro c hc
      obtain ⟨y, hy, rfl⟩ := List.mem_map.1 hc
      exact h.1 _ (List.mem_map.2 ⟨y, mem_dropCell hy, rfl⟩)

/-! ### Bytes (20_memory.md R74) -/

@[simp] theorem write_draw (m : ByteMem) (a : Nat) (v : Byte) : (m.write a v).draw = m.draw := by
  unfold ByteMem.write; split <;> rfl

/-- The canonical form, in words a proof can use. -/
theorem wf_iff (cap : Nat) (m : ByteMem) : m.wf cap = true ↔
    risingCells m.cells = true ∧ (∀ c ∈ m.cells, c.1 < cap) ∧ (m.draw = none → ∀ c ∈ m.cells, c.2 ≠ Config.unwrittenByte) := by
  cases hd : m.draw <;> simp [ByteMem.wf, hd]
  intro _
  constructor
  · intro h₂; exact ⟨fun a b h => (h₂ a b h).1, fun a b h => (h₂ a b h).2⟩
  · rintro ⟨h₂, h₃⟩; exact fun a b h => ⟨h₂ a b h, h₃ a b h⟩

theorem wf_rising {cap : Nat} {m : ByteMem} (h : m.wf cap = true) : risingCells m.cells = true := ((wf_iff cap m).1 h).1

theorem read_write_same (id : MemId) {m : ByteMem} (a : Nat) (v : Byte) (h : risingCells m.cells = true) :
    (m.write a v).read id a = v := by
  unfold ByteMem.write
  split
  · next hc => simp [ByteMem.read, cellAt_dropCell_same _ _ h, ByteMem.unlisted, hc.1, hc.2]
  · simp [ByteMem.read, cellAt_putCell_same]

theorem read_write_other (id : MemId) (m : ByteMem) {a c : Nat} (v : Byte) (h : a ≠ c) :
    (m.write a v).read id c = m.read id c := by
  unfold ByteMem.write
  split <;> simp [ByteMem.read, cellAt_dropCell_other _ h, cellAt_putCell_other _ _ h, ByteMem.unlisted]

theorem write_rising {m : ByteMem} (a : Nat) (v : Byte) (h : risingCells m.cells = true) :
    risingCells (m.write a v).cells = true := by
  unfold ByteMem.write
  split
  · exact dropCell_rising a h
  · exact putCell_rising a v h

/-- `MemWrite` keeps the canonical form. -/
theorem write_wf {cap : Nat} {m : ByteMem} {a : Nat} (v : Byte) (ha : a < cap) (h : m.wf cap = true) :
    (m.write a v).wf cap = true := by
  rw [wf_iff] at h ⊢
  obtain ⟨h₁, h₂, h₃⟩ := h
  refine ⟨write_rising a v h₁, ?_, ?_⟩
  · intro c hc
    unfold ByteMem.write at hc
    split at hc
    · exact h₂ c (mem_dropCell hc)
    · rcases mem_putCell hc with rfl | hc
      · exact ha
      · exact h₂ c hc
  · intro hd c hc
    rw [write_draw] at hd
    unfold ByteMem.write at hc
    split at hc
    · exact h₃ hd c (mem_dropCell hc)
    · next hn =>
      rcases mem_putCell hc with rfl | hc
      · exact fun hv => hn ⟨hd, hv⟩
      · exact h₃ hd c hc

/-- A memory nothing is listed in has the canonical form, drawn or not. -/
@[simp] theorem nothing_listed_wf (cap : Nat) (d : Option Nat) : ByteMem.wf cap ⟨d, []⟩ = true := rfl

/-- The byte memories after reset have the canonical form, whatever the capacities. -/
theorem reset_memories_wf (c : Caps) (id : MemId) : ((State.resetWith c).mem id).wf (c.cap id) = true := by
  cases id <;> rfl

theorem writeBytes_rising (vs : List Byte) {m : ByteMem} (a : Nat) (h : risingCells m.cells = true) :
    risingCells (m.writeBytes a vs).cells = true := by
  induction vs generalizing m a with
  | nil => exact h
  | cons v vs ih => exact ih (a + 1) (write_rising a v h)

theorem writeBytes_wf (vs : List Byte) {cap : Nat} {m : ByteMem} {a : Nat} (ha : a + vs.length ≤ cap)
    (h : m.wf cap = true) : (m.writeBytes a vs).wf cap = true := by
  induction vs generalizing m a with
  | nil => exact h
  | cons v vs ih =>
    simp only [List.length_cons] at ha
    exact ih (by omega) (write_wf v (by omega) h)

theorem read_writeBytes_out (id : MemId) (vs : List Byte) (m : ByteMem) (a c : Nat) (h : c < a ∨ a + vs.length ≤ c) :
    (m.writeBytes a vs).read id c = m.read id c := by
  induction vs generalizing m a with
  | nil => rfl
  | cons v vs ih =>
    simp only [List.length_cons] at h
    rw [ByteMem.writeBytes, ih _ _ (by omega), read_write_other id m v (by omega)]

theorem read_writeBytes_in (id : MemId) (vs : List Byte) {m : ByteMem} (a j : Nat) (hj : j < vs.length)
    (h : risingCells m.cells = true) : (m.writeBytes a vs).read id (a + j) = vs[j] := by
  induction vs generalizing m a j with
  | nil => simp at hj
  | cons v vs ih =>
    cases j with
    | zero => rw [ByteMem.writeBytes, read_writeBytes_out _ _ _ _ _ (by omega)]; exact read_write_same id a v h
    | succ j =>
      have := ih (a + 1) j (by simpa using hj) (write_rising a v h)
      rw [ByteMem.writeBytes, show a + (j + 1) = a + 1 + j by omega]
      simpa using this

/-- A host write of a word keeps the canonical form. -/
theorem writeWord_wf {cap : Nat} {m : ByteMem} {a : Nat} (w : Word) (ha : a + 4 ≤ cap) (h : m.wf cap = true) :
    (m.writeWord a w).wf cap = true := writeBytes_wf _ (by simpa using ha) h

/-! ### Bits (20_memory.md R75) -/

theorem byteBit_setByteBit (v : Byte) (j k : Nat) (b : Bool) (hj : j < 8) (hk : k < 8) :
    byteBit (setByteBit v j b) k = if j = k then b else byteBit v k := by
  unfold byteBit setByteBit
  rw [Nat.mod_eq_of_lt hj, Nat.mod_eq_of_lt hk]
  have hlt : 7 - k < 8 := by omega
  have hm : (BitVec.ofNat 8 (2 ^ (7 - j))).getLsbD (7 - k) = decide (j = k) := by
    simp only [BitVec.getLsbD_ofNat, hlt, decide_true, Bool.true_and, Nat.testBit_two_pow]
    exact decide_eq_decide.2 (by omega)
  generalize (BitVec.ofNat 8 (2 ^ (7 - j)) : Byte) = mask at hm ⊢
  have and_not : (v &&& ~~~mask).getLsbD (7 - k) = (v.getLsbD (7 - k) && !mask.getLsbD (7 - k)) := by
    rw [BitVec.getLsbD_and, BitVec.getLsbD_not, decide_eq_true hlt, Bool.true_and]
  cases b
  · rw [if_neg (by decide), and_not, hm]; by_cases h : j = k <;> simp only [h] <;> simp
  · rw [if_pos rfl, BitVec.getLsbD_or, hm]; by_cases h : j = k <;> simp only [h] <;> simp

theorem bit_setBit_same (id : MemId) {m : ByteMem} (k : Nat) (b : Bool) (h : risingCells m.cells = true) :
    (m.setBit id k b).bit id k = b := by
  have h8 : k % 8 < 8 := Nat.mod_lt _ (by omega)
  simp [ByteMem.bit, ByteMem.setBit, read_write_same id _ _ h, byteBit_setByteBit _ _ _ _ h8 h8]

theorem bit_setBit_other (id : MemId) {m : ByteMem} {k j : Nat} (b : Bool) (h : risingCells m.cells = true) (hkj : k ≠ j) :
    (m.setBit id k b).bit id j = m.bit id j := by
  unfold ByteMem.bit ByteMem.setBit
  by_cases hb : k / 8 = j / 8
  · rw [hb, read_write_same id _ _ h, byteBit_setByteBit _ _ _ _ (Nat.mod_lt _ (by omega)) (Nat.mod_lt _ (by omega)),
      if_neg (by omega)]
  · rw [read_write_other id m _ hb]

theorem setBit_rising (id : MemId) {m : ByteMem} (k : Nat) (b : Bool) (h : risingCells m.cells = true) :
    risingCells (m.setBit id k b).cells = true := write_rising _ _ h

theorem setBits_rising (id : MemId) (bs : Bits) {m : ByteMem} (k : Nat) (h : risingCells m.cells = true) :
    risingCells (m.setBits id k bs).cells = true := by
  induction bs generalizing m k with
  | nil => exact h
  | cons b bs ih => exact ih (k + 1) (setBit_rising id k b h)

/-- `BitWrite` of a string keeps the canonical form. -/
theorem setBits_wf (id : MemId) (bs : Bits) {cap : Nat} {m : ByteMem} {k : Nat} (hk : k + bs.length ≤ 8 * cap)
    (h : m.wf cap = true) : (m.setBits id k bs).wf cap = true := by
  induction bs generalizing m k with
  | nil => exact h
  | cons b bs ih =>
    simp only [List.length_cons] at hk
    exact ih (by omega) (write_wf _ (by omega) h)

theorem bit_setBits_out (id : MemId) (bs : Bits) {m : ByteMem} (k j : Nat) (h : risingCells m.cells = true)
    (hj : j < k ∨ k + bs.length ≤ j) : (m.setBits id k bs).bit id j = m.bit id j := by
  induction bs generalizing m k with
  | nil => rfl
  | cons b bs ih =>
    simp only [List.length_cons] at hj
    rw [ByteMem.setBits, ih (k + 1) (setBit_rising id k b h) (by omega)]
    exact bit_setBit_other id b h (by omega)

theorem bit_setBits_in (id : MemId) (bs : Bits) {m : ByteMem} (k j : Nat) (h : risingCells m.cells = true)
    (hj : j < bs.length) : (m.setBits id k bs).bit id (k + j) = bs[j] := by
  induction bs generalizing m k j with
  | nil => simp at hj
  | cons b bs ih =>
    cases j with
    | zero =>
      rw [ByteMem.setBits, bit_setBits_out id bs _ _ (setBit_rising id k b h) (by omega)]
      exact bit_setBit_same id k b h
    | succ j =>
      have := ih (k + 1) j (setBit_rising id k b h) (by simpa using hj)
      rw [ByteMem.setBits, show k + (j + 1) = k + 1 + j by omega]
      simpa using this

@[simp] theorem bits_length (id : MemId) (m : ByteMem) (k n : Nat) : (m.bits id k n).length = n := by simp [ByteMem.bits]

@[simp] theorem bits_getElem (id : MemId) (m : ByteMem) (k n j : Nat) (h : j < (m.bits id k n).length) :
    (m.bits id k n)[j] = m.bit id (k + j) := by simp [ByteMem.bits]

/-- The bits of a string just written read back as the string. -/
theorem bits_setBits (id : MemId) (bs : Bits) {m : ByteMem} (k : Nat) (h : risingCells m.cells = true) :
    (m.setBits id k bs).bits id k bs.length = bs := by
  apply List.ext_getElem (by simp)
  intro j h₁ h₂
  rw [bits_getElem, bit_setBits_in id bs k j h h₂]

/-! ### Bit strings (00_scope.md R9) -/

@[simp] theorem bitsN_length (n v : Nat) : (bitsN n v).length = n := by simp [bitsN]

@[simp] theorem zeros_length (n : Nat) : (zeros n).length = n := by simp [zeros]

theorem uint_append_bit (bs : Bits) (b : Bool) : uint (bs ++ [b]) = 2 * uint bs + b.toNat := by simp [uint]

theorem uint_lt (bs : Bits) : uint bs < 2 ^ bs.length := by
  induction bs using List.reverseRecOn with
  | nil => simp [uint]
  | append_singleton bs b ih =>
    rw [uint_append_bit, List.length_append, List.length_singleton, pow_succ]
    have : b.toNat ≤ 1 := by cases b <;> simp
    omega

theorem bitsN_succ (n v : Nat) : bitsN (n + 1) v = bitsN n (v / 2) ++ [v.testBit 0] := by
  unfold bitsN
  rw [List.range_succ, List.map_append]
  congr 1
  · apply List.map_congr_left
    intro j hj
    rw [List.mem_range] at hj
    rw [show n + 1 - 1 - j = (n - 1 - j) + 1 by omega, Nat.testBit_succ]
  · simp

/-- `uint` reads back what `bits_N` writes. -/
theorem uint_bitsN (n v : Nat) (h : v < 2 ^ n) : uint (bitsN n v) = v := by
  induction n generalizing v with
  | zero => simp [bitsN, uint] at h ⊢; omega
  | succ n ih =>
    rw [bitsN_succ, uint_append_bit, ih (v / 2) (by rw [pow_succ] at h; omega)]
    have : (v.testBit 0).toNat = v % 2 := by
      rw [Nat.testBit_zero]; rcases Nat.mod_two_eq_zero_or_one v with h | h <;> simp [h]
    omega

/-- The eight bits of a written byte read back as the byte. -/
theorem uint_bitsN_byte (v : Byte) : BitVec.ofNat 8 (uint (bitsN 8 v.toNat)) = v := by
  rw [uint_bitsN 8 _ v.isLt]; simp

end Sys2Proof.Machine
end

