-- ==== Sys2Proof/Laws/State.lean ====
section
/-! SUPPORT. What each named update of State leaves in each field, one lemma a field, so that no proof unfolds an update. -/

namespace Sys2Proof.Machine

@[simp] theorem complete_caps (s : State) : (complete s).caps = s.caps := rfl
@[simp] theorem complete_cmd (s : State) : (complete s).cmd = s.cmd := rfl
@[simp] theorem complete_status (s : State) : (complete s).status = { s.status with busy := false, done := true } := rfl
@[simp] theorem complete_errCode (s : State) : (complete s).errCode = s.errCode := rfl
@[simp] theorem complete_errInfo (s : State) : (complete s).errInfo = s.errInfo := rfl
@[simp] theorem complete_irqEn (s : State) : (complete s).irqEn = s.irqEn := rfl
@[simp] theorem complete_irqStatus (s : State) : (complete s).irqStatus = { s.irqStatus with doneEvt := true } := rfl
@[simp] theorem complete_inLen (s : State) : (complete s).inLen = s.inLen := rfl
@[simp] theorem complete_outBitptr (s : State) : (complete s).outBitptr = s.outBitptr := rfl
@[simp] theorem complete_bsLen (s : State) : (complete s).bsLen = s.bsLen := rfl
@[simp] theorem complete_bsBitptr (s : State) : (complete s).bsBitptr = s.bsBitptr := rfl
@[simp] theorem complete_decLen (s : State) : (complete s).decLen = s.decLen := rfl
@[simp] theorem complete_decRepeat (s : State) : (complete s).decRepeat = s.decRepeat := rfl
@[simp] theorem complete_root (s : State) : (complete s).root = s.root := rfl
@[simp] theorem complete_nodeCount (s : State) : (complete s).nodeCount = s.nodeCount := rfl
@[simp] theorem complete_symCount (s : State) : (complete s).symCount = s.symCount := rfl
@[simp] theorem complete_segPad (s : State) : (complete s).segPad = s.segPad := rfl
@[simp] theorem complete_segBits (s : State) : (complete s).segBits = s.segBits := rfl
@[simp] theorem complete_arena (s : State) : (complete s).arena = s.arena := rfl
@[simp] theorem complete_hist (s : State) : (complete s).hist = s.hist := rfl
@[simp] theorem complete_lut (s : State) : (complete s).lut = s.lut := rfl
@[simp] theorem complete_inMem (s : State) : (complete s).inMem = s.inMem := rfl
@[simp] theorem complete_outMem (s : State) : (complete s).outMem = s.outMem := rfl
@[simp] theorem complete_bsMem (s : State) : (complete s).bsMem = s.bsMem := rfl
@[simp] theorem complete_decMem (s : State) : (complete s).decMem = s.decMem := rfl
@[simp] theorem complete_pending (s : State) : (complete s).pending = none := rfl
@[simp] theorem complete_draws (s : State) : (complete s).draws = s.draws := rfl
@[simp] theorem complete_host (s : State) : (complete s).host = s.host := rfl
@[simp] theorem complete_sched (s : State) : (complete s).sched = s.sched := rfl
@[simp] theorem complete_resp (s : State) : (complete s).resp = s.resp := rfl

@[simp] theorem raise_caps (k : ErrKind) (sub : Byte) (info : Nat) (s : State) : (raise k sub info s).caps = s.caps := rfl
@[simp] theorem raise_cmd (k : ErrKind) (sub : Byte) (info : Nat) (s : State) : (raise k sub info s).cmd = s.cmd := rfl
@[simp] theorem raise_status (k : ErrKind) (sub : Byte) (info : Nat) (s : State) : (raise k sub info s).status = { s.status with busy := false, done := true, err := true } := rfl
@[simp] theorem raise_errCode (k : ErrKind) (sub : Byte) (info : Nat) (s : State) : (raise k sub info s).errCode = ⟨opcodeOf s.cmd, sub, errNumber k⟩ := rfl
@[simp] theorem raise_errInfo (k : ErrKind) (sub : Byte) (info : Nat) (s : State) : (raise k sub info s).errInfo = BitVec.ofNat 32 info := rfl
@[simp] theorem raise_irqEn (k : ErrKind) (sub : Byte) (info : Nat) (s : State) : (raise k sub info s).irqEn = s.irqEn := rfl
@[simp] theorem raise_irqStatus (k : ErrKind) (sub : Byte) (info : Nat) (s : State) : (raise k sub info s).irqStatus = ⟨true, true⟩ := rfl
@[simp] theorem raise_inLen (k : ErrKind) (sub : Byte) (info : Nat) (s : State) : (raise k sub info s).inLen = s.inLen := rfl
@[simp] theorem raise_outBitptr (k : ErrKind) (sub : Byte) (info : Nat) (s : State) : (raise k sub info s).outBitptr = s.outBitptr := rfl
@[simp] theorem raise_bsLen (k : ErrKind) (sub : Byte) (info : Nat) (s : State) : (raise k sub info s).bsLen = s.bsLen := rfl
@[simp] theorem raise_bsBitptr (k : ErrKind) (sub : Byte) (info : Nat) (s : State) : (raise k sub info s).bsBitptr = s.bsBitptr := rfl
@[simp] theorem raise_decLen (k : ErrKind) (sub : Byte) (info : Nat) (s : State) : (raise k sub info s).decLen = s.decLen := rfl
@[simp] theorem raise_decRepeat (k : ErrKind) (sub : Byte) (info : Nat) (s : State) : (raise k sub info s).decRepeat = s.decRepeat := rfl
@[simp] theorem raise_root (k : ErrKind) (sub : Byte) (info : Nat) (s : State) : (raise k sub info s).root = s.root := rfl
@[simp] theorem raise_nodeCount (k : ErrKind) (sub : Byte) (info : Nat) (s : State) : (raise k sub info s).nodeCount = s.nodeCount := rfl
@[simp] theorem raise_symCount (k : ErrKind) (sub : Byte) (info : Nat) (s : State) : (raise k sub info s).symCount = s.symCount := rfl
@[simp] theorem raise_segPad (k : ErrKind) (sub : Byte) (info : Nat) (s : State) : (raise k sub info s).segPad = s.segPad := rfl
@[simp] theorem raise_segBits (k : ErrKind) (sub : Byte) (info : Nat) (s : State) : (raise k sub info s).segBits = s.segBits := rfl
@[simp] theorem raise_arena (k : ErrKind) (sub : Byte) (info : Nat) (s : State) : (raise k sub info s).arena = s.arena := rfl
@[simp] theorem raise_hist (k : ErrKind) (sub : Byte) (info : Nat) (s : State) : (raise k sub info s).hist = s.hist := rfl
@[simp] theorem raise_lut (k : ErrKind) (sub : Byte) (info : Nat) (s : State) : (raise k sub info s).lut = s.lut := rfl
@[simp] theorem raise_inMem (k : ErrKind) (sub : Byte) (info : Nat) (s : State) : (raise k sub info s).inMem = s.inMem := rfl
@[simp] theorem raise_outMem (k : ErrKind) (sub : Byte) (info : Nat) (s : State) : (raise k sub info s).outMem = s.outMem := rfl
@[simp] theorem raise_bsMem (k : ErrKind) (sub : Byte) (info : Nat) (s : State) : (raise k sub info s).bsMem = s.bsMem := rfl
@[simp] theorem raise_decMem (k : ErrKind) (sub : Byte) (info : Nat) (s : State) : (raise k sub info s).decMem = s.decMem := rfl
@[simp] theorem raise_pending (k : ErrKind) (sub : Byte) (info : Nat) (s : State) : (raise k sub info s).pending = none := rfl
@[simp] theorem raise_draws (k : ErrKind) (sub : Byte) (info : Nat) (s : State) : (raise k sub info s).draws = s.draws := rfl
@[simp] theorem raise_host (k : ErrKind) (sub : Byte) (info : Nat) (s : State) : (raise k sub info s).host = s.host := rfl
@[simp] theorem raise_sched (k : ErrKind) (sub : Byte) (info : Nat) (s : State) : (raise k sub info s).sched = s.sched := rfl
@[simp] theorem raise_resp (k : ErrKind) (sub : Byte) (info : Nat) (s : State) : (raise k sub info s).resp = s.resp := rfl

@[simp] theorem accept_caps (w : Word) (s : State) : (accept w s).caps = s.caps := rfl
@[simp] theorem accept_cmd (w : Word) (s : State) : (accept w s).cmd = w := rfl
@[simp] theorem accept_status (w : Word) (s : State) : (accept w s).status = { s.status with busy := true, done := false, err := false } := rfl
@[simp] theorem accept_errCode (w : Word) (s : State) : (accept w s).errCode = ⟨0, 0, 0⟩ := rfl
@[simp] theorem accept_errInfo (w : Word) (s : State) : (accept w s).errInfo = 0 := rfl
@[simp] theorem accept_irqEn (w : Word) (s : State) : (accept w s).irqEn = s.irqEn := rfl
@[simp] theorem accept_irqStatus (w : Word) (s : State) : (accept w s).irqStatus = s.irqStatus := rfl
@[simp] theorem accept_inLen (w : Word) (s : State) : (accept w s).inLen = s.inLen := rfl
@[simp] theorem accept_outBitptr (w : Word) (s : State) : (accept w s).outBitptr = s.outBitptr := rfl
@[simp] theorem accept_bsLen (w : Word) (s : State) : (accept w s).bsLen = s.bsLen := rfl
@[simp] theorem accept_bsBitptr (w : Word) (s : State) : (accept w s).bsBitptr = s.bsBitptr := rfl
@[simp] theorem accept_decLen (w : Word) (s : State) : (accept w s).decLen = s.decLen := rfl
@[simp] theorem accept_decRepeat (w : Word) (s : State) : (accept w s).decRepeat = s.decRepeat := rfl
@[simp] theorem accept_root (w : Word) (s : State) : (accept w s).root = s.root := rfl
@[simp] theorem accept_nodeCount (w : Word) (s : State) : (accept w s).nodeCount = s.nodeCount := rfl
@[simp] theorem accept_symCount (w : Word) (s : State) : (accept w s).symCount = s.symCount := rfl
@[simp] theorem accept_segPad (w : Word) (s : State) : (accept w s).segPad = s.segPad := rfl
@[simp] theorem accept_segBits (w : Word) (s : State) : (accept w s).segBits = s.segBits := rfl
@[simp] theorem accept_arena (w : Word) (s : State) : (accept w s).arena = s.arena := rfl
@[simp] theorem accept_hist (w : Word) (s : State) : (accept w s).hist = s.hist := rfl
@[simp] theorem accept_lut (w : Word) (s : State) : (accept w s).lut = s.lut := rfl
@[simp] theorem accept_inMem (w : Word) (s : State) : (accept w s).inMem = s.inMem := rfl
@[simp] theorem accept_outMem (w : Word) (s : State) : (accept w s).outMem = s.outMem := rfl
@[simp] theorem accept_bsMem (w : Word) (s : State) : (accept w s).bsMem = s.bsMem := rfl
@[simp] theorem accept_decMem (w : Word) (s : State) : (accept w s).decMem = s.decMem := rfl
@[simp] theorem accept_pending (w : Word) (s : State) : (accept w s).pending = some w := rfl
@[simp] theorem accept_draws (w : Word) (s : State) : (accept w s).draws = s.draws := rfl
@[simp] theorem accept_host (w : Word) (s : State) : (accept w s).host = s.host := rfl
@[simp] theorem accept_sched (w : Word) (s : State) : (accept w s).sched = s.sched := rfl
@[simp] theorem accept_resp (w : Word) (s : State) : (accept w s).resp = s.resp := rfl

@[simp] theorem respond_caps (d : Word) (e : Bool) (s : State) : (respond d e s).caps = s.caps := rfl
@[simp] theorem respond_cmd (d : Word) (e : Bool) (s : State) : (respond d e s).cmd = s.cmd := rfl
@[simp] theorem respond_status (d : Word) (e : Bool) (s : State) : (respond d e s).status = s.status := rfl
@[simp] theorem respond_errCode (d : Word) (e : Bool) (s : State) : (respond d e s).errCode = s.errCode := rfl
@[simp] theorem respond_errInfo (d : Word) (e : Bool) (s : State) : (respond d e s).errInfo = s.errInfo := rfl
@[simp] theorem respond_irqEn (d : Word) (e : Bool) (s : State) : (respond d e s).irqEn = s.irqEn := rfl
@[simp] theorem respond_irqStatus (d : Word) (e : Bool) (s : State) : (respond d e s).irqStatus = s.irqStatus := rfl
@[simp] theorem respond_inLen (d : Word) (e : Bool) (s : State) : (respond d e s).inLen = s.inLen := rfl
@[simp] theorem respond_outBitptr (d : Word) (e : Bool) (s : State) : (respond d e s).outBitptr = s.outBitptr := rfl
@[simp] theorem respond_bsLen (d : Word) (e : Bool) (s : State) : (respond d e s).bsLen = s.bsLen := rfl
@[simp] theorem respond_bsBitptr (d : Word) (e : Bool) (s : State) : (respond d e s).bsBitptr = s.bsBitptr := rfl
@[simp] theorem respond_decLen (d : Word) (e : Bool) (s : State) : (respond d e s).decLen = s.decLen := rfl
@[simp] theorem respond_decRepeat (d : Word) (e : Bool) (s : State) : (respond d e s).decRepeat = s.decRepeat := rfl
@[simp] theorem respond_root (d : Word) (e : Bool) (s : State) : (respond d e s).root = s.root := rfl
@[simp] theorem respond_nodeCount (d : Word) (e : Bool) (s : State) : (respond d e s).nodeCount = s.nodeCount := rfl
@[simp] theorem respond_symCount (d : Word) (e : Bool) (s : State) : (respond d e s).symCount = s.symCount := rfl
@[simp] theorem respond_segPad (d : Word) (e : Bool) (s : State) : (respond d e s).segPad = s.segPad := rfl
@[simp] theorem respond_segBits (d : Word) (e : Bool) (s : State) : (respond d e s).segBits = s.segBits := rfl
@[simp] theorem respond_arena (d : Word) (e : Bool) (s : State) : (respond d e s).arena = s.arena := rfl
@[simp] theorem respond_hist (d : Word) (e : Bool) (s : State) : (respond d e s).hist = s.hist := rfl
@[simp] theorem respond_lut (d : Word) (e : Bool) (s : State) : (respond d e s).lut = s.lut := rfl
@[simp] theorem respond_inMem (d : Word) (e : Bool) (s : State) : (respond d e s).inMem = s.inMem := rfl
@[simp] theorem respond_outMem (d : Word) (e : Bool) (s : State) : (respond d e s).outMem = s.outMem := rfl
@[simp] theorem respond_bsMem (d : Word) (e : Bool) (s : State) : (respond d e s).bsMem = s.bsMem := rfl
@[simp] theorem respond_decMem (d : Word) (e : Bool) (s : State) : (respond d e s).decMem = s.decMem := rfl
@[simp] theorem respond_pending (d : Word) (e : Bool) (s : State) : (respond d e s).pending = s.pending := rfl
@[simp] theorem respond_draws (d : Word) (e : Bool) (s : State) : (respond d e s).draws = s.draws := rfl
@[simp] theorem respond_host (d : Word) (e : Bool) (s : State) : (respond d e s).host = s.host := rfl
@[simp] theorem respond_sched (d : Word) (e : Bool) (s : State) : (respond d e s).sched = s.sched := rfl
@[simp] theorem respond_resp (d : Word) (e : Bool) (s : State) : (respond d e s).resp = some ⟨d, e⟩ := rfl

@[simp] theorem respondFree_caps (s : State) : (respondFree s).caps = s.caps := rfl
@[simp] theorem respondFree_cmd (s : State) : (respondFree s).cmd = s.cmd := rfl
@[simp] theorem respondFree_status (s : State) : (respondFree s).status = s.status := rfl
@[simp] theorem respondFree_errCode (s : State) : (respondFree s).errCode = s.errCode := rfl
@[simp] theorem respondFree_errInfo (s : State) : (respondFree s).errInfo = s.errInfo := rfl
@[simp] theorem respondFree_irqEn (s : State) : (respondFree s).irqEn = s.irqEn := rfl
@[simp] theorem respondFree_irqStatus (s : State) : (respondFree s).irqStatus = s.irqStatus := rfl
@[simp] theorem respondFree_inLen (s : State) : (respondFree s).inLen = s.inLen := rfl
@[simp] theorem respondFree_outBitptr (s : State) : (respondFree s).outBitptr = s.outBitptr := rfl
@[simp] theorem respondFree_bsLen (s : State) : (respondFree s).bsLen = s.bsLen := rfl
@[simp] theorem respondFree_bsBitptr (s : State) : (respondFree s).bsBitptr = s.bsBitptr := rfl
@[simp] theorem respondFree_decLen (s : State) : (respondFree s).decLen = s.decLen := rfl
@[simp] theorem respondFree_decRepeat (s : State) : (respondFree s).decRepeat = s.decRepeat := rfl
@[simp] theorem respondFree_root (s : State) : (respondFree s).root = s.root := rfl
@[simp] theorem respondFree_nodeCount (s : State) : (respondFree s).nodeCount = s.nodeCount := rfl
@[simp] theorem respondFree_symCount (s : State) : (respondFree s).symCount = s.symCount := rfl
@[simp] theorem respondFree_segPad (s : State) : (respondFree s).segPad = s.segPad := rfl
@[simp] theorem respondFree_segBits (s : State) : (respondFree s).segBits = s.segBits := rfl
@[simp] theorem respondFree_arena (s : State) : (respondFree s).arena = s.arena := rfl
@[simp] theorem respondFree_hist (s : State) : (respondFree s).hist = s.hist := rfl
@[simp] theorem respondFree_lut (s : State) : (respondFree s).lut = s.lut := rfl
@[simp] theorem respondFree_inMem (s : State) : (respondFree s).inMem = s.inMem := rfl
@[simp] theorem respondFree_outMem (s : State) : (respondFree s).outMem = s.outMem := rfl
@[simp] theorem respondFree_bsMem (s : State) : (respondFree s).bsMem = s.bsMem := rfl
@[simp] theorem respondFree_decMem (s : State) : (respondFree s).decMem = s.decMem := rfl
@[simp] theorem respondFree_pending (s : State) : (respondFree s).pending = s.pending := rfl
@[simp] theorem respondFree_host (s : State) : (respondFree s).host = s.host := rfl
@[simp] theorem respondFree_sched (s : State) : (respondFree s).sched = s.sched := rfl
@[simp] theorem respondFree_draws (s : State) : (respondFree s).draws = s.draws + 1 := rfl
@[simp] theorem respondFree_resp (s : State) : (respondFree s).resp = some ⟨Config.freeRdata s.draws, false⟩ := rfl
@[simp] theorem refuse_caps (s : State) : (refuse s).caps = s.caps := rfl
@[simp] theorem refuse_cmd (s : State) : (refuse s).cmd = s.cmd := rfl
@[simp] theorem refuse_status (s : State) : (refuse s).status = s.status := rfl
@[simp] theorem refuse_errCode (s : State) : (refuse s).errCode = s.errCode := rfl
@[simp] theorem refuse_errInfo (s : State) : (refuse s).errInfo = s.errInfo := rfl
@[simp] theorem refuse_irqEn (s : State) : (refuse s).irqEn = s.irqEn := rfl
@[simp] theorem refuse_irqStatus (s : State) : (refuse s).irqStatus = s.irqStatus := rfl
@[simp] theorem refuse_inLen (s : State) : (refuse s).inLen = s.inLen := rfl
@[simp] theorem refuse_outBitptr (s : State) : (refuse s).outBitptr = s.outBitptr := rfl
@[simp] theorem refuse_bsLen (s : State) : (refuse s).bsLen = s.bsLen := rfl
@[simp] theorem refuse_bsBitptr (s : State) : (refuse s).bsBitptr = s.bsBitptr := rfl
@[simp] theorem refuse_decLen (s : State) : (refuse s).decLen = s.decLen := rfl
@[simp] theorem refuse_decRepeat (s : State) : (refuse s).decRepeat = s.decRepeat := rfl
@[simp] theorem refuse_root (s : State) : (refuse s).root = s.root := rfl
@[simp] theorem refuse_nodeCount (s : State) : (refuse s).nodeCount = s.nodeCount := rfl
@[simp] theorem refuse_symCount (s : State) : (refuse s).symCount = s.symCount := rfl
@[simp] theorem refuse_segPad (s : State) : (refuse s).segPad = s.segPad := rfl
@[simp] theorem refuse_segBits (s : State) : (refuse s).segBits = s.segBits := rfl
@[simp] theorem refuse_arena (s : State) : (refuse s).arena = s.arena := rfl
@[simp] theorem refuse_hist (s : State) : (refuse s).hist = s.hist := rfl
@[simp] theorem refuse_lut (s : State) : (refuse s).lut = s.lut := rfl
@[simp] theorem refuse_inMem (s : State) : (refuse s).inMem = s.inMem := rfl
@[simp] theorem refuse_outMem (s : State) : (refuse s).outMem = s.outMem := rfl
@[simp] theorem refuse_bsMem (s : State) : (refuse s).bsMem = s.bsMem := rfl
@[simp] theorem refuse_decMem (s : State) : (refuse s).decMem = s.decMem := rfl
@[simp] theorem refuse_pending (s : State) : (refuse s).pending = s.pending := rfl
@[simp] theorem refuse_draws (s : State) : (refuse s).draws = s.draws := rfl
@[simp] theorem refuse_host (s : State) : (refuse s).host = s.host := rfl
@[simp] theorem refuse_sched (s : State) : (refuse s).sched = s.sched := rfl
@[simp] theorem refuse_resp (s : State) : (refuse s).resp = some ⟨0, true⟩ := rfl

@[simp] theorem passTurn_caps (s : State) : (passTurn s).caps = s.caps := rfl
@[simp] theorem passTurn_cmd (s : State) : (passTurn s).cmd = s.cmd := rfl
@[simp] theorem passTurn_status (s : State) : (passTurn s).status = s.status := rfl
@[simp] theorem passTurn_errCode (s : State) : (passTurn s).errCode = s.errCode := rfl
@[simp] theorem passTurn_errInfo (s : State) : (passTurn s).errInfo = s.errInfo := rfl
@[simp] theorem passTurn_irqEn (s : State) : (passTurn s).irqEn = s.irqEn := rfl
@[simp] theorem passTurn_irqStatus (s : State) : (passTurn s).irqStatus = s.irqStatus := rfl
@[simp] theorem passTurn_inLen (s : State) : (passTurn s).inLen = s.inLen := rfl
@[simp] theorem passTurn_outBitptr (s : State) : (passTurn s).outBitptr = s.outBitptr := rfl
@[simp] theorem passTurn_bsLen (s : State) : (passTurn s).bsLen = s.bsLen := rfl
@[simp] theorem passTurn_bsBitptr (s : State) : (passTurn s).bsBitptr = s.bsBitptr := rfl
@[simp] theorem passTurn_decLen (s : State) : (passTurn s).decLen = s.decLen := rfl
@[simp] theorem passTurn_decRepeat (s : State) : (passTurn s).decRepeat = s.decRepeat := rfl
@[simp] theorem passTurn_root (s : State) : (passTurn s).root = s.root := rfl
@[simp] theorem passTurn_nodeCount (s : State) : (passTurn s).nodeCount = s.nodeCount := rfl
@[simp] theorem passTurn_symCount (s : State) : (passTurn s).symCount = s.symCount := rfl
@[simp] theorem passTurn_segPad (s : State) : (passTurn s).segPad = s.segPad := rfl
@[simp] theorem passTurn_segBits (s : State) : (passTurn s).segBits = s.segBits := rfl
@[simp] theorem passTurn_arena (s : State) : (passTurn s).arena = s.arena := rfl
@[simp] theorem passTurn_hist (s : State) : (passTurn s).hist = s.hist := rfl
@[simp] theorem passTurn_lut (s : State) : (passTurn s).lut = s.lut := rfl
@[simp] theorem passTurn_inMem (s : State) : (passTurn s).inMem = s.inMem := rfl
@[simp] theorem passTurn_outMem (s : State) : (passTurn s).outMem = s.outMem := rfl
@[simp] theorem passTurn_bsMem (s : State) : (passTurn s).bsMem = s.bsMem := rfl
@[simp] theorem passTurn_decMem (s : State) : (passTurn s).decMem = s.decMem := rfl
@[simp] theorem passTurn_pending (s : State) : (passTurn s).pending = s.pending := rfl
@[simp] theorem passTurn_draws (s : State) : (passTurn s).draws = s.draws := rfl
@[simp] theorem passTurn_host (s : State) : (passTurn s).host = s.host := rfl
@[simp] theorem passTurn_sched (s : State) : (passTurn s).sched = s.sched.tail := rfl
@[simp] theorem passTurn_resp (s : State) : (passTurn s).resp = s.resp := rfl

@[simp] theorem dropWrite_caps (s : State) : (dropWrite s).caps = s.caps := rfl
@[simp] theorem dropWrite_cmd (s : State) : (dropWrite s).cmd = s.cmd := rfl
@[simp] theorem dropWrite_status (s : State) : (dropWrite s).status = { s.status with ovr := true } := rfl
@[simp] theorem dropWrite_errCode (s : State) : (dropWrite s).errCode = s.errCode := rfl
@[simp] theorem dropWrite_errInfo (s : State) : (dropWrite s).errInfo = s.errInfo := rfl
@[simp] theorem dropWrite_irqEn (s : State) : (dropWrite s).irqEn = s.irqEn := rfl
@[simp] theorem dropWrite_irqStatus (s : State) : (dropWrite s).irqStatus = s.irqStatus := rfl
@[simp] theorem dropWrite_inLen (s : State) : (dropWrite s).inLen = s.inLen := rfl
@[simp] theorem dropWrite_outBitptr (s : State) : (dropWrite s).outBitptr = s.outBitptr := rfl
@[simp] theorem dropWrite_bsLen (s : State) : (dropWrite s).bsLen = s.bsLen := rfl
@[simp] theorem dropWrite_bsBitptr (s : State) : (dropWrite s).bsBitptr = s.bsBitptr := rfl
@[simp] theorem dropWrite_decLen (s : State) : (dropWrite s).decLen = s.decLen := rfl
@[simp] theorem dropWrite_decRepeat (s : State) : (dropWrite s).decRepeat = s.decRepeat := rfl
@[simp] theorem dropWrite_root (s : State) : (dropWrite s).root = s.root := rfl
@[simp] theorem dropWrite_nodeCount (s : State) : (dropWrite s).nodeCount = s.nodeCount := rfl
@[simp] theorem dropWrite_symCount (s : State) : (dropWrite s).symCount = s.symCount := rfl
@[simp] theorem dropWrite_segPad (s : State) : (dropWrite s).segPad = s.segPad := rfl
@[simp] theorem dropWrite_segBits (s : State) : (dropWrite s).segBits = s.segBits := rfl
@[simp] theorem dropWrite_arena (s : State) : (dropWrite s).arena = s.arena := rfl
@[simp] theorem dropWrite_hist (s : State) : (dropWrite s).hist = s.hist := rfl
@[simp] theorem dropWrite_lut (s : State) : (dropWrite s).lut = s.lut := rfl
@[simp] theorem dropWrite_inMem (s : State) : (dropWrite s).inMem = s.inMem := rfl
@[simp] theorem dropWrite_outMem (s : State) : (dropWrite s).outMem = s.outMem := rfl
@[simp] theorem dropWrite_bsMem (s : State) : (dropWrite s).bsMem = s.bsMem := rfl
@[simp] theorem dropWrite_decMem (s : State) : (dropWrite s).decMem = s.decMem := rfl
@[simp] theorem dropWrite_pending (s : State) : (dropWrite s).pending = s.pending := rfl
@[simp] theorem dropWrite_draws (s : State) : (dropWrite s).draws = s.draws := rfl
@[simp] theorem dropWrite_host (s : State) : (dropWrite s).host = s.host := rfl
@[simp] theorem dropWrite_sched (s : State) : (dropWrite s).sched = s.sched := rfl
@[simp] theorem dropWrite_resp (s : State) : (dropWrite s).resp = s.resp := rfl

@[simp] theorem installTree_caps (r c l : Nat) (b : Bool) (s : State) : (installTree r c l b s).caps = s.caps := rfl
@[simp] theorem installTree_cmd (r c l : Nat) (b : Bool) (s : State) : (installTree r c l b s).cmd = s.cmd := rfl
@[simp] theorem installTree_status (r c l : Nat) (b : Bool) (s : State) : (installTree r c l b s).status = { s.status with treeValid := true, codeValid := false, singleLeaf := b } := rfl
@[simp] theorem installTree_errCode (r c l : Nat) (b : Bool) (s : State) : (installTree r c l b s).errCode = s.errCode := rfl
@[simp] theorem installTree_errInfo (r c l : Nat) (b : Bool) (s : State) : (installTree r c l b s).errInfo = s.errInfo := rfl
@[simp] theorem installTree_irqEn (r c l : Nat) (b : Bool) (s : State) : (installTree r c l b s).irqEn = s.irqEn := rfl
@[simp] theorem installTree_irqStatus (r c l : Nat) (b : Bool) (s : State) : (installTree r c l b s).irqStatus = s.irqStatus := rfl
@[simp] theorem installTree_inLen (r c l : Nat) (b : Bool) (s : State) : (installTree r c l b s).inLen = s.inLen := rfl
@[simp] theorem installTree_outBitptr (r c l : Nat) (b : Bool) (s : State) : (installTree r c l b s).outBitptr = s.outBitptr := rfl
@[simp] theorem installTree_bsLen (r c l : Nat) (b : Bool) (s : State) : (installTree r c l b s).bsLen = s.bsLen := rfl
@[simp] theorem installTree_bsBitptr (r c l : Nat) (b : Bool) (s : State) : (installTree r c l b s).bsBitptr = s.bsBitptr := rfl
@[simp] theorem installTree_decLen (r c l : Nat) (b : Bool) (s : State) : (installTree r c l b s).decLen = s.decLen := rfl
@[simp] theorem installTree_decRepeat (r c l : Nat) (b : Bool) (s : State) : (installTree r c l b s).decRepeat = s.decRepeat := rfl
@[simp] theorem installTree_root (r c l : Nat) (b : Bool) (s : State) : (installTree r c l b s).root = BitVec.ofNat 9 r := rfl
@[simp] theorem installTree_nodeCount (r c l : Nat) (b : Bool) (s : State) : (installTree r c l b s).nodeCount = BitVec.ofNat 10 c := rfl
@[simp] theorem installTree_symCount (r c l : Nat) (b : Bool) (s : State) : (installTree r c l b s).symCount = BitVec.ofNat 9 l := rfl
@[simp] theorem installTree_segPad (r c l : Nat) (b : Bool) (s : State) : (installTree r c l b s).segPad = s.segPad := rfl
@[simp] theorem installTree_segBits (r c l : Nat) (b : Bool) (s : State) : (installTree r c l b s).segBits = s.segBits := rfl
@[simp] theorem installTree_arena (r c l : Nat) (b : Bool) (s : State) : (installTree r c l b s).arena = s.arena := rfl
@[simp] theorem installTree_hist (r c l : Nat) (b : Bool) (s : State) : (installTree r c l b s).hist = s.hist := rfl
@[simp] theorem installTree_lut (r c l : Nat) (b : Bool) (s : State) : (installTree r c l b s).lut = s.lut := rfl
@[simp] theorem installTree_inMem (r c l : Nat) (b : Bool) (s : State) : (installTree r c l b s).inMem = s.inMem := rfl
@[simp] theorem installTree_outMem (r c l : Nat) (b : Bool) (s : State) : (installTree r c l b s).outMem = s.outMem := rfl
@[simp] theorem installTree_bsMem (r c l : Nat) (b : Bool) (s : State) : (installTree r c l b s).bsMem = s.bsMem := rfl
@[simp] theorem installTree_decMem (r c l : Nat) (b : Bool) (s : State) : (installTree r c l b s).decMem = s.decMem := rfl
@[simp] theorem installTree_pending (r c l : Nat) (b : Bool) (s : State) : (installTree r c l b s).pending = s.pending := rfl
@[simp] theorem installTree_draws (r c l : Nat) (b : Bool) (s : State) : (installTree r c l b s).draws = s.draws := rfl
@[simp] theorem installTree_host (r c l : Nat) (b : Bool) (s : State) : (installTree r c l b s).host = s.host := rfl
@[simp] theorem installTree_sched (r c l : Nat) (b : Bool) (s : State) : (installTree r c l b s).sched = s.sched := rfl
@[simp] theorem installTree_resp (r c l : Nat) (b : Bool) (s : State) : (installTree r c l b s).resp = s.resp := rfl

@[simp] theorem destroyTree_caps (s : State) : (destroyTree s).caps = s.caps := rfl
@[simp] theorem destroyTree_cmd (s : State) : (destroyTree s).cmd = s.cmd := rfl
@[simp] theorem destroyTree_status (s : State) : (destroyTree s).status = { s.status with treeValid := false, codeValid := false, singleLeaf := false } := rfl
@[simp] theorem destroyTree_errCode (s : State) : (destroyTree s).errCode = s.errCode := rfl
@[simp] theorem destroyTree_errInfo (s : State) : (destroyTree s).errInfo = s.errInfo := rfl
@[simp] theorem destroyTree_irqEn (s : State) : (destroyTree s).irqEn = s.irqEn := rfl
@[simp] theorem destroyTree_irqStatus (s : State) : (destroyTree s).irqStatus = s.irqStatus := rfl
@[simp] theorem destroyTree_inLen (s : State) : (destroyTree s).inLen = s.inLen := rfl
@[simp] theorem destroyTree_outBitptr (s : State) : (destroyTree s).outBitptr = s.outBitptr := rfl
@[simp] theorem destroyTree_bsLen (s : State) : (destroyTree s).bsLen = s.bsLen := rfl
@[simp] theorem destroyTree_bsBitptr (s : State) : (destroyTree s).bsBitptr = s.bsBitptr := rfl
@[simp] theorem destroyTree_decLen (s : State) : (destroyTree s).decLen = s.decLen := rfl
@[simp] theorem destroyTree_decRepeat (s : State) : (destroyTree s).decRepeat = s.decRepeat := rfl
@[simp] theorem destroyTree_root (s : State) : (destroyTree s).root = s.root := rfl
@[simp] theorem destroyTree_nodeCount (s : State) : (destroyTree s).nodeCount = s.nodeCount := rfl
@[simp] theorem destroyTree_symCount (s : State) : (destroyTree s).symCount = s.symCount := rfl
@[simp] theorem destroyTree_segPad (s : State) : (destroyTree s).segPad = s.segPad := rfl
@[simp] theorem destroyTree_segBits (s : State) : (destroyTree s).segBits = s.segBits := rfl
@[simp] theorem destroyTree_arena (s : State) : (destroyTree s).arena = drawTable 511 (Config.freeNode s.draws) := rfl
@[simp] theorem destroyTree_hist (s : State) : (destroyTree s).hist = s.hist := rfl
@[simp] theorem destroyTree_lut (s : State) : (destroyTree s).lut = s.lut := rfl
@[simp] theorem destroyTree_inMem (s : State) : (destroyTree s).inMem = s.inMem := rfl
@[simp] theorem destroyTree_outMem (s : State) : (destroyTree s).outMem = s.outMem := rfl
@[simp] theorem destroyTree_bsMem (s : State) : (destroyTree s).bsMem = s.bsMem := rfl
@[simp] theorem destroyTree_decMem (s : State) : (destroyTree s).decMem = s.decMem := rfl
@[simp] theorem destroyTree_pending (s : State) : (destroyTree s).pending = s.pending := rfl
@[simp] theorem destroyTree_draws (s : State) : (destroyTree s).draws = s.draws + 1 := rfl
@[simp] theorem destroyTree_host (s : State) : (destroyTree s).host = s.host := rfl
@[simp] theorem destroyTree_sched (s : State) : (destroyTree s).sched = s.sched := rfl
@[simp] theorem destroyTree_resp (s : State) : (destroyTree s).resp = s.resp := rfl

@[simp] theorem setCodeValid_caps (b : Bool) (s : State) : (setCodeValid b s).caps = s.caps := rfl
@[simp] theorem setCodeValid_cmd (b : Bool) (s : State) : (setCodeValid b s).cmd = s.cmd := rfl
@[simp] theorem setCodeValid_status (b : Bool) (s : State) : (setCodeValid b s).status = { s.status with codeValid := b } := rfl
@[simp] theorem setCodeValid_errCode (b : Bool) (s : State) : (setCodeValid b s).errCode = s.errCode := rfl
@[simp] theorem setCodeValid_errInfo (b : Bool) (s : State) : (setCodeValid b s).errInfo = s.errInfo := rfl
@[simp] theorem setCodeValid_irqEn (b : Bool) (s : State) : (setCodeValid b s).irqEn = s.irqEn := rfl
@[simp] theorem setCodeValid_irqStatus (b : Bool) (s : State) : (setCodeValid b s).irqStatus = s.irqStatus := rfl
@[simp] theorem setCodeValid_inLen (b : Bool) (s : State) : (setCodeValid b s).inLen = s.inLen := rfl
@[simp] theorem setCodeValid_outBitptr (b : Bool) (s : State) : (setCodeValid b s).outBitptr = s.outBitptr := rfl
@[simp] theorem setCodeValid_bsLen (b : Bool) (s : State) : (setCodeValid b s).bsLen = s.bsLen := rfl
@[simp] theorem setCodeValid_bsBitptr (b : Bool) (s : State) : (setCodeValid b s).bsBitptr = s.bsBitptr := rfl
@[simp] theorem setCodeValid_decLen (b : Bool) (s : State) : (setCodeValid b s).decLen = s.decLen := rfl
@[simp] theorem setCodeValid_decRepeat (b : Bool) (s : State) : (setCodeValid b s).decRepeat = s.decRepeat := rfl
@[simp] theorem setCodeValid_root (b : Bool) (s : State) : (setCodeValid b s).root = s.root := rfl
@[simp] theorem setCodeValid_nodeCount (b : Bool) (s : State) : (setCodeValid b s).nodeCount = s.nodeCount := rfl
@[simp] theorem setCodeValid_symCount (b : Bool) (s : State) : (setCodeValid b s).symCount = s.symCount := rfl
@[simp] theorem setCodeValid_segPad (b : Bool) (s : State) : (setCodeValid b s).segPad = s.segPad := rfl
@[simp] theorem setCodeValid_segBits (b : Bool) (s : State) : (setCodeValid b s).segBits = s.segBits := rfl
@[simp] theorem setCodeValid_arena (b : Bool) (s : State) : (setCodeValid b s).arena = s.arena := rfl
@[simp] theorem setCodeValid_hist (b : Bool) (s : State) : (setCodeValid b s).hist = s.hist := rfl
@[simp] theorem setCodeValid_lut (b : Bool) (s : State) : (setCodeValid b s).lut = s.lut := rfl
@[simp] theorem setCodeValid_inMem (b : Bool) (s : State) : (setCodeValid b s).inMem = s.inMem := rfl
@[simp] theorem setCodeValid_outMem (b : Bool) (s : State) : (setCodeValid b s).outMem = s.outMem := rfl
@[simp] theorem setCodeValid_bsMem (b : Bool) (s : State) : (setCodeValid b s).bsMem = s.bsMem := rfl
@[simp] theorem setCodeValid_decMem (b : Bool) (s : State) : (setCodeValid b s).decMem = s.decMem := rfl
@[simp] theorem setCodeValid_pending (b : Bool) (s : State) : (setCodeValid b s).pending = s.pending := rfl
@[simp] theorem setCodeValid_draws (b : Bool) (s : State) : (setCodeValid b s).draws = s.draws := rfl
@[simp] theorem setCodeValid_host (b : Bool) (s : State) : (setCodeValid b s).host = s.host := rfl
@[simp] theorem setCodeValid_sched (b : Bool) (s : State) : (setCodeValid b s).sched = s.sched := rfl
@[simp] theorem setCodeValid_resp (b : Bool) (s : State) : (setCodeValid b s).resp = s.resp := rfl

@[simp] theorem drawHist_caps (s : State) : (s.drawHist).caps = s.caps := rfl
@[simp] theorem drawHist_cmd (s : State) : (s.drawHist).cmd = s.cmd := rfl
@[simp] theorem drawHist_status (s : State) : (s.drawHist).status = s.status := rfl
@[simp] theorem drawHist_errCode (s : State) : (s.drawHist).errCode = s.errCode := rfl
@[simp] theorem drawHist_errInfo (s : State) : (s.drawHist).errInfo = s.errInfo := rfl
@[simp] theorem drawHist_irqEn (s : State) : (s.drawHist).irqEn = s.irqEn := rfl
@[simp] theorem drawHist_irqStatus (s : State) : (s.drawHist).irqStatus = s.irqStatus := rfl
@[simp] theorem drawHist_inLen (s : State) : (s.drawHist).inLen = s.inLen := rfl
@[simp] theorem drawHist_outBitptr (s : State) : (s.drawHist).outBitptr = s.outBitptr := rfl
@[simp] theorem drawHist_bsLen (s : State) : (s.drawHist).bsLen = s.bsLen := rfl
@[simp] theorem drawHist_bsBitptr (s : State) : (s.drawHist).bsBitptr = s.bsBitptr := rfl
@[simp] theorem drawHist_decLen (s : State) : (s.drawHist).decLen = s.decLen := rfl
@[simp] theorem drawHist_decRepeat (s : State) : (s.drawHist).decRepeat = s.decRepeat := rfl
@[simp] theorem drawHist_root (s : State) : (s.drawHist).root = s.root := rfl
@[simp] theorem drawHist_nodeCount (s : State) : (s.drawHist).nodeCount = s.nodeCount := rfl
@[simp] theorem drawHist_symCount (s : State) : (s.drawHist).symCount = s.symCount := rfl
@[simp] theorem drawHist_segPad (s : State) : (s.drawHist).segPad = s.segPad := rfl
@[simp] theorem drawHist_segBits (s : State) : (s.drawHist).segBits = s.segBits := rfl
@[simp] theorem drawHist_arena (s : State) : (s.drawHist).arena = s.arena := rfl
@[simp] theorem drawHist_hist (s : State) : (s.drawHist).hist = drawTable 256 (Config.freeCount s.draws) := rfl
@[simp] theorem drawHist_lut (s : State) : (s.drawHist).lut = s.lut := rfl
@[simp] theorem drawHist_inMem (s : State) : (s.drawHist).inMem = s.inMem := rfl
@[simp] theorem drawHist_outMem (s : State) : (s.drawHist).outMem = s.outMem := rfl
@[simp] theorem drawHist_bsMem (s : State) : (s.drawHist).bsMem = s.bsMem := rfl
@[simp] theorem drawHist_decMem (s : State) : (s.drawHist).decMem = s.decMem := rfl
@[simp] theorem drawHist_pending (s : State) : (s.drawHist).pending = s.pending := rfl
@[simp] theorem drawHist_draws (s : State) : (s.drawHist).draws = s.draws + 1 := rfl
@[simp] theorem drawHist_host (s : State) : (s.drawHist).host = s.host := rfl
@[simp] theorem drawHist_sched (s : State) : (s.drawHist).sched = s.sched := rfl
@[simp] theorem drawHist_resp (s : State) : (s.drawHist).resp = s.resp := rfl

@[simp] theorem drawLut_caps (s : State) : (s.drawLut).caps = s.caps := rfl
@[simp] theorem drawLut_cmd (s : State) : (s.drawLut).cmd = s.cmd := rfl
@[simp] theorem drawLut_status (s : State) : (s.drawLut).status = s.status := rfl
@[simp] theorem drawLut_errCode (s : State) : (s.drawLut).errCode = s.errCode := rfl
@[simp] theorem drawLut_errInfo (s : State) : (s.drawLut).errInfo = s.errInfo := rfl
@[simp] theorem drawLut_irqEn (s : State) : (s.drawLut).irqEn = s.irqEn := rfl
@[simp] theorem drawLut_irqStatus (s : State) : (s.drawLut).irqStatus = s.irqStatus := rfl
@[simp] theorem drawLut_inLen (s : State) : (s.drawLut).inLen = s.inLen := rfl
@[simp] theorem drawLut_outBitptr (s : State) : (s.drawLut).outBitptr = s.outBitptr := rfl
@[simp] theorem drawLut_bsLen (s : State) : (s.drawLut).bsLen = s.bsLen := rfl
@[simp] theorem drawLut_bsBitptr (s : State) : (s.drawLut).bsBitptr = s.bsBitptr := rfl
@[simp] theorem drawLut_decLen (s : State) : (s.drawLut).decLen = s.decLen := rfl
@[simp] theorem drawLut_decRepeat (s : State) : (s.drawLut).decRepeat = s.decRepeat := rfl
@[simp] theorem drawLut_root (s : State) : (s.drawLut).root = s.root := rfl
@[simp] theorem drawLut_nodeCount (s : State) : (s.drawLut).nodeCount = s.nodeCount := rfl
@[simp] theorem drawLut_symCount (s : State) : (s.drawLut).symCount = s.symCount := rfl
@[simp] theorem drawLut_segPad (s : State) : (s.drawLut).segPad = s.segPad := rfl
@[simp] theorem drawLut_segBits (s : State) : (s.drawLut).segBits = s.segBits := rfl
@[simp] theorem drawLut_arena (s : State) : (s.drawLut).arena = s.arena := rfl
@[simp] theorem drawLut_hist (s : State) : (s.drawLut).hist = s.hist := rfl
@[simp] theorem drawLut_lut (s : State) : (s.drawLut).lut = drawTable 256 (Config.freeEntry s.draws) := rfl
@[simp] theorem drawLut_inMem (s : State) : (s.drawLut).inMem = s.inMem := rfl
@[simp] theorem drawLut_outMem (s : State) : (s.drawLut).outMem = s.outMem := rfl
@[simp] theorem drawLut_bsMem (s : State) : (s.drawLut).bsMem = s.bsMem := rfl
@[simp] theorem drawLut_decMem (s : State) : (s.drawLut).decMem = s.decMem := rfl
@[simp] theorem drawLut_pending (s : State) : (s.drawLut).pending = s.pending := rfl
@[simp] theorem drawLut_draws (s : State) : (s.drawLut).draws = s.draws + 1 := rfl
@[simp] theorem drawLut_host (s : State) : (s.drawLut).host = s.host := rfl
@[simp] theorem drawLut_sched (s : State) : (s.drawLut).sched = s.sched := rfl
@[simp] theorem drawLut_resp (s : State) : (s.drawLut).resp = s.resp := rfl

@[simp] theorem drawDec_caps (s : State) : (s.drawDec).caps = s.caps := rfl
@[simp] theorem drawDec_cmd (s : State) : (s.drawDec).cmd = s.cmd := rfl
@[simp] theorem drawDec_status (s : State) : (s.drawDec).status = s.status := rfl
@[simp] theorem drawDec_errCode (s : State) : (s.drawDec).errCode = s.errCode := rfl
@[simp] theorem drawDec_errInfo (s : State) : (s.drawDec).errInfo = s.errInfo := rfl
@[simp] theorem drawDec_irqEn (s : State) : (s.drawDec).irqEn = s.irqEn := rfl
@[simp] theorem drawDec_irqStatus (s : State) : (s.drawDec).irqStatus = s.irqStatus := rfl
@[simp] theorem drawDec_inLen (s : State) : (s.drawDec).inLen = s.inLen := rfl
@[simp] theorem drawDec_outBitptr (s : State) : (s.drawDec).outBitptr = s.outBitptr := rfl
@[simp] theorem drawDec_bsLen (s : State) : (s.drawDec).bsLen = s.bsLen := rfl
@[simp] theorem drawDec_bsBitptr (s : State) : (s.drawDec).bsBitptr = s.bsBitptr := rfl
@[simp] theorem drawDec_decLen (s : State) : (s.drawDec).decLen = s.decLen := rfl
@[simp] theorem drawDec_decRepeat (s : State) : (s.drawDec).decRepeat = s.decRepeat := rfl
@[simp] theorem drawDec_root (s : State) : (s.drawDec).root = s.root := rfl
@[simp] theorem drawDec_nodeCount (s : State) : (s.drawDec).nodeCount = s.nodeCount := rfl
@[simp] theorem drawDec_symCount (s : State) : (s.drawDec).symCount = s.symCount := rfl
@[simp] theorem drawDec_segPad (s : State) : (s.drawDec).segPad = s.segPad := rfl
@[simp] theorem drawDec_segBits (s : State) : (s.drawDec).segBits = s.segBits := rfl
@[simp] theorem drawDec_arena (s : State) : (s.drawDec).arena = s.arena := rfl
@[simp] theorem drawDec_hist (s : State) : (s.drawDec).hist = s.hist := rfl
@[simp] theorem drawDec_lut (s : State) : (s.drawDec).lut = s.lut := rfl
@[simp] theorem drawDec_inMem (s : State) : (s.drawDec).inMem = s.inMem := rfl
@[simp] theorem drawDec_outMem (s : State) : (s.drawDec).outMem = s.outMem := rfl
@[simp] theorem drawDec_bsMem (s : State) : (s.drawDec).bsMem = s.bsMem := rfl
@[simp] theorem drawDec_decMem (s : State) : (s.drawDec).decMem = ⟨some s.draws, []⟩ := rfl
@[simp] theorem drawDec_pending (s : State) : (s.drawDec).pending = s.pending := rfl
@[simp] theorem drawDec_draws (s : State) : (s.drawDec).draws = s.draws + 1 := rfl
@[simp] theorem drawDec_host (s : State) : (s.drawDec).host = s.host := rfl
@[simp] theorem drawDec_sched (s : State) : (s.drawDec).sched = s.sched := rfl
@[simp] theorem drawDec_resp (s : State) : (s.drawDec).resp = s.resp := rfl

/-! The byte memories of a state, by name. -/

@[simp] theorem mem_inp (s : State) : s.mem .inp = s.inMem := rfl
@[simp] theorem mem_out (s : State) : s.mem .out = s.outMem := rfl
@[simp] theorem mem_bs (s : State) : s.mem .bs = s.bsMem := rfl
@[simp] theorem mem_dec (s : State) : s.mem .dec = s.decMem := rfl
@[simp] theorem setMem_inp (s : State) (m : ByteMem) : s.setMem .inp m = { s with inMem := m } := rfl
@[simp] theorem setMem_out (s : State) (m : ByteMem) : s.setMem .out m = { s with outMem := m } := rfl
@[simp] theorem setMem_bs (s : State) (m : ByteMem) : s.setMem .bs m = { s with bsMem := m } := rfl
@[simp] theorem setMem_dec (s : State) (m : ByteMem) : s.setMem .dec m = { s with decMem := m } := rfl

@[simp] theorem mem_setMem_same (s : State) (id : MemId) (m : ByteMem) : (s.setMem id m).mem id = m := by
  cases id <;> rfl

theorem mem_setMem_other (s : State) {id id' : MemId} (m : ByteMem) (h : id ≠ id') : (s.setMem id m).mem id' = s.mem id' := by
  cases id <;> cases id' <;> first | rfl | exact absurd rfl h

end Sys2Proof.Machine
end

