-- ==== Sys2Proof/Laws/Ops.lean ====
section
/-! SUPPORT. What each shared operation over the stores and the segments can do, said once. -/

namespace Sys2Proof.Machine

/-! ### Histogram, LUT and arena -/

@[simp] theorem count_put_same (h : Hist) (sym : Byte) (v : Word) : (h.put sym v).count sym = v := by
  simp [Hist.count, Hist.put]

theorem count_put_other (h : Hist) {sym b : Byte} (v : Word) (hb : sym ≠ b) : (h.put sym v).count b = h.count b := by
  have : sym.toNat ≠ b.toNat := fun e => hb (BitVec.eq_of_toNat_eq e)
  simp [Hist.count, Hist.put, Vector.getElem_set_ne _ _ this]

theorem count_put (h : Hist) (sym b : Byte) (v : Word) : (h.put sym v).count b = if sym = b then v else h.count b := by
  split
  · subst_vars; simp
  · exact count_put_other h v ‹_›

@[simp] theorem count_zeroHist (b : Byte) : zeroHist.count b = 0 := by simp [Hist.count, zeroHist]

@[simp] theorem entry_put_same (l : Lut) (sym : Byte) (e : LutEntry) : (l.put sym e).entry sym = e := by
  simp [Lut.entry, Lut.put]

theorem entry_put_other (l : Lut) {sym b : Byte} (e : LutEntry) (hb : sym ≠ b) : (l.put sym e).entry b = l.entry b := by
  have : sym.toNat ≠ b.toNat := fun h => hb (BitVec.eq_of_toNat_eq h)
  simp [Lut.entry, Lut.put, Vector.getElem_set_ne _ _ this]

@[simp] theorem entry_absentLut (b : Byte) : absentLut.entry b = absentEntry := by simp [Lut.entry, absentLut]

theorem arena_put_same (ar : Arena) {i : Nat} (n : Node) (h : i < 511) : (ar.put i n)[i]? = some n := by
  simp [Arena.put, h]

theorem arena_put_other (ar : Arena) {i j : Nat} (n : Node) (h : i ≠ j) : (ar.put i n)[j]? = ar[j]? := by
  simp [Arena.put, h]

theorem node?_isSome (ar : Arena) (i : BitVec 9) : (ar.node? i).isSome = true ↔ i.toNat < 511 := by
  simp [Arena.node?]

/-! ### Segments (30_encoding.md R106) -/

theorem padOf_lt (n : Nat) : padOf n < 8 := Nat.mod_lt _ (by omega)

theorem padOf_aligns (n : Nat) : (n + padOf n) % 8 = 0 := by unfold padOf; omega

/-- The pad count is the only number below 8 that fills a body up to whole bytes. -/
theorem padOf_unique {n p : Nat} (hp : p < 8) (h : (n + p) % 8 = 0) : padOf n = p := by unfold padOf; omega

@[simp] theorem frameSegment_length (body : Bits) : (frameSegment body).length = 8 + body.length + padOf body.length := by
  simp [frameSegment]; omega

/-- Everything the last lines of TREE_SER and PAY_ENC can do. -/
theorem emitSegment_cases (body : Bits) (s : State) :
    (8 * s.caps.outCap < s.outBitptr.toNat + (8 + body.length + padOf body.length) ∧
      emitSegment body s = .next (raise .outOverflow 0x00 (8 + body.length + padOf body.length) s)) ∨
    (s.outBitptr.toNat + (8 + body.length + padOf body.length) ≤ 8 * s.caps.outCap ∧
      emitSegment body s = .next (complete { s with
        outMem := s.outMem.setBits .out s.outBitptr.toNat (frameSegment body)
        outBitptr := BitVec.ofNat 32 (s.outBitptr.toNat + (8 + body.length + padOf body.length))
        segPad := BitVec.ofNat 8 (padOf body.length)
        segBits := BitVec.ofNat 32 (8 + body.length + padOf body.length) })) := by
  by_cases h : 8 * s.caps.outCap < s.outBitptr.toNat + (8 + body.length + padOf body.length)
  · exact .inl ⟨h, by simp [emitSegment, h, fail]⟩
  · exact .inr ⟨by omega, by simp [emitSegment, h, succeed]⟩

/-- Everything the header of a segment can be. -/
theorem readPadField_cases (s : State) :
    (s.bsLen.toNat < s.bsBitptr.toNat + 8 ∧ readPadField s = .error (.truncPadField, s.bsBitptr.toNat)) ∨
    (s.bsBitptr.toNat + 8 ≤ s.bsLen.toNat ∧ 7 < uint (s.bsMem.bits .bs s.bsBitptr.toNat 8) ∧
      readPadField s = .error (.padRange, s.bsBitptr.toNat)) ∨
    (s.bsBitptr.toNat + 8 ≤ s.bsLen.toNat ∧ uint (s.bsMem.bits .bs s.bsBitptr.toNat 8) ≤ 7 ∧
      readPadField s = .ok (uint (s.bsMem.bits .bs s.bsBitptr.toNat 8))) := by
  unfold readPadField
  by_cases h : s.bsLen.toNat < s.bsBitptr.toNat + 8
  · exact .inl ⟨h, by simp [h]⟩
  · by_cases hp : 7 < uint (s.bsMem.bits .bs s.bsBitptr.toNat 8)
    · exact .inr (.inl ⟨by omega, hp, by simp [h, hp]⟩)
    · exact .inr (.inr ⟨by omega, by omega, by simp [h, hp]⟩)

/-! ### Counting (40_histogram_builder.md R141) -/

/-- A counting run that ends well adds the occurrences of each symbol. -/
theorem countSymbols_ok {syms : List Byte} {i : Nat} {h h' : Hist} (hr : countSymbols syms i h = .ok h') (b : Byte) :
    (h'.count b).toNat = (h.count b).toNat + syms.count b := by
  induction syms generalizing i h with
  | nil => simp [countSymbols] at hr; simp [hr]
  | cons sym syms ih =>
    simp only [countSymbols] at hr
    split at hr
    · simp at hr
    next hne =>
      rw [ih hr, count_put]
      have : (h.count sym).toNat ≠ 2 ^ 32 - 1 := fun e => hne (BitVec.eq_of_toNat_eq e)
      have := (h.count sym).isLt
      by_cases hb : sym = b
      · subst hb
        rw [if_pos rfl, List.count_cons_self, BitVec.toNat_add]
        change ((h.count sym).toNat + 1) % 2 ^ 32 + _ = _
        omega
      · rw [if_neg hb, List.count_cons_of_ne (by simpa using hb)]

/-- A counting run stops at a symbol of its input whose counter then stands at 2^32 - 1. -/
theorem countSymbols_error {syms : List Byte} {i k : Nat} {h : Hist} {b : Byte} (hr : countSymbols syms i h = .error (b, k)) :
    i ≤ k ∧ k - i < syms.length ∧ syms[k - i]? = some b ∧
      (h.count b).toNat + (syms.take (k - i)).count b = 2 ^ 32 - 1 := by
  induction syms generalizing i h with
  | nil => simp [countSymbols] at hr
  | cons sym syms ih =>
    simp only [countSymbols] at hr
    split at hr
    next he =>
      obtain ⟨rfl, rfl⟩ : sym = b ∧ i = k := by simpa using hr
      simp [he]
    next hne =>
      obtain ⟨h₁, h₂, h₃, h₄⟩ := ih hr
      have : (h.count sym).toNat ≠ 2 ^ 32 - 1 := fun e => hne (BitVec.eq_of_toNat_eq e)
      have := (h.count sym).isLt
      have hk : k - i = (k - (i + 1)) + 1 := by omega
      refine ⟨by omega, by simp; omega, by rw [hk]; simpa using h₃, ?_⟩
      rw [hk, List.take_succ_cons, ← h₄, count_put]
      by_cases hb : sym = b
      · subst hb
        rw [if_pos rfl, List.count_cons_self, BitVec.toNat_add]
        change _ = ((h.count sym).toNat + 1) % 2 ^ 32 + _
        omega
      · rw [if_neg hb, List.count_cons_of_ne (by simpa using hb)]

/-! ### The payload body (42_payload_encoder.md R195, 30_encoding.md R111) -/

/-- Where every symbol has a code, the body is the concatenation of the codes. -/
theorem payloadBits_present {l : Lut} {syms : List Byte} (i : Nat) (h : ∀ b ∈ syms, (l.entry b).present = true) :
    payloadBits l syms i = .ok (syms.flatMap fun b => lutBits (l.entry b)) := by
  induction syms generalizing i with
  | nil => rfl
  | cons b syms ih =>
    simp [payloadBits, h b (by simp), ih (i + 1) fun c hc => h c (by simp [hc])]

/-- The first symbol without a code is the one reported, with its index. -/
theorem payloadBits_absent {l : Lut} {before after : List Byte} {b : Byte} (i : Nat)
    (h : ∀ c ∈ before, (l.entry c).present = true) (hb : (l.entry b).present = false) :
    payloadBits l (before ++ b :: after) i = .error (b, i + before.length) := by
  induction before generalizing i with
  | nil => simp [payloadBits, hb]
  | cons c before ih =>
    simp [payloadBits, h c (by simp), ih (i + 1) fun d hd => h d (by simp [hd])]
    omega

/-! ### The queue (40_histogram_builder.md R143) -/

theorem extractMin_eq_none (q : List QEntry) : extractMin q = none ↔ q = [] := by
  cases q with
  | nil => simp [extractMin]
  | cons e es =>
    simp only [extractMin]
    split
    · simp
    · split <;> simp

/-- Extraction takes exactly one entry out of the queue. -/
theorem extractMin_perm {q rest : List QEntry} {m : QEntry} (h : extractMin q = some (m, rest)) : q.Perm (m :: rest) := by
  induction q generalizing m rest with
  | nil => simp [extractMin] at h
  | cons e es ih =>
    simp only [extractMin] at h
    split at h
    next hn => simp_all [(extractMin_eq_none es).1 hn]
    next m' rest' hs =>
      split at h
      · simp_all
      · obtain ⟨rfl, rfl⟩ : m' = m ∧ e :: rest' = rest := by simpa using h
        exact ((ih hs).cons e).trans (List.Perm.swap ..)

theorem before_total {a b : QEntry} (h : a.before b = false) : b.before a = true ∨ a = b := by
  obtain ⟨w, i⟩ := a
  obtain ⟨w', i'⟩ := b
  simp [QEntry.before] at h ⊢
  omega

theorem before_trans {a b c : QEntry} (h : a.before b = true) (h' : b.before c = true) : a.before c = true := by
  simp [QEntry.before] at *
  omega

/-- Every entry left ranks after the extracted one, or equals it. -/
theorem extractMin_least {q rest : List QEntry} {m e : QEntry} (h : extractMin q = some (m, rest)) (he : e ∈ rest) :
    m.before e = true ∨ m = e := by
  induction q generalizing m rest with
  | nil => simp [extractMin] at h
  | cons x es ih =>
    simp only [extractMin] at h
    split at h
    · simp_all
    next m' rest' hs =>
      split at h
      next hb =>
        obtain ⟨rfl, rfl⟩ : x = m ∧ es = rest := by simpa using h
        rcases List.mem_cons.1 ((extractMin_perm hs).mem_iff.1 he) with rfl | hr
        · exact .inl hb
        · rcases ih hs hr with h₁ | rfl
          · exact .inl (before_trans hb h₁)
          · exact .inl hb
      next hb =>
        obtain ⟨rfl, rfl⟩ : m' = m ∧ x :: rest' = rest := by simpa using h
        rcases List.mem_cons.1 he with rfl | hr
        · exact (before_total (by simpa using hb)).imp id Eq.symm
        · exact ih hs hr

@[simp] theorem leafQueue_length (h : Hist) (syms : List Byte) (j : Nat) : (leafQueue h syms j).length = syms.length := by
  induction syms generalizing j with
  | nil => rfl
  | cons sym syms ih => simp [leafQueue, ih]

/-- The leaves stand at `j` and after, in order; every other entry keeps its contents. -/
theorem placeLeaves_getElem? (h : Hist) (syms : List Byte) (j : Nat) (ar : Arena) (k : Nat) (hj : j + syms.length ≤ 511) :
    (placeLeaves h syms j ar)[k]? = if k < j then ar[k]? else
      match syms[k - j]? with
      | some sym => some (builtLeaf h sym)
      | none => ar[k]? := by
  induction syms generalizing j ar with
  | nil => simp [placeLeaves]
  | cons sym syms ih =>
    simp only [List.length_cons] at hj
    rw [placeLeaves, ih (j + 1) _ (by omega)]
    rcases Nat.lt_trichotomy k j with hk | rfl | hk
    · rw [if_pos (by omega), if_pos hk, arena_put_other _ _ (by omega)]
    · rw [if_pos (by omega), if_neg (by omega), arena_put_same _ _ (by omega)]; simp
    · rw [if_neg (by omega), if_neg (by omega), arena_put_other _ _ (by omega),
        show k - j = (k - (j + 1)) + 1 by omega, List.getElem?_cons_succ]

/-! ### The answers -/

@[simp] theorem mapNext_next (f : State → State) (s : State) : mapNext f (.next s) = .next (f s) := rfl

theorem mapNext_eq_next {f : State → State} {r : Result} {t : State} (h : mapNext f r = .next t) :
    ∃ s, r = .next s ∧ t = f s := by
  cases r <;> simp [mapNext] at h
  exact ⟨_, rfl, h.symm⟩

/-- A success completion or an error completion: the two ways a command ends. -/
def Ended (s t : State) : Prop :=
  (∃ s', t = complete s' ∧ s'.status.err = s.status.err) ∨ ∃ k sub info s', t = raise k sub info s'

theorem ended_succeed {s s' t : State} (h : succeed s' = .next t) (he : s'.status.err = s.status.err) : Ended s t := by
  simp only [succeed, Host.Outcome.next.injEq] at h
  exact .inl ⟨s', h.symm, he⟩

theorem ended_fail {s s' t : State} {k : ErrKind} {sub : Byte} {info : Nat} (h : fail k sub info s' = .next t) : Ended s t := by
  simp only [fail, Host.Outcome.next.injEq] at h
  exact .inr ⟨k, sub, info, s', h.symm⟩

theorem ended_emitSegment {s t : State} {body : Bits} (h : emitSegment body s = .next t) : Ended s t := by
  rcases emitSegment_cases body s with ⟨-, he⟩ | ⟨-, he⟩ <;> rw [he, Host.Outcome.next.injEq] at h
  · exact .inr ⟨_, _, _, _, h.symm⟩
  · exact .inl ⟨_, h.symm, rfl⟩

/-- After either end BUSY is 0, DONE and DONE_EVT are 1 and no command is pending (60_exceptions.md R259, R260). -/
theorem Ended.shows_done {s t : State} (h : Ended s t) :
    t.status.busy = false ∧ t.status.done = true ∧ t.irqStatus.doneEvt = true ∧ t.pending = none := by
  rcases h with ⟨s', rfl, -⟩ | ⟨k, sub, info, s', rfl⟩ <;> simp

end Sys2Proof.Machine
end

