-- ==== Sys2Proof/Laws/Commands.lean ====
section
/-! SUPPORT. How each command ends, and how each step of an agent can go: the inversion lemmas of exec and step. -/

namespace Sys2Proof.Machine

/-! ### How each command ends (60_exceptions.md R259, R260) -/

theorem execNop_ends {s t : State} (h : execNop s = .next t) : Ended s t := ended_succeed h rfl

theorem execHistClear_ends {s t : State} (h : execHistClear s = .next t) : Ended s t := ended_succeed h rfl

theorem execHistAccum_ends {s t : State} (h : execHistAccum s = .next t) : Ended s t := by
  unfold execHistAccum at h
  split at h
  · exact ended_fail h
  · split at h
    · exact ended_fail h
    · exact ended_succeed h rfl

theorem execTreeBuild_ends {s t : State} (h : execTreeBuild s = .next t) : Ended s t := by
  simp only [execTreeBuild] at h
  split at h
  · exact ended_fail h
  · exact ended_succeed h rfl

theorem execCodeGen_ends {s t : State} (h : execCodeGen s = .next t) : Ended s t := by
  unfold execCodeGen at h
  split at h
  · exact ended_fail h
  · split at h
    · simp at h
    · split at h
      · exact ended_fail h
      · exact ended_succeed h rfl

theorem execTreeSer_ends {s t : State} (h : execTreeSer s = .next t) : Ended s t := by
  unfold execTreeSer at h
  split at h
  · exact ended_fail h
  · split at h
    · simp at h
    · exact ended_emitSegment h

theorem execPayEnc_ends {s t : State} (h : execPayEnc s = .next t) : Ended s t := by
  unfold execPayEnc at h
  split at h
  · exact ended_fail h
  · split at h
    · exact ended_fail h
    · split at h
      · exact ended_fail h
      · exact ended_emitSegment h

theorem execTreeDes_ends {s t : State} (h : execTreeDes s = .next t) : Ended s t := by
  unfold execTreeDes at h
  split at h
  · exact ended_fail h
  · split at h
    · exact ended_fail h
    · dsimp only at h
      split at h
      · exact ended_fail h
      · split at h
        · exact ended_fail h
        · split at h
          · exact ended_fail h
          · exact ended_succeed h rfl

theorem decodeSingleLeaf_ends {s t : State} {sym : Byte} {p l : Nat} (h : decodeSingleLeaf sym p l s = .next t) :
    Ended s t := by
  unfold decodeSingleLeaf at h
  split at h
  · exact ended_fail h
  · split at h
    · exact ended_fail h
    · exact ended_succeed h rfl

theorem decodeWalk_ends {s t : State} {p l : Nat} (h : decodeWalk p l s = .next t) : Ended s t := by
  simp only [decodeWalk] at h
  split at h
  · simp at h
  · exact ended_fail h
  · split at h
    · exact ended_fail h
    · exact ended_succeed h rfl

theorem execPayDec_ends {s t : State} (h : execPayDec s = .next t) : Ended s t := by
  unfold execPayDec at h
  split at h
  · exact ended_fail h
  · split at h
    · exact ended_fail h
    · split at h
      · exact ended_fail h
      · dsimp only at h
        split at h
        · exact ended_fail h
        · split at h
          · exact ended_fail h
          · split at h
            · simp at h
            · split at h
              · exact decodeSingleLeaf_ends h
              · exact decodeWalk_ends h

/-- Every command that answers a next state ends in a success completion or in an error completion. -/
theorem exec_command_ends {i : Instr} {s t : State} (hi : i.isCommand = true) (h : exec i s = .next t) : Ended s t := by
  cases i with
  | nop => exact execNop_ends h
  | histClear => exact execHistClear_ends h
  | histAccum => exact execHistAccum_ends h
  | treeBuild => exact execTreeBuild_ends h
  | codeGen => exact execCodeGen_ends h
  | treeSer => exact execTreeSer_ends h
  | payEnc => exact execPayEnc_ends h
  | treeDes => exact execTreeDes_ends h
  | payDec => exact execPayDec_ends h
  | srst _ => simp [Instr.isCommand] at hi

/-! ### The step of each agent -/

/-- Everything the core can do: nothing, perform a decoded command, or report an illegal word. -/
theorem coreStep_cases (s : State) :
    (s.pending = none ∧ coreStep s = .next s) ∨
    (∃ w i, s.pending = some w ∧ decode .cmd w = .ok i ∧ coreStep s = exec i s) ∨
    (∃ w e, s.pending = some w ∧ decode .cmd w = .error e ∧ coreStep s = .next (raise .illegalCmd 0x00 w.toNat s)) := by
  unfold coreStep
  cases hp : s.pending with
  | none => exact .inl ⟨rfl, rfl⟩
  | some w =>
    cases hd : decode .cmd w with
    | ok i => exact .inr (.inl ⟨w, i, rfl, hd, by simp [hd]⟩)
    | error e => exact .inr (.inr ⟨w, e, rfl, hd, by simp [hd, illegalCommand, fail]⟩)

/-- A word written to CMD decodes to a command, never to SRST. -/
theorem decodeCmd_isCommand {w : Word} {i : Instr} (h : decode .cmd w = .ok i) : i.isCommand = true := by
  simp only [decode, decodeCmd] at h
  split at h
  · simp at h
  · split at h
    next j hj =>
      obtain rfl : j = i := by simpa using h
      unfold ofOpcode at hj
      split at hj <;> simp at hj <;> subst hj <;> rfl
    · simp at h

/-- A word written to CTRL decodes to SRST exactly when its bit 0 is 1. -/
theorem decodeCtrl_cases (w : Word) :
    (w.getLsbD 0 = true ∧ decode .ctrl w = .ok (.srst (w.toNat / 2))) ∨
    (w.getLsbD 0 = false ∧ decode .ctrl w = .error .noReset) := by
  simp only [decode, decodeCtrl]
  cases hb : w.getLsbD 0 with
  | true => exact .inl ⟨rfl, if_pos rfl⟩
  | false => exact .inr ⟨rfl, if_neg (by simp)⟩

/-- Everything a host write can do to a mapped word: a soft reset, nothing, or an idle or busy poke. -/
theorem hostWrite_cases (l : Loc) (w : Word) (s : State) :
    (l = .reg .ctrl ∧ w.getLsbD 0 = true ∧ hostWrite l w s = .next (respondFree (resetEffect s))) ∨
    (l = .reg .ctrl ∧ w.getLsbD 0 = false ∧ hostWrite l w s = .next (respondFree s)) ∨
    (l ≠ .reg .ctrl ∧ hostWrite l w s = .next (respondFree (poke l w s))) := by
  by_cases hl : l = .reg .ctrl
  · subst hl
    rcases decodeCtrl_cases w with ⟨hb, hd⟩ | ⟨hb, hd⟩
    · exact .inl ⟨rfl, hb, by simp [hostWrite, hd, exec, execSrst]⟩
    · exact .inr (.inl ⟨rfl, hb, by simp [hostWrite, hd]⟩)
  · refine .inr (.inr ⟨hl, ?_⟩)
    unfold hostWrite
    split
    · simp at hl
    · rfl

/-- Everything a host read of a mapped word can answer: its value, or an open value while a command is pending. -/
theorem hostRead_cases (l : Loc) (s : State) :
    (s.status.busy = true ∧ readableWhileBusy l = false ∧ hostRead l s = respondFree s) ∨
    ((s.status.busy = false ∨ readableWhileBusy l = true) ∧ hostRead l s = respond (peek s l) false s) := by
  unfold hostRead
  cases hb : s.status.busy <;> cases hl : readableWhileBusy l <;> simp

/-- Everything a bus access can be: refused, a host write or a host read of the word it targets. -/
theorem busAccess_cases (r : BusReq) (s : State) :
    (target s.caps r = none ∧ busAccess r s = .next (refuse s)) ∨
    (∃ l, target s.caps r = some l ∧ r.write = true ∧ busAccess r s = hostWrite l r.wdata s) ∨
    (∃ l, target s.caps r = some l ∧ r.write = false ∧ busAccess r s = .next (hostRead l s)) := by
  unfold busAccess
  cases ht : target s.caps r with
  | none => exact .inl ⟨rfl, rfl⟩
  | some l => cases hw : r.write <;> simp

/-- A bus access never stops the machine. -/
theorem busAccess_goes (r : BusReq) (s : State) : ∃ t, busAccess r s = .next t := by
  unfold busAccess
  split
  · exact ⟨_, rfl⟩
  · split
    · rcases hostWrite_cases ‹_› r.wdata s with ⟨-, -, h⟩ | ⟨-, -, h⟩ | ⟨-, h⟩ <;> exact ⟨_, h⟩
    · exact ⟨_, rfl⟩

/-- A step of the host never stops the machine. -/
theorem hostStep_goes (s : State) : ∃ t, hostStep s = .next t := by
  unfold hostStep
  split
  · exact ⟨_, rfl⟩
  · exact busAccess_goes _ _
  · split <;> exact ⟨_, rfl⟩
  · exact ⟨_, rfl⟩
  · exact ⟨_, rfl⟩

/-- A step is the host's or the core's, after the turn is passed. -/
theorem step_cases (s : State) :
    (turnOf s = .host ∧ step s = hostStep (passTurn s)) ∨ (turnOf s = .core ∧ step s = coreStep (passTurn s)) := by
  unfold step agentStep
  cases turnOf s
  · exact .inl ⟨rfl, rfl⟩
  · exact .inr ⟨rfl, rfl⟩

/-- A reset answers each register its value of 70_reset_and_hazards.md R291 and drops the pending command. -/
theorem resetEffect_shows (s : State) :
    (resetEffect s).status = Status.reset ∧ (resetEffect s).pending = none ∧ (resetEffect s).irqStatus = ⟨false, false⟩ ∧
      (resetEffect s).caps = s.caps ∧ (resetEffect s).host = s.host ∧ (resetEffect s).draws = s.draws + 1 :=
  ⟨rfl, rfl, rfl, rfl, rfl, rfl⟩

end Sys2Proof.Machine
end

