-- ==== Sys2Proof/Laws/PerInstr.lean ====
section
/-! SUPPORT. Facts of each instruction as syntax, one lemma per constructor. -/

namespace Sys2Proof.Laws.EncodesRow

/-- The rows of spec/opcode_table.json: the register a row's word is written to, and the row's mask and match. -/
def row : Instr → Port × Word × Word
  | .nop => (.cmd, 0xFFFFFFFF, 0x00000000)
  | .histClear => (.cmd, 0xFFFFFFFF, 0x00000001)
  | .histAccum => (.cmd, 0xFFFFFFFF, 0x00000002)
  | .treeBuild => (.cmd, 0xFFFFFFFF, 0x00000003)
  | .codeGen => (.cmd, 0xFFFFFFFF, 0x00000004)
  | .treeSer => (.cmd, 0xFFFFFFFF, 0x00000005)
  | .payEnc => (.cmd, 0xFFFFFFFF, 0x00000006)
  | .treeDes => (.cmd, 0xFFFFFFFF, 0x00000007)
  | .payDec => (.cmd, 0xFFFFFFFF, 0x00000008)
  | .srst _ => (.ctrl, 0x00000001, 0x00000001)

/-- The instruction's encoding is written to its row's register and matches its row, and no other command's row (a command's row
fixes every bit). -/
def Statement (i : Instr) : Prop :=
  (encode i).1 = (row i).1 ∧ (encode i).2 &&& (row i).2.1 = (row i).2.2 ∧
    ∀ j : Instr, j.isCommand = true → (row j).1 = (encode i).1 → (encode i).2 &&& (row j).2.1 = (row j).2.2 → j = i

theorem nop : Statement .nop :=
  ⟨rfl, by decide, fun j hj _ h => by cases j <;> first | rfl | exact absurd h (by decide) | simp [Instr.isCommand] at hj⟩

theorem histClear : Statement .histClear :=
  ⟨rfl, by decide, fun j hj _ h => by cases j <;> first | rfl | exact absurd h (by decide) | simp [Instr.isCommand] at hj⟩

theorem histAccum : Statement .histAccum :=
  ⟨rfl, by decide, fun j hj _ h => by cases j <;> first | rfl | exact absurd h (by decide) | simp [Instr.isCommand] at hj⟩

theorem treeBuild : Statement .treeBuild :=
  ⟨rfl, by decide, fun j hj _ h => by cases j <;> first | rfl | exact absurd h (by decide) | simp [Instr.isCommand] at hj⟩

theorem codeGen : Statement .codeGen :=
  ⟨rfl, by decide, fun j hj _ h => by cases j <;> first | rfl | exact absurd h (by decide) | simp [Instr.isCommand] at hj⟩

theorem treeSer : Statement .treeSer :=
  ⟨rfl, by decide, fun j hj _ h => by cases j <;> first | rfl | exact absurd h (by decide) | simp [Instr.isCommand] at hj⟩

theorem payEnc : Statement .payEnc :=
  ⟨rfl, by decide, fun j hj _ h => by cases j <;> first | rfl | exact absurd h (by decide) | simp [Instr.isCommand] at hj⟩

theorem treeDes : Statement .treeDes :=
  ⟨rfl, by decide, fun j hj _ h => by cases j <;> first | rfl | exact absurd h (by decide) | simp [Instr.isCommand] at hj⟩

theorem payDec : Statement .payDec :=
  ⟨rfl, by decide, fun j hj _ h => by cases j <;> first | rfl | exact absurd h (by decide) | simp [Instr.isCommand] at hj⟩

/-- No command's word is written to CTRL, so only the first two parts say something of SRST. -/
theorem srst (ignored : Nat) : Statement (.srst ignored) := by
  refine ⟨rfl, ?_, fun j hj hp _ => ?_⟩
  · apply BitVec.eq_of_toNat_eq
    change (2 * ignored + 1) % 2 ^ 32 &&& 1 = 1
    rw [Nat.and_one_is_mod]
    omega
  · cases j <;> first | (simp [row, encode] at hp; done) | simp [Instr.isCommand] at hj

end Sys2Proof.Laws.EncodesRow
end

