-- ==== Sys2Proof/Tests/Slice0.lean ====
section
/-! SUPPORT. Tests: the checks of WellFormed, the words of the encoding written out from the spec, one step of each instruction on the
spec's vectors (95_test_vectors.md, V<n>), and for each statement states that meet its hypotheses. -/

set_option Elab.async false

namespace Sys2Proof.Tests

open Sys2Proof Sys2Proof.Machine

/-! ### WellFormed refuses -/

theorem test_wf_srst_ignored_too_wide : Instr.wf (.srst (2 ^ 31)) = false := by decide

theorem test_wf_srst_widest : Instr.wf (.srst (2 ^ 31 - 1)) = true := by decide

theorem test_wf_srst_is_no_command : Instr.isCommand (.srst 0) = false := by decide

theorem test_wf_address_misaligned : Stmt.wf (.rd 0x12) = false := by decide

theorem test_wf_address_too_wide : Stmt.wf (.rd 0x1000000) = false := by decide

theorem test_wf_value_too_wide : Stmt.wf (.wr 0x24 (2 ^ 32)) = false := by decide

theorem test_wf_write_misaligned : Stmt.wf (.wr 0x26 0) = false := by decide

theorem test_wf_cmd_needs_command : Stmt.wf (.cmd (.srst 0)) = false ∧ Stmt.wf (.cmdw (.srst 0)) = false := by decide

theorem test_wf_bytes_start_misaligned : Stmt.wf (.bytes .inp 2 [0x61]) = false := by decide

theorem test_wf_bytes_too_many : Stmt.wf (.bytes .bs (2 ^ 20) [0x61]) = false := by decide

theorem test_wf_compress_count_too_wide : Stmt.wf (.compress (2 ^ 32)) = false := by decide

theorem test_wf_decompress_too_wide : Stmt.wf (.decompress (2 ^ 32) 0) = false ∧ Stmt.wf (.decompress 0 (2 ^ 32)) = false := by
  decide

/-! ### Words written out from 30_encoding.md R100 to R103 and R114 -/

theorem test_decode_nop : decode .cmd 0b00000000000000000000000000000000 = .ok .nop := by decide

theorem test_decode_histClear : decode .cmd 0b00000000000000000000000000000001 = .ok .histClear := by decide

theorem test_decode_histAccum : decode .cmd 0b00000000000000000000000000000010 = .ok .histAccum := by decide

theorem test_decode_treeBuild : decode .cmd 0b00000000000000000000000000000011 = .ok .treeBuild := by decide

theorem test_decode_codeGen : decode .cmd 0b00000000000000000000000000000100 = .ok .codeGen := by decide

theorem test_decode_treeSer : decode .cmd 0b00000000000000000000000000000101 = .ok .treeSer := by decide

theorem test_decode_payEnc : decode .cmd 0b00000000000000000000000000000110 = .ok .payEnc := by decide

theorem test_decode_treeDes : decode .cmd 0b00000000000000000000000000000111 = .ok .treeDes := by decide

theorem test_decode_payDec : decode .cmd 0b00000000000000000000000000001000 = .ok .payDec := by decide

theorem test_decode_srst : decode .ctrl 0b10000000000000000000000000000011 = .ok (.srst 0x40000001) := by decide

theorem test_decode_ctrl_without_bit0 : decode .ctrl 0b11111111111111111111111111111110 = .error .noReset := by decide

/-- V2 and V3: the first opcode past the map, and a set reserved bit. -/
theorem test_decode_illegal : decode .cmd 0x00000009 = .error .illegalOpcode ∧ decode .cmd 0x00000103 = .error .reservedBits := by
  decide

theorem test_table_word_beyond_32_bits : decodeTableWord 64 (2 ^ 32) = none := by decide

/-- 30_encoding.md R116: lanes little-endian, missing bytes 0. -/
theorem test_bytes_of_host_program :
    expand (.bytes .inp 0 [0x61, 0x62, 0x62]) = [.access ⟨0x100000, true, 0x00626261, 4⟩] := by decide

/-! ### States the tests start from -/

/-- The smallest capacities the tests need. -/
def tiny : Caps := ⟨4, 8, 8, 4⟩

/-- A byte memory with the given bytes from index 0 on. -/
def bytesMem (vs : List Byte) : ByteMem := ByteMem.empty.writeBytes 0 vs

/-- An arena with the given entries from index 0 on. -/
def arenaOf (nodes : List Node) : Arena :=
  (nodes.zipIdx).foldl (fun ar p => ar.put p.2 p.1) (State.resetWith tiny).arena

/-- After reset with small capacities, IN = "abb" with IN_LEN 3, HIST = (a 1, b 2). -/
def abb : State := { State.resetWith tiny with
  inMem := bytesMem [0x61, 0x62, 0x62]
  inLen := 3
  hist := (zeroHist.put 0x61 1).put 0x62 2 }

/-- The tree of V30, leaves a and b below a root at index 2. -/
def abTree : Tree := .node 2 (.leaf 0 0x61) (.leaf 1 0x62)

/-- `abb` with the tree of V30. -/
def abbTree : State := { abb with
  arena := arenaOf [⟨true, 0x61, 0, 0, 1⟩, ⟨true, 0x62, 0, 0, 2⟩, ⟨false, 0, 0, 1, 3⟩]
  root := 2
  nodeCount := 3
  symCount := 2
  status := { Status.reset with treeValid := true } }

/-- `abbTree` with its code table: a = "0", b = "1". -/
def abbCoded : State := { abbTree with
  lut := (absentLut.put 0x61 ⟨true, 1, 0⟩).put 0x62 ⟨true, 1, BitVec.twoPow 256 255⟩
  status := { abbTree.status with codeValid := true } }

/-- The single-leaf tree of V33 with its code table, IN = "aaaa". -/
def aaaaCoded : State := { State.resetWith tiny with
  inMem := bytesMem [0x61, 0x61, 0x61, 0x61]
  inLen := 4
  arena := arenaOf [⟨true, 0x61, 0, 0, 4⟩]
  nodeCount := 1
  symCount := 1
  lut := absentLut.put 0x61 ⟨true, 0, 0⟩
  status := { Status.reset with treeValid := true, codeValid := true, singleLeaf := true } }

/-- BS with given bytes, BS_LEN and BS_BITPTR, on a state. -/
def withStream (s : State) (vs : List Byte) (len ptr : Word) : State :=
  { s with bsMem := bytesMem vs, bsLen := len, bsBitptr := ptr }

/-- BS with the stream of E2. -/
def e2 : State := withStream (State.resetWith tiny) [0x05, 0x58, 0x6C, 0x40, 0x05, 0x60] 48 0

/-- E2 after TREE_DES: the tree of V80, BS_BITPTR at the payload segment. -/
def e2Tree : State := { e2 with
  arena := arenaOf [⟨false, 0, 1, 2, 0⟩, ⟨true, 0x61, 0, 0, 0⟩, ⟨true, 0x62, 0, 0, 0⟩]
  nodeCount := 3
  symCount := 2
  bsBitptr := 32
  status := { Status.reset with treeValid := true } }

/-- The single-leaf tree with the stream of V102 after TREE_DES. -/
def v102 : State := { withStream aaaaCoded [0x07, 0xB0, 0x80, 0x00] 32 24 with decRepeat := 4 }

/-- Two leaves both of symbol a (V44). -/
def dupTree : State := { e2 with
  arena := arenaOf [⟨false, 0, 1, 2, 0⟩, ⟨true, 0x61, 0, 0, 0⟩, ⟨true, 0x61, 0, 0, 0⟩]
  nodeCount := 3
  symCount := 2
  status := { Status.reset with treeValid := true } }

/-- What a part of the next state is, none where there is none. -/
def outcome {α : Type} (r : Result) (f : State → α) : Option α :=
  match r with
  | .next t => some (f t)
  | _ => none

/-- The first bytes of a byte memory. -/
def firstBytes (s : State) (id : MemId) (n : Nat) : List Byte := (List.range n).map (s.byteAt id)

/-- ERRCODE and ERR_INFO of a state. -/
def errorOf (s : State) : Word × Word := (regValue s .errCode, s.errInfo)

/-! ### One step of each instruction -/

/-- V1 -/
theorem test_nop : outcome (exec .nop abb) (fun t => (t.status.done, t.status.err, t.irqStatus.doneEvt)) =
    some (true, false, true) := by decide +kernel

/-- V20 -/
theorem test_histClear : outcome (exec .histClear abb) (fun t => decide (∀ b : Fin 256, t.hist[b] = 0)) = some true := by
  decide +kernel

/-- V22: a second accumulation adds. -/
theorem test_histAccum_adds : outcome (exec .histAccum abb) (fun t => (t.hist.count 0x61, t.hist.count 0x62, t.hist.count 0x63)) =
    some (2, 4, 0) := by decide +kernel

/-- V25 -/
theorem test_histAccum_overflow :
    outcome (exec .histAccum { accept 2 abb with hist := zeroHist.put 0x62 0xFFFFFFFF }) errorOf = some (0x0002620A, 1) := by
  decide +kernel

/-- V30 -/
theorem test_treeBuild_abb : outcome (exec .treeBuild abb) (fun t => (t.arena[2]?, t.root, t.nodeCount, t.symCount, t.status.treeValid)) =
    some (some ⟨false, 0, 0, 1, 3⟩, 2, 3, 2, true) := by decide +kernel

/-- V34: at equal weight 3 the leaf c (index 2) comes before NODE[4]. -/
theorem test_treeBuild_tie :
    outcome (exec .treeBuild { abb with hist := (((zeroHist.put 0x61 1).put 0x62 2).put 0x63 3).put 0x64 5 })
      (fun t => (t.arena[5]?, t.arena[6]?)) =
    some (some ⟨false, 0, 2, 4, 6⟩, some ⟨false, 0, 3, 5, 11⟩) := by decide +kernel

/-- E2: codes a = "0", b = "1", through the window words of 10_state.md R46. -/
theorem test_codeGen_abb : outcome (exec .codeGen abbTree)
      (fun t => (peek t (.codeLen 0x61), peek t (.codeBits 0x61 0), peek t (.codeLen 0x62), peek t (.codeBits 0x62 0), peek t (.codeLen 0x63))) =
    some (0x80000001, 0x00000000, 0x80000001, 0x80000000, 0) := by decide +kernel

/-- V44 -/
theorem test_codeGen_dup : outcome (exec .codeGen (accept 4 dupTree)) (fun t => (errorOf t, t.status.codeValid, t.status.treeValid)) =
    some ((0x0004610B, 2), false, true) := by decide +kernel

/-- V50 -/
theorem test_treeSer_abb : outcome (exec .treeSer abbTree) (fun t => (firstBytes t .out 4, t.outBitptr, t.segPad, t.segBits)) =
    some ([0x05, 0x58, 0x6C, 0x40], 32, 5, 32) := by decide +kernel

/-- V56, with OUT of 8 bytes. -/
theorem test_treeSer_overflow :
    outcome (exec .treeSer { accept 5 abbTree with outBitptr := 56 }) (fun t => (errorOf t, t.outBitptr, t.outMem)) =
    some ((0x00050007, 32), 56, ByteMem.empty) := by decide +kernel

/-- V60 -/
theorem test_payEnc_abb : outcome (exec .payEnc { abbCoded with outBitptr := 32 })
      (fun t => (firstBytes t .out 6, t.outBitptr, t.segPad, t.segBits)) =
    some ([0, 0, 0, 0, 0x05, 0x60], 48, 5, 16) := by decide +kernel

/-- V69 -/
theorem test_payEnc_unknown :
    outcome (exec .payEnc { accept 6 abbCoded with inMem := bytesMem [0x61, 0x62, 0x63, 0x62], inLen := 4 })
      (fun t => (errorOf t, t.outBitptr)) = some ((0x00066304, 2), 0) := by decide +kernel

/-- V80 -/
theorem test_treeDes_abb : outcome (exec .treeDes e2) (fun t => (t.arena[0]?, t.arena[1]?, t.arena[2]?, t.bsBitptr, t.segPad)) =
    some (some ⟨false, 0, 1, 2, 0⟩, some ⟨true, 0x61, 0, 0, 0⟩, some ⟨true, 0x62, 0, 0, 0⟩, 32, 5) := by decide +kernel

/-- V83 -/
theorem test_treeDes_truncated :
    outcome (exec .treeDes (accept 7 (withStream (State.resetWith tiny) [0x05, 0x58] 16 0))) (fun t => (errorOf t, t.status.treeValid)) =
    some ((0x00070303, 10), false) := by decide +kernel

/-- V100 -/
theorem test_payDec_abb : outcome (exec .payDec e2Tree) (fun t => (firstBytes t .dec 4, t.decLen, t.bsBitptr, t.segPad, t.segBits)) =
    some ([0x61, 0x62, 0x62, 0], 3, 48, 5, 16) := by decide +kernel

/-- V115, with DEC_CAP 2: the third symbol is completed by bit 42. -/
theorem test_payDec_overflow : outcome (exec .payDec { accept 8 e2Tree with caps := { tiny with decCap := 2 } }) errorOf =
    some (0x00080108, 42) := by decide +kernel

/-- V13: a reset in the middle of a command leaves no event and nothing pending. -/
theorem test_srst_discards_pending : outcome (exec (.srst 0) (accept 3 abb)) (fun t => (t.pending, t.status, t.irqStatus, t.cmd)) =
    some (none, Status.reset, ⟨false, false⟩, 0) := by decide +kernel

/-- V3 through the core's step. -/
theorem test_illegal_word : outcome (coreStep (accept 0x103 abb)) errorOf = some (0x00030001, 0x103) := by decide +kernel

/-- V12 (a): a CMD write while a command is pending is dropped and sets OVR. -/
theorem test_busy_write_dropped : outcome (busAccess ⟨0x00000C, true, 0, 4⟩ (accept 1 abb)) (fun t => (t.status.ovr, t.cmd)) =
    some (true, 1) := by decide +kernel

/-- V6 and V7, and a write to V5's unmapped address (92_eei_decisions.md D3, part 4: rdata 0 too). -/
theorem test_bus_errors : outcome (busAccess ⟨0x000060, true, 7, 4⟩ (accept 3 abb)) (fun t => (t.resp, t.status.ovr)) =
      some (some ⟨0, true⟩, false) ∧
    outcome (busAccess ⟨0x000012, false, 0, 4⟩ abb) State.resp = some (some ⟨0, true⟩) ∧
    outcome (busAccess ⟨0x009FF0, false, 0, 4⟩ abb) State.resp = some (some ⟨0, true⟩) := by decide +kernel

/-- V10 -/
theorem test_byte_lanes : outcome (busAccess ⟨0x100000, true, 0x00626261, 4⟩ (State.resetWith tiny)) (fun t => firstBytes t .inp 4) =
    some [0x61, 0x62, 0x62, 0x00] := by decide +kernel

/-- V31: NODE[2] at 0x8020, words 0 to 3. -/
theorem test_node_window : (List.range 4).map (fun w => peek abbTree (.node 2 w)) = [0x00000000, 0x00010000, 0x00000003, 0] := by
  decide +kernel

/-- The host's placing of a table word: the next step of the machine after reset runs it. -/
theorem test_withFetchWord_runs :
    (outcome (step (State.reset.withFetchWord 32 3)) errorOf, outcome (step (State.reset.withFetchWord 32 0x102)) errorOf) =
    (some (0x00030002, 0), some (0x00020001, 0x102)) := by decide +kernel

/-! ### States that meet the hypotheses of the statements -/

/-- The next state of an answer, `State.reset` where there is none. -/
def stateOf (r : Result) : State :=
  match r with
  | .next t => t
  | _ => State.reset

theorem next_stateOf {r : Result} (h : outcome r (fun _ => true) = some true) : r = .next (stateOf r) := by
  cases r <;> simp [outcome, stateOf] at h ⊢

/-- A host request of a write. -/
def wr (addr : BitVec 24) (v : Word) : BusReq := ⟨addr, true, v, 4⟩

/-- A host request of a read. -/
def rd (addr : BitVec 24) : BusReq := ⟨addr, false, 0, 4⟩

theorem witness_DecodeOfEncode : Instr.wf (.srst (2 ^ 31 - 1)) = true ∧ Instr.wf .payDec = true := by decide

theorem witness_EncodeOfDecode : decode .cmd 8 = .ok .payDec ∧ decode .ctrl 0xFFFFFFFF = .ok (.srst (2 ^ 31 - 1)) := by decide

theorem witness_IllegalWordsAreReported :
    (abb.status.busy = false ∧ (wr 0xC 9).write = true ∧ target abb.caps (wr 0xC 9) = some (.reg .cmd)) ∧
    ((accept 9 abb).pending = some 9 ∧ 8 < (9 : Word).toNat) ∧ ((accept 0xFFFFFFFF abb).pending = some 0xFFFFFFFF) := by
  decide +kernel

theorem witness_IllegalWordsAreReported_step : turnOf (accept 9 abb) = .core ∧ (accept 9 abb).pending = some 9 := by decide +kernel

theorem witness_StepPerformsPendingCommand :
    (turnOf (accept 6 abb) = .core ∧ (accept 6 abb).pending = some 6 ∧ decode .cmd 6 = .ok .payEnc) ∧
    (turnOf { abb with sched := [.core] } = .core ∧ abb.pending = none) := by decide +kernel

theorem witness_StepRunsHostAccess :
    (turnOf { abb with host := [.access (wr 8 3)] } = .host ∧ (wr 8 3).write = true ∧ (wr 8 3).size = 4 ∧ (wr 8 3).addr = 0x000008 ∧
      (wr 8 3).wdata.getLsbD 0 = true ∧ decode .ctrl (wr 8 3).wdata = .ok (.srst 1)) ∧
    (turnOf { accept 3 abb with host := [.access (wr 8 2)], sched := [.host] } = .host ∧ (wr 8 2).wdata.getLsbD 0 = false) ∧
    turnOf { abb with host := [.access (rd 0x100000)] } = .host := by
  decide +kernel

theorem witness_IdleMachineStaysAsItIs : State.reset.host = [] ∧ State.reset.sched = [] ∧ State.reset.pending = none := by
  decide +kernel

theorem witness_PendingCommandIsPerformed : ({ accept 3 abb with sched := [.host, .host] } : State).pending.isSome = true := by
  decide +kernel

theorem witness_HardwareResetActsAsSoftReset :
    let s : State := { accept 3 abb with host := [.rstN], sched := [.host] };
    s.host = .rstN :: [] ∧ turnOf s = .host := by decide +kernel

theorem witness_CommandsLeaveHostRegisters :
    Instr.isCommand .payEnc = true ∧ ∃ t, exec .payEnc abbCoded = .next t :=
  ⟨by decide, _, next_stateOf (by decide +kernel)⟩

theorem witness_FailedCommandsKeepRegisters :
    Instr.isCommand .treeSer = true ∧ abb.status.err = false ∧ ∃ t, exec .treeSer abb = .next t ∧ t.status.err = true :=
  ⟨by decide, by decide +kernel, _, next_stateOf (by decide +kernel), by decide +kernel⟩

theorem witness_RefusedAccessesChangeNothing :
    ¬ Admitted tiny (rd 0x400004) ∧ ¬ Admitted tiny (rd 0x12) ∧ ¬ Admitted tiny ⟨0x10, false, 0, 2⟩ ∧
      Admitted tiny (rd 0x400000) ∧ Admitted tiny (rd 0x9FEC) ∧
      (target tiny (wr 0x5C 7) = some (.reg .capDec) ∧ (wr 0x5C 7).write = true ∧ readOnly (.reg .capDec) = true) := by
  refine ⟨?_, ?_, ?_, ?_, ?_, by decide⟩ <;> simp [Admitted, Mapped, rd, tiny]

theorem witness_AddressMapPlacesWindows :
    Caps.Legal ⟨4, 4, 4, 4⟩ ∧ Caps.Legal ⟨1048576, 1048576, 1048576, 1048576⟩ ∧ Caps.Legal tiny ∧ 4 * 1 < tiny.cap .bs := by decide

theorem witness_IdleReadAnswersValue :
    abb.status.busy = false ∧ (rd 0x40000C).write = false ∧ target Config.caps (rd 0x400FFC) = some (.mem .dec 0xFFC) ∧
      target abb.caps (rd 0x9FEC) = some (.node 510 3) ∧
      (target abb.caps (rd 0x24) = some (.reg .inLen) ∧ wordOfRegister abb .inLen = some 3) := by decide +kernel

/-- The words of V1's and E2's registers, the narrow ones with zeros above. -/
theorem witness_RegisterValuesShowFields :
    wordOfRegister abbTree .root = some 2 ∧ wordOfRegister abbTree .symCount = some 2 ∧ wordOfRegister abb .capIn = some 4 := by
  decide +kernel

theorem witness_BusyReadAnswersListedRegisters :
    (accept 3 abb).status.busy = true ∧ (rd 0x10).write = false ∧
    (target abb.caps (rd 0x10) = some (.reg .status) ∧ definedWhileBusy (.reg .status) = true) ∧
    (target abb.caps (rd 0xC) = some (.reg .cmd) ∧ definedWhileBusy (.reg .cmd) = true ∧ wordOfRegister (accept 3 abb) .cmd = some 3) ∧
    (target abb.caps (rd 0x28) = some (.reg .outBitptr) ∧ definedWhileBusy (.reg .outBitptr) = false) := by decide +kernel

theorem witness_BusyWritesAreDropped :
    (accept 3 abb).status.busy = true ∧ (wr 0xC 0).write = true ∧ target abb.caps (wr 0xC 0) = some (.reg .cmd) ∧
      writableWhileBusy (.reg .cmd) = false := by decide +kernel

theorem witness_ControlWritesActBusyOrIdle :
    (wr 0x10 0x100).write = true ∧ target abb.caps (wr 0x10 0x100) = some (.reg .status) ∧
    target abb.caps (wr 0x20 3) = some (.reg .irqStatus) ∧ target abb.caps (wr 0x1C 3) = some (.reg .irqEn) ∧
    (target abb.caps (wr 0x8 3) = some (.reg .ctrl) ∧ (wr 0x8 3).wdata.getLsbD 0 = true) ∧
    (target abb.caps (wr 0x8 2) = some (.reg .ctrl) ∧ (wr 0x8 2).wdata.getLsbD 0 = false) := by decide +kernel

theorem witness_IdleWritesSetRegisters :
    abb.status.busy = false ∧ (wr 0x24 5).write = true ∧
    target abb.caps (wr 0x24 5) = some (.reg .inLen) ∧ target abb.caps (wr 0x28 5) = some (.reg .outBitptr) ∧
    target abb.caps (wr 0x2C 5) = some (.reg .bsLen) ∧ target abb.caps (wr 0x30 5) = some (.reg .bsBitptr) ∧
    target abb.caps (wr 0x38 5) = some (.reg .decRepeat) ∧
    (target abb.caps (wr 0x5C 5) = some (.reg .capDec) ∧ readOnly (.reg .capDec) = true) := by decide +kernel

theorem witness_AcceptanceStartsCommand :
    abb.status.busy = false ∧ (wr 0xC 3).write = true ∧ target abb.caps (wr 0xC 3) = some (.reg .cmd) := by decide +kernel

theorem witness_MemoryWindowLanes :
    (abb.mem .out).wf (abb.caps.cap .out) = true ∧ abb.status.busy = false ∧
      target abb.caps (wr 0x200004 0xFFFFFFFF) = some (.mem .out 4) ∧ (wr 0x200004 0xFFFFFFFF).write = true := by decide +kernel

theorem witness_RegistersAfterReset :
    (rd 0x5C).write = false ∧ (rd 0x5C).size = 4 ∧ (rd 0x5C).addr = BitVec.ofNat 24 (registerOffset .capDec) := by decide

/-- The last counter's word. -/
theorem witness_HistWindowReadsAndWrites :
    abb.status.busy = false ∧ (wr 0x13FC 1).size = 4 ∧ (wr 0x13FC 1).addr = BitVec.ofNat 24 (0x1000 + 4 * (0xFF : Byte).toNat) ∧
      (rd 0x13FC).write = false ∧ (wr 0x13FC 1).write = true := by decide +kernel

/-- The last entry's last word, and V31's words of NODE[2]. -/
theorem witness_NodeWindowShowsEntries :
    abbTree.status.busy = false ∧ abbTree.arena[510]? = some zeroNode ∧ abbTree.arena[2]? = some ⟨false, 0, 0, 1, 3⟩ ∧
      (rd 0x9FEC).addr = BitVec.ofNat 24 (0x8000 + 16 * 510 + 4 * 3) ∧ (wr 0x8020 1).addr = BitVec.ofNat 24 (0x8000 + 16 * 2 + 4 * 0) ∧
      (rd 0x9FEC).write = false ∧ (wr 0x8020 1).write = true := by decide +kernel

theorem witness_LutWindowsShowCodes :
    abbCoded.status.busy = false ∧ (rd 0x23FC).addr = BitVec.ofNat 24 (0x2000 + 4 * (0xFF : Byte).toNat) ∧
      (rd 0x5FFC).addr = BitVec.ofNat 24 (0x4000 + 32 * (0xFF : Byte).toNat + 4 * 7) ∧ (rd 0x5FFC).size = 4 ∧
      (rd 0x5FFC).write = false ∧ (wr 0x5FFC 1).write = true := by decide +kernel

theorem witness_HostPseudoInstructions :
    Instr.isCommand .nop = true ∧ Instr.isCommand .payDec = true ∧ 1 < ([1, 2, 3, 4, 5] : List Byte).length.add 3 / 4 ∧
    (turnOf { accept 3 abb with host := [.waitIdle], sched := [.host] } = .host ∧ (accept 3 abb).status.busy = true) ∧
    (turnOf { abb with host := [.waitIdle] } = .host ∧ abb.status.busy = false) ∧
    (turnOf { raise .noTree 0 0 abb with host := [.stopIfErr 1, .waitIdle, .rstN] } = .host ∧ (raise .noTree 0 0 abb).status.err = true) ∧
    (turnOf { abb with host := [.stopIfErr 1, .waitIdle] } = .host ∧ abb.status.err = false) := by decide +kernel

theorem witness_HostWritesKeepTreeAndTable :
    (wr 0x1184 7).write = true ∧ (∃ t, busAccess (wr 0x1184 7) abbCoded = .next t) ∧
      ¬ (target abbCoded.caps (wr 0x1184 7) = some (.reg .ctrl) ∧ (wr 0x1184 7).wdata.getLsbD 0 = true) :=
  ⟨by decide, ⟨_, next_stateOf (by decide +kernel)⟩, by decide +kernel⟩

/-- IN_LEN at its capacity, a counter filled to 2^32 - 1 exactly. -/
theorem witness_HistAccumCounts :
    aaaaCoded.inLen.toNat ≤ aaaaCoded.caps.inCap ∧
      ∀ b : Byte, ((zeroHist.put 0x61 0xFFFFFFFB).count b).toNat + (inputBytes aaaaCoded).count b < 2 ^ 32 := by decide +kernel

theorem witness_HistAccumErrors :
    (aaaaCoded.caps.inCap < ({ aaaaCoded with inLen := 5 } : State).inLen.toNat) ∧
    (aaaaCoded.inLen.toNat ≤ aaaaCoded.caps.inCap ∧ inputBytes aaaaCoded = [0x61, 0x61, 0x61, 0x61] ∧
      ((zeroHist.put 0x61 0xFFFFFFFD).count 0x61).toNat + ((inputBytes aaaaCoded).take 2).count 0x61 = 2 ^ 32 - 1 ∧
      ∀ j < 2, ((zeroHist.put 0x61 0xFFFFFFFD).count 0x61).toNat + ((inputBytes aaaaCoded).take j).count 0x61 < 2 ^ 32 - 1) := by
  decide +kernel

theorem witness_TreeBuildOfNothingIsEmptyInput : ∀ b : Byte, (State.resetWith tiny).hist.count b = 0 := count_zeroHist

/-- All 256 symbols in ascending order. -/
def allSymbols : List Byte := (List.range 256).map (BitVec.ofNat 8)

theorem mem_allSymbols (b : Byte) : b ∈ allSymbols := List.mem_map.2 ⟨b.toNat, List.mem_range.2 b.isLt, by simp⟩

/-- Two nonzero counters, one, and all 256. -/
theorem witness_TreeBuildLeavesAndRegisters :
    (∀ b : Byte, b ∈ [(0x61 : Byte), 0x62] ↔ abb.hist.count b ≠ 0) ∧
    (∀ b : Byte, b ∈ [(0xFF : Byte)] ↔ (zeroHist.put 0xFF 1).count b ≠ 0) ∧
    (allSymbols.Pairwise (fun a b => a.toNat < b.toNat) ∧
      ∀ b : Byte, b ∈ allSymbols ↔ Hist.count (Vector.replicate 256 1) b ≠ 0) := by
  refine ⟨fun b => ?_, fun b => ?_, ?_, fun b => ?_⟩
  · simp only [abb, count_put, count_zeroHist, List.mem_cons, List.not_mem_nil, or_false]
    rw [eq_comm (a := b), eq_comm (a := b)]
    split
    · simp_all
    · split <;> simp_all
  · simp only [count_put, count_zeroHist, List.mem_singleton]
    split <;> simp_all [eq_comm]
  · refine List.pairwise_map.2 (List.pairwise_lt_range.imp_of_mem fun ha hb h => ?_)
    rw [List.mem_range] at ha hb
    simpa [Nat.mod_eq_of_lt ha, Nat.mod_eq_of_lt hb] using h
  · simp [mem_allSymbols, Hist.count]

theorem witness_TreeBuildMergesTheTwoLeast :
    [(0x61 : Byte), 0x62].Pairwise (fun a b => a.toNat < b.toNat) ∧ (∀ b : Byte, b ∈ [(0x61 : Byte), 0x62] ↔ abb.hist.count b ≠ 0) ∧
      2 = [(0x61 : Byte), 0x62].length ∧ 1 ≤ 2 ∧ (1 ≤ 256 ∧ 256 = allSymbols.length) :=
  ⟨by decide, witness_TreeBuildLeavesAndRegisters.1, rfl, by decide, by decide, by simp [allSymbols]⟩

theorem witness_TreeBuildMakesFullTree : abb.hist.count 0x61 ≠ 0 := by decide +kernel

theorem abbTree_holds : HoldsTree abbTree abTree := by unfold HoldsTree; decide +kernel

theorem code_of_left : entryOfCode [false] = ⟨true, 1, 0⟩ := by decide +kernel

theorem code_of_right : entryOfCode [true] = ⟨true, 1, BitVec.twoPow 256 255⟩ := by decide +kernel

theorem code_of_root : entryOfCode [] = ⟨true, 0, 0⟩ := by decide +kernel

theorem abbCoded_table : codeTable abTree = .ok abbCoded.lut := by
  have h : ∀ e, (absentLut.put 0x61#8 e).entry 0x62#8 = absentEntry := fun e => by
    rw [entry_put_other _ _ (by decide), entry_absentLut]
  simp [codeTable, abTree, Tree.leafCodes, fillLut, h, absentEntry, code_of_left, code_of_right, abbCoded]

theorem aaaaCoded_table : codeTable (.leaf 0 0x61) = .ok aaaaCoded.lut := by
  simp [codeTable, Tree.leafCodes, fillLut, absentEntry, code_of_root, aaaaCoded]

theorem leafAt_a : LeafAt abbTree.arena abbTree.root [false] 0x61 :=
  ⟨0, ⟨true, 0x61, 0, 0, 1⟩, by decide +kernel, by decide +kernel, rfl, rfl⟩

theorem witness_CodeGenWritesPaths :
    abbTree.status.treeValid = true ∧ HoldsTree abbTree abTree ∧ ((abTree.leafCodes []).map LeafCode.sym).Nodup ∧
      LeafAt abbTree.arena abbTree.root [false] 0x61 :=
  ⟨by decide +kernel, abbTree_holds, by decide, leafAt_a⟩

theorem witness_CodeGenErrors :
    abb.status.treeValid = false ∧
    (dupTree.status.treeValid = true ∧ currentTree dupTree = some (.node 0 (.leaf 1 0x61) (.leaf 2 0x61)) ∧
      Tree.leafCodes (.node 0 (.leaf 1 0x61) (.leaf 2 0x61)) [] = [⟨1, 0x61, [false]⟩] ++ ⟨2, 0x61, [true]⟩ :: [] ∧
      ([(⟨1, 0x61, [false]⟩ : LeafCode)].map LeafCode.sym).Nodup ∧
      (0x61 : Byte) ∈ [(⟨1, 0x61, [false]⟩ : LeafCode)].map LeafCode.sym) := by decide +kernel

theorem witness_CodesArePrefixFree :
    abbTree.status.treeValid = true ∧ HoldsTree abbTree abTree ∧ ∃ t, exec .codeGen abbTree = .next t ∧
      t.status.codeValid = true ∧ (0x61 : Byte) ≠ 0x62 ∧ (t.lut.entry 0x61).present = true ∧ (t.lut.entry 0x62).present = true :=
  ⟨by decide +kernel, abbTree_holds, _, next_stateOf (by decide +kernel), by decide +kernel⟩

/-- The segment ends at the last bit of OUT. -/
theorem witness_PayEncPacksCodes :
    let s : State := { abbCoded with outBitptr := 48 }
    s.caps.Legal ∧ s.outMem.wf s.caps.outCap = true ∧ s.inLen.toNat ≤ s.caps.inCap ∧ s.status.codeValid = true ∧
      (∀ b ∈ inputBytes s, (s.lut.entry b).present = true) ∧
      [false, true, true] = (inputBytes s).flatMap (fun b => lutBits (s.lut.entry b)) ∧ 5 < 8 ∧
      ([false, true, true].length + 5) % 8 = 0 ∧
      s.outBitptr.toNat + (8 + [false, true, true].length + 5) ≤ 8 * s.caps.outCap := by decide +kernel

theorem witness_PayEncErrors :
    (abb.caps.inCap < ({ abb with inLen := 5 } : State).inLen.toNat) ∧
    (abbTree.inLen.toNat ≤ abbTree.caps.inCap ∧ abbTree.status.codeValid = false) ∧
    (let s : State := { abbCoded with inMem := bytesMem [0x61, 0x62, 0x63], inLen := 3 };
      s.inLen.toNat ≤ s.caps.inCap ∧ s.status.codeValid = true ∧ inputBytes s = [0x61, 0x62, 0x63] ∧
        (s.lut.entry 0x63).present = false ∧ (s.lut.entry 0x61).present = true ∧ (s.lut.entry 0x62).present = true) ∧
    (let s : State := { abbCoded with outBitptr := 49 };
      s.inLen.toNat ≤ s.caps.inCap ∧ s.status.codeValid = true ∧ (∀ b ∈ inputBytes s, (s.lut.entry b).present = true) ∧
        3 = ((inputBytes s).map fun b => (s.lut.entry b).len.toNat).sum ∧ 5 < 8 ∧ (3 + 5) % 8 = 0 ∧
        8 * s.caps.outCap < s.outBitptr.toNat + (8 + 3 + 5)) := by decide +kernel

theorem witness_SingleLeafPayloadIsZeroByte :
    let s : State := { aaaaCoded with outBitptr := 56 }
    s.caps.Legal ∧ s.outMem.wf s.caps.outCap = true ∧ s.inLen.toNat ≤ s.caps.inCap ∧ s.status.codeValid = true ∧
      (∀ b ∈ inputBytes s, (s.lut.entry b).present = true ∧ (s.lut.entry b).len = 0) ∧
      s.outBitptr.toNat + 8 ≤ 8 * s.caps.outCap := by decide +kernel

/-- The segment ends at the last bit of OUT. -/
theorem witness_TreeSerWritesSegment :
    let s : State := { abbTree with outBitptr := 32 }
    s.caps.Legal ∧ s.outMem.wf s.caps.outCap = true ∧ s.status.treeValid = true ∧ currentTree s = some abTree ∧ 5 < 8 ∧
      (abTree.serBits.length + 5) % 8 = 0 ∧ s.outBitptr.toNat + (8 + abTree.serBits.length + 5) ≤ 8 * s.caps.outCap := by
  decide +kernel

theorem witness_TreeSerErrors :
    abb.status.treeValid = false ∧
    (let s : State := { abbTree with outBitptr := 33 };
      s.status.treeValid = true ∧ currentTree s = some abTree ∧ 5 < 8 ∧ (abTree.serBits.length + 5) % 8 = 0 ∧
        8 * s.caps.outCap < s.outBitptr.toNat + (8 + abTree.serBits.length + 5)) := by decide +kernel

/-- E2, and V92 with padding bits that are not zero. -/
theorem witness_TreeDesRebuildsTree :
    e2.caps.Legal ∧ abTree.size ≤ 511 ∧ HoldsTreeSegment e2 abTree 5 (zeros 5) ∧
      HoldsTreeSegment (withStream e2 [0x05, 0x58, 0x6C, 0x5F] 32 0) abTree 5 [true, true, true, true, true] := by
  unfold HoldsTreeSegment; decide +kernel

theorem witness_TreeDesHeaderErrors :
    (8 * tiny.bsCap < (withStream abb [] 65 0).bsLen.toNat) ∧
    (let s := withStream abb [0x05] 7 0;
      s.bsLen.toNat ≤ 8 * s.caps.bsCap ∧ s.bsLen.toNat < s.bsBitptr.toNat + 8) ∧
    (let s := withStream abb [0x08] 8 0;
      s.bsLen.toNat ≤ 8 * s.caps.bsCap ∧ s.bsBitptr.toNat + 8 ≤ s.bsLen.toNat ∧
        7 < uint (s.bsMem.bits .bs s.bsBitptr.toNat 8)) := by decide +kernel

/-- V85, V86, V83 (the leaf's symbol is cut, ERR_INFO 8 + 1 + 1 = 10), and the same stream cut before its third tag, at offset 10. -/
theorem witness_TreeDesBodyErrors :
    (let s := withStream abb [0x04, 0x58, 0x6C, 0x40] 32 0;
      s.bsLen.toNat ≤ 8 * s.caps.bsCap ∧ 0 + 8 ≤ s.bsLen.toNat ∧ 4 = uint (s.bsMem.bits .bs 0 8) ∧ abTree.size ≤ 511 ∧
        0 + 8 + abTree.serBits.length ≤ s.bsLen.toNat ∧ s.bsMem.bits .bs (0 + 8) abTree.serBits.length = abTree.serBits ∧
        (abTree.serBits.length + 4) % 8 ≠ 0) ∧
    (let s := withStream abb [0x05, 0x58, 0x6C, 0x40] 31 0;
      s.bsLen.toNat ≤ 8 * s.caps.bsCap ∧ 0 + 8 ≤ s.bsLen.toNat ∧ 5 = uint (s.bsMem.bits .bs 0 8) ∧
        0 + 8 + abTree.serBits.length ≤ s.bsLen.toNat ∧ s.bsMem.bits .bs (0 + 8) abTree.serBits.length = abTree.serBits ∧
        (abTree.serBits.length + 5) % 8 = 0 ∧ s.bsLen.toNat < 0 + 8 + abTree.serBits.length + 5) ∧
    (abTree.tagOffsets 0 = [0, 1, 10] ∧ (abTree.tagOffsets 0)[511]? = none ∧ abTree.serBits[1]? = some true) ∧
    (let s := withStream abb [0x05, 0x58] 16 0;
      s.bsLen.toNat ≤ 8 * s.caps.bsCap ∧ 0 + 8 ≤ s.bsLen.toNat ∧ 5 = uint (s.bsMem.bits .bs 0 8) ∧ 0 + 8 + 8 = s.bsLen.toNat ∧
        8 < abTree.serBits.length ∧ s.bsMem.bits .bs (0 + 8) 8 = abTree.serBits.take 8 ∧ 1 < 8 ∧ 8 < 1 + 9) ∧
    (let s := withStream abb [0x05, 0x58, 0x6C] 18 0;
      0 + 8 + 10 = s.bsLen.toNat ∧ 10 < abTree.serBits.length ∧ s.bsMem.bits .bs (0 + 8) 10 = abTree.serBits.take 10) := by
  decide +kernel

/-- A tree of `n` internal nodes, each the left child of the one before: its body begins with `n` zeros. -/
def spine : Nat → Tree
  | 0 => .leaf 0 0
  | n + 1 => .node 0 (spine n) (.leaf 0 0)

theorem spine_length (n : Nat) : (spine n).serBits.length = 10 * n + 9 := by
  induction n with
  | zero => rfl
  | succ n ih => simp [spine, Tree.serBits, ih]; omega

theorem spine_zeros {n k : Nat} (h : k ≤ n) : (spine n).serBits.take k = zeros k := by
  induction n generalizing k with
  | zero => obtain rfl : k = 0 := by omega
            rfl
  | succ n ih =>
    cases k with
    | zero => rfl
    | succ k =>
      have hl : k ≤ (spine n).serBits.length := by rw [spine_length]; omega
      rw [spine, Tree.serBits, List.take_succ_cons, List.take_append_of_le_length hl, ih (by omega)]
      rfl

theorem spine_tags {n k : Nat} (o : Nat) (h : k ≤ n) : ((spine n).tagOffsets o)[k]? = some (o + k) := by
  induction n generalizing k o with
  | zero => obtain rfl : k = 0 := by omega
            rfl
  | succ n ih =>
    cases k with
    | zero => rfl
    | succ k =>
      have hk := ih (o + 1) (k := k) (by omega)
      rw [spine, Tree.tagOffsets, List.getElem?_cons_succ, List.getElem?_append_left (List.getElem?_eq_some_iff.1 hk).1, hk,
        show o + 1 + k = o + (k + 1) by omega]

/-- A BS of zeros only, with BS_LEN as given. -/
def zeroStream (len : Word) : State := { State.reset with bsLen := len }

theorem zeroStream_zeros (len : Word) (k n : Nat) : (zeroStream len).bsMem.bits .bs k n = zeros n := by
  apply List.ext_getElem (by simp)
  intro j h₁ h₂
  have hb : (zeroStream len).bsMem.bit .bs (k + j) = false := by
    simp [zeroStream, State.reset, State.resetWith, ByteMem.bit, ByteMem.read, ByteMem.empty, cellAt, ByteMem.unlisted,
      Config.unwrittenByte, byteBit]
  rw [bits_getElem, hb]
  exact (List.getElem_replicate ..).symm

/-- 400 zero tags and then BS_LEN, in a tree of 1201 nodes: the 401st tag, at offset 400, is missing, before the 512th. -/
theorem witness_TreeDesBodyErrors_cut :
    0 + 8 + 400 = (zeroStream 408).bsLen.toNat ∧ 400 < (spine 600).serBits.length ∧
      (zeroStream 408).bsMem.bits .bs (0 + 8) 400 = (spine 600).serBits.take 400 ∧
      ((spine 600).tagOffsets 0)[400]? = some (0 + 400) ∧ ((spine 600).tagOffsets 0)[511]? = some (0 + 511) :=
  ⟨by decide +kernel, by rw [spine_length]; omega, by rw [zeroStream_zeros, spine_zeros (by omega)], spine_tags 0 (by omega),
    spine_tags 0 (by omega)⟩

/-- 600 zero tags and then BS_LEN: the 512th tag, at offset 511, has no room in the arena. -/
theorem witness_TreeDesBodyErrors_full_arena :
    ((spine 600).tagOffsets 0)[511]? = some (0 + 511) ∧ 0 + 8 + 511 < (zeroStream 608).bsLen.toNat ∧
      (zeroStream 608).bsMem.bits .bs (0 + 8) 511 = (spine 600).serBits.take 511 :=
  ⟨spine_tags 0 (by omega), by decide +kernel, by rw [zeroStream_zeros, spine_zeros (by omega)]⟩

/-- A tree of `n` internal nodes, each with a leaf to its left. -/
def comb : Nat → Tree
  | 0 => .leaf 0 0
  | n + 1 => .node 0 (.leaf 0 0) (comb n)

/-- A BS of nothing but zero bits and a tree body from bit 8 on: pad count 0. -/
def bodyMem (tr : Tree) : ByteMem := ByteMem.empty.setBits .bs 8 tr.serBits

theorem bodyMem_body (tr : Tree) : (bodyMem tr).bits .bs (0 + 8) tr.serBits.length = tr.serBits := bits_setBits .bs _ 8 rfl

theorem bodyMem_pad (tr : Tree) : (bodyMem tr).bits .bs 0 8 = zeros 8 := by
  apply List.ext_getElem (by simp)
  intro j h₁ h₂
  have hj : j < 8 := by simpa using h₁
  rw [bits_getElem, bodyMem, bit_setBits_out .bs _ _ _ rfl (.inl (by omega))]
  simp [ByteMem.bit, ByteMem.read, ByteMem.empty, cellAt, ByteMem.unlisted, Config.unwrittenByte, byteBit]
  exact List.getElem_replicate ..

/-- BS holds the body of a comb and nothing else, and BS_LEN is as given. -/
def combState (n : Nat) (len : Word) : State := { State.reset with bsMem := bodyMem (comb n), bsLen := len }

theorem combState_body (n : Nat) (len : Word) :
    (combState n len).bsMem.bits .bs (0 + 8) (comb n).serBits.length = (comb n).serBits := bodyMem_body (comb n)

theorem combState_pad (n : Nat) (len : Word) : 0 = uint ((combState n len).bsMem.bits .bs 0 8) :=
  (congrArg uint (bodyMem_pad (comb n))).symm

theorem comb_tags {n k : Nat} (o : Nat) (h : k < n) : ((comb n).tagOffsets o)[2 * k + 1]? = some (o + 10 * k + 1) := by
  induction n generalizing k o with
  | zero => omega
  | succ n ih =>
    cases k with
    | zero => rfl
    | succ k =>
      have hk := ih (o + 1 + (9 : Nat)) (k := k) (by omega)
      rw [show 2 * (k + 1) + 1 = 2 * k + 1 + 1 + 1 by omega, show o + 10 * (k + 1) + 1 = o + 1 + 9 + 10 * k + 1 by omega]
      exact hk

/-- V89: 256 internal nodes and 257 leaves, the 512th tag at offset 2551 of the body (ERR_INFO 2559); the stream's bits are those of
`combState_body` and `combState_pad`. -/
theorem witness_TreeDesBodyErrors_arena :
    (combState 256 2584).bsLen.toNat ≤ 8 * (combState 256 2584).caps.bsCap ∧ 0 + 8 ≤ (combState 256 2584).bsLen.toNat ∧
      ((comb 256).tagOffsets 0)[2 * 255 + 1]? = some (0 + 10 * 255 + 1) ∧ 0 + 8 + 2551 < (combState 256 2584).bsLen.toNat :=
  ⟨by decide +kernel, by decide +kernel, comb_tags 0 (by omega), by decide +kernel⟩

/-- The boundary on the other side: a tree of 511 nodes, the most TREE_DES takes. -/
theorem witness_TreeDesBodyErrors_full : (comb 255).size = 511 ∧ (comb 255).serBits.length = 2559 := by decide +kernel

/-- The decoding side holds another tree; OUT and BS are used to their last bit. -/
theorem witness_TreeCodecRoundTrip :
    let s : State := { abbTree with outBitptr := 32 }
    let d := withStream aaaaCoded [0, 0, 0, 0, 0x05, 0x58, 0x6C, 0x40] 64 32
    s.caps.Legal ∧ d.caps.Legal ∧ s.outMem.wf s.caps.outCap = true ∧ s.status.treeValid = true ∧ HoldsTree s abTree ∧
      s.status.err = false ∧ ∃ s₁, exec .treeSer s = .next s₁ ∧ s₁.status.err = false ∧ d.bsBitptr = s.outBitptr ∧
        s.outBitptr.toNat + s₁.segBits.toNat ≤ d.bsLen.toNat ∧ d.bsLen.toNat ≤ 8 * d.caps.bsCap ∧
        ∀ k, s.outBitptr.toNat ≤ k → k < s.outBitptr.toNat + s₁.segBits.toNat → d.bitAt .bs k = s₁.bitAt .out k :=
  ⟨by decide +kernel, by decide +kernel, by decide +kernel, by decide +kernel, by unfold HoldsTree; decide +kernel,
    by decide +kernel, _, next_stateOf (by decide +kernel), by decide +kernel, by decide +kernel, by decide +kernel,
    by decide +kernel, by decide +kernel⟩

theorem leafAt_e2_a : LeafAt e2Tree.arena e2Tree.root [false] 0x61 :=
  ⟨1, ⟨true, 0x61, 0, 0, 0⟩, by decide +kernel, by decide +kernel, rfl, rfl⟩

theorem leafAt_e2_b : LeafAt e2Tree.arena e2Tree.root [true] 0x62 :=
  ⟨2, ⟨true, 0x62, 0, 0, 0⟩, by decide +kernel, by decide +kernel, rfl, rfl⟩

/-- The codes of "abb" in the tree of V80. -/
def abbPaths : List (Bits × Byte) := [([false], 0x61), ([true], 0x62), ([true], 0x62)]

theorem abbPaths_lead_to_leaves : ∀ c ∈ abbPaths, LeafAt e2Tree.arena e2Tree.root c.1 c.2 := by
  intro c hc
  simp [abbPaths] at hc
  rcases hc with rfl | rfl
  · exact leafAt_e2_a
  · exact leafAt_e2_b

/-- V100 -/
theorem witness_PayDecWalksCodes :
    e2Tree.caps.Legal ∧ e2Tree.decMem.wf e2Tree.caps.decCap = true ∧ e2Tree.status.treeValid = true ∧ HoldsPayload e2Tree 5 8 ∧
      e2Tree.arena.node? e2Tree.root = some ⟨false, 0, 1, 2, 0⟩ ∧ (∀ c ∈ abbPaths, LeafAt e2Tree.arena e2Tree.root c.1 c.2) ∧
      e2Tree.bsMem.bits .bs (e2Tree.bsBitptr.toNat + 8) (8 - 5) = (abbPaths.map Prod.fst).flatten ∧
      abbPaths.length ≤ e2Tree.caps.decCap :=
  ⟨by decide +kernel, by decide +kernel, by decide +kernel, by unfold HoldsPayload; decide +kernel, by decide +kernel,
    abbPaths_lead_to_leaves, by decide +kernel, by decide +kernel⟩

/-- E3 after TREE_DES with the payload of V108, which ends inside a code. -/
def v108 : State := { withStream (State.resetWith tiny) [0x03, 0x58, 0xD6, 0x1B, 0x10, 0x07, 0x80] 56 40 with
  arena := arenaOf [⟨false, 0, 1, 2, 0⟩, ⟨true, 0x63, 0, 0, 0⟩, ⟨false, 0, 3, 4, 0⟩, ⟨true, 0x61, 0, 0, 0⟩, ⟨true, 0x62, 0, 0, 0⟩]
  nodeCount := 5
  symCount := 3
  status := { Status.reset with treeValid := true } }

/-- V108, then V115: DEC_CAP full when the third symbol's code is complete. -/
theorem witness_PayDecWalkErrors :
    (v108.status.treeValid = true ∧ HoldsPayload v108 7 8 ∧ v108.arena.node? v108.root = some ⟨false, 0, 1, 2, 0⟩ ∧
      ([] : List (Bits × Byte)).length ≤ v108.caps.decCap ∧ InsideAt v108.arena v108.root [true] ∧
      v108.bsMem.bits .bs (v108.bsBitptr.toNat + 8) (8 - 7) = (([] : List (Bits × Byte)).map Prod.fst).flatten ++ [true]) ∧
    (let s : State := { e2Tree with caps := { tiny with decCap := 2 } };
      s.status.treeValid = true ∧ HoldsPayload s 5 8 ∧ (abbPaths.take 2).length = s.caps.decCap ∧
        (∀ c ∈ abbPaths.take 2, LeafAt s.arena s.root c.1 c.2) ∧ LeafAt s.arena s.root [true] 0x62 ∧
        s.bsMem.bits .bs (s.bsBitptr.toNat + 8) (8 - 5) = ((abbPaths.take 2).map Prod.fst).flatten ++ [true] ++ []) :=
  ⟨⟨by decide +kernel, by unfold HoldsPayload; decide +kernel, by decide +kernel, by decide +kernel,
      ⟨2, ⟨false, 0, 3, 4, 0⟩, by decide +kernel, by decide +kernel, rfl, by decide +kernel⟩, by decide +kernel⟩,
    by decide +kernel, by unfold HoldsPayload; decide +kernel, by decide +kernel,
    fun c hc => abbPaths_lead_to_leaves c (List.mem_of_mem_take hc), leafAt_e2_b, by decide +kernel⟩

/-- V102 with the count at DEC_CAP, V109 and V116. -/
theorem witness_PayDecRepeatsSingleLeaf :
    (v102.caps.Legal ∧ v102.decMem.wf v102.caps.decCap = true ∧ v102.status.treeValid = true ∧ HoldsPayload v102 0 0 ∧
      v102.arena.node? v102.root = some ⟨true, 0x61, 0, 0, 4⟩ ∧ v102.decRepeat.toNat ≤ v102.caps.decCap) ∧
    HoldsPayload (withStream aaaaCoded [0x07, 0xB0, 0x80, 0x00, 0x07, 0x80] 48 32) 7 8 ∧
    (HoldsPayload ({ v102 with decRepeat := 5 } : State) 0 0 ∧ v102.caps.decCap < ({ v102 with decRepeat := 5 } : State).decRepeat.toNat) := by
  unfold HoldsPayload; decide +kernel

/-- BS_LEN beyond BS_CAP, V117, V114, V113, V111 and V112. -/
theorem witness_PayDecHeaderErrors :
    (8 * tiny.bsCap < (withStream abb [] 65 0).bsLen.toNat) ∧
    (abb.bsLen.toNat ≤ 8 * abb.caps.bsCap ∧ abb.status.treeValid = false) ∧
    (let s : State := { e2Tree with bsLen := 32 };
      s.bsLen.toNat ≤ 8 * s.caps.bsCap ∧ s.status.treeValid = true ∧ s.bsLen.toNat < s.bsBitptr.toNat + 8) ∧
    (let s := withStream e2Tree [0x05, 0x58, 0x6C, 0x40, 0x09, 0x60] 48 32;
      s.bsBitptr.toNat + 8 + 8 = s.bsLen.toNat ∧ 9 = uint (s.bsMem.bits .bs s.bsBitptr.toNat 8) ∧ 7 < 9) ∧
    (let s : State := { e2Tree with bsLen := 44 };
      s.bsBitptr.toNat + 8 + 4 = s.bsLen.toNat ∧ 5 = uint (s.bsMem.bits .bs s.bsBitptr.toNat 8) ∧ 5 ≤ 7 ∧ 4 < 5) ∧
    (let s : State := { e2Tree with bsLen := 52 };
      s.bsBitptr.toNat + 8 + 12 = s.bsLen.toNat ∧ 5 = uint (s.bsMem.bits .bs s.bsBitptr.toNat 8) ∧ 5 ≤ 12 ∧ 12 % 8 ≠ 0) := by
  decide +kernel

/-- E2's payload between two sides that number their trees differently. -/
theorem witness_PayloadRoundTrip :
    let d := withStream e2Tree [0x05, 0x60] 16 0
    let tr' : Tree := .node 0 (.leaf 1 0x61) (.leaf 2 0x62)
    abbCoded.caps.Legal ∧ d.caps.Legal ∧ abbCoded.outMem.wf abbCoded.caps.outCap = true ∧ d.decMem.wf d.caps.decCap = true ∧
      abbCoded.status.treeValid = true ∧ abbCoded.status.codeValid = true ∧ HoldsTree abbCoded abTree ∧
      codeTable abTree = .ok abbCoded.lut ∧ abbCoded.status.err = false ∧ ∃ s₁, exec .payEnc abbCoded = .next s₁ ∧
        s₁.status.err = false ∧ d.status.treeValid = true ∧ HoldsTree d tr' ∧ tr'.erase = abTree.erase ∧
        d.bsBitptr = abbCoded.outBitptr ∧ d.bsLen = s₁.outBitptr ∧ d.bsLen.toNat ≤ 8 * d.caps.bsCap ∧
        (∀ k, abbCoded.outBitptr.toNat ≤ k → k < s₁.outBitptr.toNat → d.bitAt .bs k = s₁.bitAt .out k) ∧
        abTree.isLeaf = false ∧ abbCoded.inLen.toNat ≤ d.caps.decCap :=
  ⟨by decide +kernel, by decide +kernel, by decide +kernel, by decide +kernel, by decide +kernel, by decide +kernel,
    by unfold HoldsTree; decide +kernel, abbCoded_table, by decide +kernel, _, next_stateOf (by decide +kernel),
    by decide +kernel, by decide +kernel, by unfold HoldsTree; decide +kernel, by decide +kernel, by decide +kernel,
    by decide +kernel, by decide +kernel, by decide +kernel, by decide +kernel, by decide +kernel⟩

/-- The single-leaf case: E1's payload byte 00, DEC_REPEAT the input length. -/
theorem witness_PayloadRoundTrip_singleLeaf :
    let d : State := { withStream aaaaCoded [] 8 0 with decRepeat := 4 }
    HoldsTree aaaaCoded (.leaf 0 0x61) ∧ codeTable (.leaf 0 0x61) = .ok aaaaCoded.lut ∧ aaaaCoded.status.err = false ∧
      ∃ s₁, exec .payEnc aaaaCoded = .next s₁ ∧ s₁.status.err = false ∧ HoldsTree d (.leaf 0 0x61) ∧ d.bsLen = s₁.outBitptr ∧
        (∀ k, aaaaCoded.outBitptr.toNat ≤ k → k < s₁.outBitptr.toNat → d.bitAt .bs k = s₁.bitAt .out k) ∧
        d.decRepeat = aaaaCoded.inLen ∧ aaaaCoded.inLen.toNat ≤ d.caps.decCap :=
  ⟨by unfold HoldsTree; decide +kernel, aaaaCoded_table, by decide +kernel, _, next_stateOf (by decide +kernel),
    by decide +kernel, by unfold HoldsTree; decide +kernel, by decide +kernel, by decide +kernel, by decide +kernel,
    by decide +kernel⟩

theorem witness_ResetHasInvariant : Caps.Legal tiny ∧ Caps.Legal ⟨1048576, 4, 8, 12⟩ := by decide

/-- A state with a tree, a code table and PAY_ENC pending has the invariant. -/
theorem abbCoded_pending_inv : Inv (accept 6 abbCoded) := by
  refine ⟨⟨fun _ => ⟨abTree, ?_⟩, fun _ => ⟨by decide +kernel, abTree, by decide +kernel, abbCoded_table⟩, fun h => ?_⟩, ⟨by decide +kernel, ?_⟩,
    ⟨by decide +kernel, by decide +kernel, by decide +kernel⟩, ⟨by decide +kernel, ?_⟩, ?_⟩
  · unfold HoldsTree; decide +kernel
  · exact absurd h (by decide +kernel)
  · intro w hw
    obtain rfl : 6 = w := by simpa [accept] using hw
    rfl
  · intro id; cases id <;> decide +kernel
  · unfold ResultsInRange; decide +kernel

theorem witness_EveryStepKeepsInvariant : Inv (accept 6 abbCoded) ∧ ∃ t, step (accept 6 abbCoded) = .next t :=
  ⟨abbCoded_pending_inv, _, next_stateOf (by decide +kernel)⟩

theorem witness_StepsFromInvariantNeverStop : Inv (accept 6 abbCoded) := abbCoded_pending_inv

end Sys2Proof.Tests
end

section
/-! Host accesses of the HIST, NODE, CODE_LEN and CODE_BITS windows (10_state.md R42, R44, R46). -/

namespace Sys2Proof.Machine

/-! ### Reads and writes while no command is pending (44_control.md R236, R237) -/

theorem readAnswers_peek_of_idle {s : State} {r : BusReq} {l : Loc} (hb : s.status.busy = false) (hw : r.write = false)
    (ht : target s.caps r = some l) : ReadAnswers r s (peek s l) := by
  simp [ReadAnswers, busAccess, hostRead, respond, ht, hw, hb]

theorem writeLeaves_pokeIdle_of_idle {s : State} {r : BusReq} {l : Loc} (hb : s.status.busy = false) (hw : r.write = true)
    (ht : target s.caps r = some l) (hl : l ≠ .reg .ctrl) : WriteLeaves r s (pokeIdle l r.wdata s) := by
  have hpoke : hostWrite l r.wdata s = .next (respondFree (pokeIdle l r.wdata s)) := by
    rcases hostWrite_cases l r.wdata s with ⟨h, -⟩ | ⟨h, -⟩ | ⟨-, h⟩
    · exact absurd h hl
    · exact absurd h hl
    · simpa [poke, hb] using h
  refine ⟨Config.freeRdata (pokeIdle l r.wdata s).draws, ?_⟩
  simp [busAccess, ht, hw, hpoke, respondFree, respond]

theorem pokeIdle_readOnly {l : Loc} (h : readOnly l = true) (w : Word) (s : State) : pokeIdle l w s = s := by
  cases l with
  | reg r => cases r <;> simp [readOnly] at h <;> rfl
  | hist | mem => cases h
  | codeLen | codeBits | node => rfl

theorem writeLeaves_same_of_readOnly {s : State} {r : BusReq} {l : Loc} (hb : s.status.busy = false) (hw : r.write = true)
    (ht : target s.caps r = some l) (hro : readOnly l = true) : WriteLeaves r s s := by
  have hl : l ≠ .reg .ctrl := by rintro rfl; cases hro
  simpa only [pokeIdle_readOnly hro] using writeLeaves_pokeIdle_of_idle hb hw ht hl

/-! ### Where the window words are mapped (20_memory.md R73) -/

theorem target_of_addr {c : Caps} {r : BusReq} {a : BitVec 24} (hs : r.size = 4) (ha : r.addr = a) :
    target c r = decodeAddr c a := by
  simp [target, hs, ha]

theorem toNat_ofNat_addr {n : Nat} (h : n < 0xA000) : (BitVec.ofNat 24 n).toNat = n := by
  rw [BitVec.toNat_ofNat, Nat.mod_eq_of_lt (by omega)]

theorem decodeAddr_hist (c : Caps) (sym : Byte) :
    decodeAddr c (BitVec.ofNat 24 (0x1000 + 4 * sym.toNat)) = some (.hist sym) := by
  have hsym := sym.isLt
  have hdiv : (0x1000 + 4 * sym.toNat - 0x1000) / 4 = sym.toNat := by omega
  unfold decodeAddr
  simp only [toNat_ofNat_addr (show 0x1000 + 4 * sym.toNat < 0xA000 by omega)]
  rw [if_neg (by omega), if_neg (by omega), if_pos (by omega), hdiv, BitVec.ofNat_toNat, BitVec.setWidth_eq]

theorem decodeAddr_codeLen (c : Caps) (sym : Byte) :
    decodeAddr c (BitVec.ofNat 24 (0x2000 + 4 * sym.toNat)) = some (.codeLen sym) := by
  have hsym := sym.isLt
  have hdiv : (0x2000 + 4 * sym.toNat - 0x2000) / 4 = sym.toNat := by omega
  unfold decodeAddr
  simp only [toNat_ofNat_addr (show 0x2000 + 4 * sym.toNat < 0xA000 by omega)]
  rw [if_neg (by omega), if_neg (by omega), if_neg (by omega), if_pos (by omega), hdiv, BitVec.ofNat_toNat,
    BitVec.setWidth_eq]

theorem decodeAddr_codeBits (c : Caps) (sym : Byte) {w : Nat} (hw : w ≤ 7) :
    decodeAddr c (BitVec.ofNat 24 (0x4000 + 32 * sym.toNat + 4 * w)) = some (.codeBits sym w) := by
  have hsym := sym.isLt
  have hdiv : (0x4000 + 32 * sym.toNat + 4 * w - 0x4000) / 32 = sym.toNat := by omega
  have hmod : (0x4000 + 32 * sym.toNat + 4 * w - 0x4000) / 4 % 8 = w := by omega
  unfold decodeAddr
  simp only [toNat_ofNat_addr (show 0x4000 + 32 * sym.toNat + 4 * w < 0xA000 by omega)]
  rw [if_neg (by omega), if_neg (by omega), if_neg (by omega), if_neg (by omega), if_pos (by omega), hdiv, hmod,
    BitVec.ofNat_toNat, BitVec.setWidth_eq]

theorem decodeAddr_node (c : Caps) {i w : Nat} (hi : i ≤ 510) (hw : w ≤ 3) :
    decodeAddr c (BitVec.ofNat 24 (0x8000 + 16 * i + 4 * w)) = some (.node i w) := by
  have hdiv : (0x8000 + 16 * i + 4 * w - 0x8000) / 16 = i := by omega
  have hmod : (0x8000 + 16 * i + 4 * w - 0x8000) / 4 % 4 = w := by omega
  unfold decodeAddr
  simp only [toNat_ofNat_addr (show 0x8000 + 16 * i + 4 * w < 0xA000 by omega)]
  rw [if_neg (by omega), if_neg (by omega), if_neg (by omega), if_neg (by omega), if_neg (by omega), if_pos (by omega),
    hdiv, hmod]

/-! ### The fields of the window words -/

/-- The pieces of an append, from the lowest. -/
theorem extractLsb'_append₄ {a b c d : Nat} (x : BitVec a) (y : BitVec b) (z : BitVec c) (u : BitVec d) :
    (x ++ y ++ z ++ u).extractLsb' 0 d = u ∧ (x ++ y ++ z ++ u).extractLsb' d c = z ∧
      (x ++ y ++ z ++ u).extractLsb' (d + c) b = y ∧ (x ++ y ++ z ++ u).extractLsb' (d + c + b) a = x := by
  refine ⟨BitVec.extractLsb'_append_eq_right, ?_, ?_, ?_⟩ <;>
    simp (disch := omega) [BitVec.extractLsb'_append_eq_of_le, BitVec.extractLsb'_append_eq_right, Nat.add_assoc]

theorem nodeWord_zero_fields (nd : Node) :
    (nodeWord nd 0).extractLsb' 0 1 = BitVec.ofBool nd.leaf ∧ (nodeWord nd 0).extractLsb' 1 7 = 0 ∧
      (nodeWord nd 0).extractLsb' 8 8 = nd.sym ∧ (nodeWord nd 0).extractLsb' 16 16 = 0 :=
  extractLsb'_append₄ 0#16 nd.sym 0#7 (BitVec.ofBool nd.leaf)

theorem nodeWord_one_fields (nd : Node) :
    (nodeWord nd 1).extractLsb' 0 9 = nd.left ∧ (nodeWord nd 1).extractLsb' 9 7 = 0 ∧
      (nodeWord nd 1).extractLsb' 16 9 = nd.right ∧ (nodeWord nd 1).extractLsb' 25 7 = 0 :=
  extractLsb'_append₄ 0#7 nd.right 0#7 nd.left

theorem nodeWord_three_fields (nd : Node) :
    (nodeWord nd 3).extractLsb' 0 8 = nd.weight.extractLsb' 32 8 ∧ (nodeWord nd 3).extractLsb' 8 24 = 0 :=
  ⟨BitVec.extractLsb'_append_eq_right (a := 0#24), BitVec.extractLsb'_append_eq_left (a := 0#24)⟩

theorem peek_node {s : State} {i : Nat} {nd : Node} (h : s.arena[i]? = some nd) (w : Nat) :
    peek s (.node i w) = nodeWord nd w := by
  simp [peek, h]

theorem codeLenWord_fields (e : LutEntry) :
    (codeLenWord e).extractLsb' 0 8 = e.len ∧ (codeLenWord e).extractLsb' 8 23 = 0 ∧
      (codeLenWord e).getLsbD 31 = e.present := by
  refine ⟨BitVec.extractLsb'_append_eq_right (a := BitVec.ofBool e.present ++ 0#23), ?_, ?_⟩
  · exact (BitVec.extractLsb'_append_eq_of_le (xhi := BitVec.ofBool e.present ++ 0#23) (Nat.le_refl 8)).trans
      BitVec.extractLsb'_append_eq_right
  · change (BitVec.ofBool e.present ++ 0#23 ++ e.len).getLsbD 31 = e.present
    rw [BitVec.getLsbD_append, BitVec.getLsbD_append]
    simp

/-- Code bit 0 is bit 31 of word 0. -/
theorem codeBitsWord_bit (e : LutEntry) {w m : Nat} (hw : w ≤ 7) (hm : m ≤ 31) :
    (codeBitsWord e w).getLsbD (31 - m) = e.cbits.getMsbD (32 * w + m) := by
  have hpos : 224 - 32 * w + (31 - m) = 256 - 1 - (32 * w + m) := by omega
  rw [codeBitsWord, BitVec.getLsbD_extractLsb', BitVec.getMsbD_eq_getLsbD, hpos,
    decide_eq_true (show 31 - m < 32 by omega), decide_eq_true (show 32 * w + m < 256 by omega)]

/-! ### The windows -/

/-- Settles O25: the write is `Hist.put` at the address's symbol, and the read the counter there. -/
theorem histWindowReadsAndWrites : Obligations.HistWindowReadsAndWrites := by
  intro s r sym hb hs ha
  have ht : target s.caps r = some (.hist sym) := (target_of_addr hs ha).trans (decodeAddr_hist _ sym)
  refine ⟨fun hw => readAnswers_peek_of_idle hb hw ht, fun hw => ⟨s.hist.put sym r.wdata, ?_, ?_, ?_⟩⟩
  · exact writeLeaves_pokeIdle_of_idle hb hw ht (by simp)
  · exact count_put_same ..
  · exact fun b hne => count_put_other _ _ hne.symm

/-- Settles O26: the word is the `nodeWord` of the entry, whose fields are read off word by word. -/
theorem nodeWindowShowsEntries : Obligations.NodeWindowShowsEntries := by
  intro s r i w nd hb hnd hw3 hs ha
  obtain ⟨hi, -⟩ := Vector.getElem?_eq_some_iff.mp hnd
  have ht : target s.caps r = some (.node i w) := (target_of_addr hs ha).trans (decodeAddr_node _ (by omega) hw3)
  refine ⟨fun hw => writeLeaves_same_of_readOnly hb hw ht rfl, fun hw => ⟨nodeWord nd w, ?_, ?_, ?_, ?_, ?_⟩⟩
  · exact peek_node hnd w ▸ readAnswers_peek_of_idle hb hw ht
  · rintro rfl; exact nodeWord_zero_fields nd
  · rintro rfl; exact nodeWord_one_fields nd
  · rintro rfl; rfl
  · rintro rfl; exact nodeWord_three_fields nd

/-- Settles O27: the words are `codeLenWord` and `codeBitsWord` of the symbol's entry. -/
theorem lutWindowsShowCodes : Obligations.LutWindowsShowCodes := by
  intro s r sym hb hs
  refine ⟨fun ha => ?_, fun w hw7 ha => ?_⟩
  · have ht : target s.caps r = some (.codeLen sym) := (target_of_addr hs ha).trans (decodeAddr_codeLen _ sym)
    exact ⟨fun hw => writeLeaves_same_of_readOnly hb hw ht rfl,
      fun hw => ⟨_, readAnswers_peek_of_idle hb hw ht, codeLenWord_fields _⟩⟩
  · have ht : target s.caps r = some (.codeBits sym w) := (target_of_addr hs ha).trans (decodeAddr_codeBits _ sym hw7)
    exact ⟨fun hw => writeLeaves_same_of_readOnly hb hw ht rfl,
      fun hw => ⟨_, readAnswers_peek_of_idle hb hw ht, fun m hm => codeBitsWord_bit _ hw7 hm⟩⟩

end Sys2Proof.Machine
end

section
/-! Host accesses that are refused or write a read-only word, and those of the windows of the byte memories (20_memory.md R72, R76, R77). -/

namespace Sys2Proof.Machine

/-! ### What the address map answers (20_memory.md R72, R73) -/

theorem decodeMemWindow_eq_none_iff (c : Caps) (n : Nat) : decodeMemWindow c n = none ↔
    ¬ ((0x100000 ≤ n ∧ n < 0x100000 + c.inCap) ∨ (0x200000 ≤ n ∧ n < 0x200000 + c.outCap) ∨
      (0x300000 ≤ n ∧ n < 0x300000 + c.bsCap) ∨ (0x400000 ≤ n ∧ n < 0x400000 + c.decCap)) := by
  unfold decodeMemWindow
  split_ifs <;> simp only [false_iff, true_iff] <;> omega

theorem regsInOrder_at_ne_none {n : Nat} (h : n < 0x0060) : regsInOrder[n / 4]?.map Loc.reg ≠ none := by
  have hlen : n / 4 < regsInOrder.length := by change n / 4 < 24; omega
  simp [hlen]

/-- The address map leaves out exactly the misaligned and the unmapped addresses. -/
theorem decodeAddr_eq_none_iff (c : Caps) (addr : BitVec 24) :
    decodeAddr c addr = none ↔ ¬ (addr.toNat % 4 = 0 ∧ Mapped c addr.toNat) := by
  unfold decodeAddr Mapped
  generalize addr.toNat = n
  dsimp only
  split_ifs with halign hreg
  · exact iff_of_true rfl fun h => halign h.1
  · exact iff_of_false (regsInOrder_at_ne_none hreg) (by omega)
  iterate 4 exact iff_of_false not_false (by omega)
  · rw [decodeMemWindow_eq_none_iff]; omega

theorem target_eq_none_iff (c : Caps) (r : BusReq) : target c r = none ↔ ¬ Admitted c r := by
  unfold target Admitted
  split_ifs with hsize
  · exact iff_of_true rfl fun h => hsize h.1
  · rw [decodeAddr_eq_none_iff, not_not.mp hsize, eq_self, true_and]

theorem decodeMemWindow_eq_mem {c : Caps} {n : Nat} {l : Loc} (h : decodeMemWindow c n = some l) :
    ∃ id a, l = .mem id a ∧ n = memBase id + a := by
  unfold decodeMemWindow at h
  split_ifs at h with h₁ h₂ h₃ h₄ <;> obtain rfl := Option.some.inj h
  · exact ⟨.inp, _, rfl, (Nat.add_sub_cancel' h₁.1).symm⟩
  · exact ⟨.out, _, rfl, (Nat.add_sub_cancel' h₂.1).symm⟩
  · exact ⟨.bs, _, rfl, (Nat.add_sub_cancel' h₃.1).symm⟩
  · exact ⟨.dec, _, rfl, (Nat.add_sub_cancel' h₄.1).symm⟩

theorem target_eq_mem {c : Caps} {r : BusReq} {id : MemId} {a : Nat} (h : target c r = some (.mem id a)) :
    r.addr.toNat % 4 = 0 ∧ r.addr.toNat = memBase id + a := by
  unfold target decodeAddr at h
  dsimp only at h
  split_ifs at h with hsize halign
  case neg =>
    obtain ⟨id', a', hl, hn⟩ := decodeMemWindow_eq_mem h
    obtain ⟨rfl, rfl⟩ := Loc.mem.inj hl
    exact ⟨not_not.mp halign, hn⟩
  all_goals simp at h

/-- Windows begin at word-aligned addresses. -/
theorem four_dvd_memBase (id : MemId) : 4 ∣ memBase id := by cases id <;> decide

theorem target_mem_aligned {c : Caps} {r : BusReq} {id : MemId} {a : Nat} (h : target c r = some (.mem id a)) : a % 4 = 0 := by
  obtain ⟨halign, haddr⟩ := target_eq_mem h
  have := four_dvd_memBase id
  omega

/-! ### Refused requests, and writes of read-only words -/

theorem hostRead_resp (l : Loc) (s : State) : ∃ d, (hostRead l s).resp = some ⟨d, false⟩ := by
  rcases hostRead_cases l s with ⟨-, -, h⟩ | ⟨-, h⟩ <;> exact ⟨_, by rw [h]; rfl⟩

theorem hostWrite_resp (l : Loc) (w : Word) (s : State) : ∃ t d, hostWrite l w s = .next t ∧ t.resp = some ⟨d, false⟩ := by
  rcases hostWrite_cases l w s with ⟨-, -, h⟩ | ⟨-, -, h⟩ | ⟨-, h⟩ <;> exact ⟨_, _, h, rfl⟩

/-- A write to a word other than CTRL leaves what `poke` says, busy or idle. -/
theorem writeLeaves_poke {s : State} {r : BusReq} {l : Loc} (hw : r.write = true) (ht : target s.caps r = some l)
    (hl : l ≠ .reg .ctrl) : WriteLeaves r s (poke l r.wdata s) := by
  rcases hostWrite_cases l r.wdata s with ⟨h, -⟩ | ⟨h, -⟩ | ⟨-, h⟩
  · exact absurd h hl
  · exact absurd h hl
  · exact ⟨Config.freeRdata (poke l r.wdata s).draws, by simp [busAccess, ht, hw, h, respondFree, respond]⟩

theorem pokeBusy_readOnly {l : Loc} (h : readOnly l = true) (w : Word) (s : State) : pokeBusy l w s = dropWrite s := by
  cases l with
  | reg r => cases r <;> simp [readOnly] at h <;> rfl
  | hist | mem => cases h
  | codeLen | codeBits | node => rfl

theorem poke_readOnly {l : Loc} (h : readOnly l = true) (w : Word) (s : State) :
    poke l w s = { s with status := { s.status with ovr := s.status.ovr || s.status.busy } } := by
  by_cases hb : s.status.busy = true
  · simp only [poke, hb, if_true, pokeBusy_readOnly h, dropWrite, Bool.or_true]
  · have hovr : (s.status.ovr || s.status.busy) = s.status.ovr := by simp [hb]
    rw [poke, if_neg hb, pokeIdle_readOnly h, hovr]

/-- Settles O16: the address map answers exactly the admitted requests, and a read-only word ignores the write. -/
theorem refusedAccessesChangeNothing : Obligations.RefusedAccessesChangeNothing := by
  intro s r
  refine ⟨fun hr => ?_, fun hr => ?_, fun l ht hw hro => ?_⟩
  · rw [← target_eq_none_iff] at hr
    simp [busAccess, hr, refuse, respond]
  · rcases busAccess_cases r s with ⟨ht, -⟩ | ⟨l, -, -, h⟩ | ⟨l, -, -, h⟩
    · exact absurd hr ((target_eq_none_iff ..).mp ht)
    · exact h ▸ hostWrite_resp l r.wdata s
    · obtain ⟨d, hd⟩ := hostRead_resp l s
      exact ⟨_, d, h, hd⟩
  · have hl : l ≠ .reg .ctrl := by rintro rfl; cases hro
    exact poke_readOnly hro r.wdata s ▸ writeLeaves_poke hw ht hl

/-! ### The lanes of a word of a byte memory (20_memory.md R76) -/

theorem readWord_byte (id : MemId) (m : ByteMem) (a : Nat) {k : Nat} (hk : k < 4) :
    (m.readWord id a).extractLsb' (8 * k) 8 = m.read id (a + k) := by
  obtain ⟨h₀, h₁, h₂, h₃⟩ := extractLsb'_append₄ (m.read id (a + 3)) (m.read id (a + 2)) (m.read id (a + 1)) (m.read id a)
  match k, hk with
  | 0, _ => exact h₀
  | 1, _ => exact h₁
  | 2, _ => exact h₂
  | 3, _ => exact h₃

/-- Stream bit k of an aligned word is bit 7 - k mod 8 of its byte (k div 8) mod 4. -/
theorem readWord_bit (id : MemId) (m : ByteMem) {a k : Nat} (ha : a % 4 = 0) (hlo : 8 * a ≤ k) (hhi : k < 8 * a + 32) :
    (m.readWord id a).getLsbD (8 * (k / 8 % 4) + 7 - k % 8) = m.bit id k := by
  have hbyte : a + k / 8 % 4 = k / 8 := by omega
  have hpos : 8 * (k / 8 % 4) + 7 - k % 8 = 8 * (k / 8 % 4) + (7 - k % 8) := by omega
  calc (m.readWord id a).getLsbD (8 * (k / 8 % 4) + 7 - k % 8)
      = ((m.readWord id a).extractLsb' (8 * (k / 8 % 4)) 8).getLsbD (7 - k % 8) := by
        rw [BitVec.getLsbD_extractLsb', hpos, decide_eq_true (show 7 - k % 8 < 8 by omega), Bool.true_and]
    _ = (m.read id (k / 8)).getLsbD (7 - k % 8) := by rw [readWord_byte _ _ _ (Nat.mod_lt _ (by decide)), hbyte]
    _ = m.bit id k := by rw [ByteMem.bit, byteBit, Nat.mod_mod]

theorem read_writeWord_in (id : MemId) {m : ByteMem} (a : Nat) (w : Word) (h : risingCells m.cells = true) {k : Nat} (hk : k < 4) :
    (m.writeWord a w).read id (a + k) = w.extractLsb' (8 * k) 8 := by
  refine (read_writeBytes_in id [_, _, _, _] a k hk h).trans ?_
  match k, hk with
  | 0, _ | 1, _ | 2, _ | 3, _ => rfl

theorem read_writeWord_out (id : MemId) (m : ByteMem) {a b : Nat} (w : Word) (h : b < a ∨ a + 4 ≤ b) :
    (m.writeWord a w).read id b = m.read id b :=
  read_writeBytes_out id _ m a b h

/-- Settles O24: a read answers the `readWord` of the memory, and a write leaves its `writeWord`. -/
theorem memoryWindowLanes : Obligations.MemoryWindowLanes := by
  intro s r id a hwf hb ht
  refine ⟨fun k hk => readWord_byte _ _ _ hk, fun k hlo hhi => readWord_bit _ _ (target_mem_aligned ht) hlo hhi,
    fun hw => readAnswers_peek_of_idle hb hw ht, fun hw => ⟨(s.mem id).writeWord a r.wdata, ?_, fun k hk => ?_, fun b hout => ?_⟩⟩
  · exact writeLeaves_pokeIdle_of_idle hb hw ht (by simp)
  · rw [State.byteAt, mem_setMem_same]
    exact read_writeWord_in id a r.wdata (wf_rising hwf) hk
  · rw [State.byteAt, mem_setMem_same]
    exact read_writeWord_out id _ r.wdata hout

end Sys2Proof.Machine
end

section
/-! The words of CMD that decode to no command, and how the core answers them (30_encoding.md R100 to R102). -/

namespace Sys2Proof.Machine

/-! ### The words of CMD (30_encoding.md R100 to R102) -/

theorem opcodeOf_toNat (w : Word) : (opcodeOf w).toNat = w.toNat % 256 := by simp [opcodeOf]

theorem rsvdOf_eq_zero_iff (w : Word) : rsvdOf w = 0 ↔ w.toNat < 256 := by
  have hval : (rsvdOf w).toNat = w.toNat / 256 % 2 ^ 24 := by simp [rsvdOf, Nat.shiftRight_eq_div_pow]
  have hw := w.isLt
  rw [← BitVec.toNat_inj, hval, show (0 : BitVec 24).toNat = 0 from rfl]
  omega

/-- The opcode map names exactly the opcodes up to 0x08. -/
theorem ofOpcode_defined_iff (op : Byte) : (∃ i, ofOpcode op = some i) ↔ op.toNat ≤ 8 := by
  unfold ofOpcode
  match op.toNat with
  | 0 | 1 | 2 | 3 | 4 | 5 | 6 | 7 | 8 => exact iff_of_true ⟨_, rfl⟩ (by decide)
  | n + 9 => exact iff_of_false (fun ⟨_, h⟩ => nomatch h) (by omega)

theorem decodeCmd_eq_ok_iff (w : Word) (i : Instr) :
    decode .cmd w = .ok i ↔ rsvdOf w = 0 ∧ ofOpcode (opcodeOf w) = some i := by
  by_cases hr : rsvdOf w = 0
  · cases ho : ofOpcode (opcodeOf w) <;> simp [decode, decodeCmd, hr, ho]
  · have hne : decode .cmd w = .error .reservedBits := if_pos hr
    exact iff_of_false (by simp [hne]) fun h => hr h.1

theorem decodeCmd_defined_iff (w : Word) : (∃ i, decode .cmd w = .ok i) ↔ w.toNat ≤ 8 := by
  simp only [decodeCmd_eq_ok_iff, exists_and_left, ofOpcode_defined_iff, rsvdOf_eq_zero_iff, opcodeOf_toNat]
  omega

/-! ### The illegal commands (30_encoding.md R102) -/

/-- ILLEGAL_CMD with the word as ERR_INFO, field by field. -/
theorem raise_illegalCmd (w : Word) (s : State) :
    raise .illegalCmd 0x00 w.toNat s = { s with
      errCode := ⟨opcodeOf s.cmd, 0x00, 0x01⟩
      errInfo := w
      status := { s.status with busy := false, done := true, err := true }
      irqStatus := ⟨true, true⟩
      pending := none } := by
  simp only [raise, errNumber, BitVec.ofNat_toNat, BitVec.setWidth_eq]

theorem coreStep_illegal {s : State} {w : Word} (hp : s.pending = some w) (hw : 8 < w.toNat) :
    coreStep s = .next (raise .illegalCmd 0x00 w.toNat s) := by
  rcases coreStep_cases s with ⟨hnone, -⟩ | ⟨v, i, hv, hd, -⟩ | ⟨v, e, hv, -, h⟩
  · simp [hp] at hnone
  · obtain rfl : w = v := Option.some.inj (hp.symm.trans hv)
    exact absurd ((decodeCmd_defined_iff w).mp ⟨i, hd⟩) (by omega)
  · obtain rfl : w = v := Option.some.inj (hp.symm.trans hv)
    exact h

theorem step_eq_coreStep {s : State} (h : turnOf s = .core) : step s = coreStep (passTurn s) := by
  rcases step_cases s with ⟨hhost, -⟩ | ⟨-, hstep⟩
  · simp [h] at hhost
  · exact hstep

/-- Settles O4: a word decodes where RSVD is 0 and the opcode map has its opcode, and the core raises ILLEGAL_CMD for any other. -/
theorem illegalWordsAreReported : Obligations.IllegalWordsAreReported := by
  refine ⟨decodeCmd_defined_iff, fun s r hb hw ht => ?_, fun s w hp h8 => ?_, fun s w hturn hp h8 => ?_⟩
  · exact writeLeaves_pokeIdle_of_idle hb hw ht (by simp)
  · rw [coreStep_illegal hp h8, raise_illegalCmd]
  · rw [step_eq_coreStep hturn, coreStep_illegal (s := passTurn s) hp h8, raise_illegalCmd]
    rfl

end Sys2Proof.Machine
end

section
/-! The numbers of nodes of a tree, and the lengths of its body and its segment (30_encoding.md R106, R108). -/

namespace Sys2Proof.Machine

theorem Tree.one_le_leafCount (t : Tree) : 1 ≤ t.leafCount := by
  induction t with
  | leaf => exact le_rfl
  | node _ l r ihl _ => exact Nat.le_add_right_of_le ihl

/-- An internal node joins two trees, so a tree has one internal node fewer than leaves. -/
theorem Tree.size_succ (t : Tree) : t.size + 1 = 2 * t.leafCount := by
  induction t with
  | leaf => rfl
  | node _ l r ihl ihr => simp only [Tree.size, Tree.leafCount]; omega

/-- A leaf takes 9 bits of the body and an internal node 1. -/
theorem Tree.serBits_length_succ (t : Tree) : t.serBits.length + 1 = 10 * t.leafCount := by
  induction t with
  | leaf => simp [Tree.serBits, Tree.leafCount]
  | node _ l r ihl ihr =>
    simp only [Tree.serBits, Tree.leafCount, List.length_cons, List.length_append]
    omega

/-- Settles O45: the numbers of nodes and of body bits by induction over the tree; the pad count fills the body up to whole bytes. -/
theorem treeBodyLength : Obligations.TreeBodyLength := by
  intro t
  have hleaf := t.one_le_leafCount
  have hsize := t.size_succ
  have hbody : t.serBits.length = 10 * t.leafCount - 1 := by have := t.serBits_length_succ; omega
  exact ⟨by omega, hleaf, hbody, by rw [frameSegment_length, hbody, padOf]⟩

end Sys2Proof.Machine
end

section
/-! HIST_CLEAR, and the merges of TREE_BUILD: each joins the two least entries of the priority structure
(40_histogram_builder.md R140, R142, R143). -/

namespace Sys2Proof.Machine

/-- Settles O32: HIST_CLEAR completes the state with the all-zero histogram. -/
theorem histClearZeroes : Obligations.HistClearZeroes :=
  ⟨rfl, fun _ => ⟨_, rfl, rfl, count_zeroHist⟩⟩

/-! ### The leaves (40_histogram_builder.md R142) -/

theorem presentSymbols_ascending (h : Hist) : (presentSymbols h).Pairwise (fun a b => a.toNat < b.toNat) := by
  refine List.Pairwise.filter _ (List.pairwise_map.2 (List.pairwise_lt_range.imp_of_mem fun ha hb hlt => ?_))
  rw [List.mem_range] at ha hb
  rwa [BitVec.toNat_ofNat, BitVec.toNat_ofNat, Nat.mod_eq_of_lt ha, Nat.mod_eq_of_lt hb]

theorem mem_presentSymbols (h : Hist) (b : Byte) : b ∈ presentSymbols h ↔ h.count b ≠ 0 := by
  have hb : ∃ a < 256, BitVec.ofNat 8 a = b := ⟨b.toNat, b.isLt, by simp⟩
  simpa [presentSymbols] using fun _ => hb

/-- An ascending list is known by its members. -/
theorem presentSymbols_eq {h : Hist} {syms : List Byte} (hs : syms.Pairwise (fun a b => a.toNat < b.toNat))
    (hm : ∀ b : Byte, b ∈ syms ↔ h.count b ≠ 0) : presentSymbols h = syms :=
  have : Std.Irrefl fun a b : Byte => a.toNat < b.toNat := ⟨fun a => Nat.lt_irrefl a.toNat⟩
  have : Std.Antisymm fun a b : Byte => a.toNat < b.toNat := ⟨fun _ _ h h' => absurd h' (Nat.lt_asymm h)⟩
  (presentSymbols_ascending h).eq_of_mem_iff hs fun b => (mem_presentSymbols h b).trans (hm b).symm

theorem presentSymbols_length_le (h : Hist) : (presentSymbols h).length ≤ 256 :=
  (List.length_filter_le ..).trans (by simp)

theorem leafQueue_idx (h : Hist) (syms : List Byte) (j : Nat) :
    (leafQueue h syms j).map QEntry.idx = List.range' j syms.length := by
  induction syms generalizing j with
  | nil => rfl
  | cons sym syms ih => simp [leafQueue, ih, List.range'_succ]

theorem leafQueue_weights (h : Hist) (syms : List Byte) (j : Nat) :
    (leafQueue h syms j).map QEntry.weight = syms.map fun sym => (h.count sym).toNat := by
  induction syms generalizing j with
  | nil => rfl
  | cons sym syms ih => simp [leafQueue, ih]

theorem weight_of_mem_leafQueue {h : Hist} {syms : List Byte} {j : Nat} {e : QEntry} (he : e ∈ leafQueue h syms j) :
    j ≤ e.idx ∧ ∃ sym, syms[e.idx - j]? = some sym ∧ e.weight = (h.count sym).toNat := by
  induction syms generalizing j with
  | nil => simp [leafQueue] at he
  | cons sym syms ih =>
    rcases List.mem_cons.1 he with rfl | he
    · simp
    · obtain ⟨hj, hw⟩ := ih he
      refine ⟨by omega, ?_⟩
      rwa [show e.idx - j = (e.idx - (j + 1)) + 1 by omega, List.getElem?_cons_succ]

/-- The counters of all the symbols together fit the 40 bits of a weight. -/
theorem sum_counts_lt {h : Hist} {syms : List Byte} (hn : syms.length ≤ 256) :
    (syms.map fun sym => (h.count sym).toNat).sum < 2 ^ 40 := by
  have hle : (syms.map fun sym => (h.count sym).toNat).sum ≤ _ :=
    List.sum_le_card_nsmul _ (2 ^ 32 - 1) fun w hw => by
      obtain ⟨sym, -, rfl⟩ := List.mem_map.1 hw
      exact Nat.le_sub_one_of_lt (h.count sym).isLt
  rw [List.length_map, smul_eq_mul] at hle
  omega

theorem builtLeaf_weight (h : Hist) (sym : Byte) : (builtLeaf h sym).weight.toNat = (h.count sym).toNat := by
  have := (h.count sym).isLt
  exact Nat.mod_eq_of_lt (by omega)

/-! ### Weights and the priority structure, read off the arena -/

theorem weightAt_of_some {ar : Arena} {i : Nat} {nd : Node} (h : ar[i]? = some nd) : weightAt ar i = nd.weight.toNat := by
  simp [weightAt, h]

theorem weightAt_congr {ar ar' : Arena} {i : Nat} (h : ar'[i]? = ar[i]?) : weightAt ar' i = weightAt ar i := by
  simp only [weightAt, h]

theorem InQueue.lt {ar : Arena} {n k i : Nat} (h : InQueue ar n k i) : i < k := h.1

/-- The priority structure at node `k` depends on the entries below `k` only. -/
theorem inQueue_congr {ar ar' : Arena} {n k i : Nat} (h : ∀ j < k, ar'[j]? = ar[j]?) : InQueue ar' n k i ↔ InQueue ar n k i :=
  and_congr_right fun _ => forall₃_congr fun j _ hj => by rw [h j hj]

/-- Of the leaves no entry has been taken. -/
theorem inQueue_leaves (ar : Arena) (n i : Nat) : InQueue ar n n i ↔ i < n :=
  and_iff_left fun _ hn hlt => absurd hlt (Nat.not_lt.2 hn)

/-- `l` and `r` are the two least entries of the priority structure when node `k` is made, `l` the lesser. -/
structure LeastTwo (ar : Arena) (n k l r : Nat) : Prop where
  left_mem : InQueue ar n k l
  right_mem : InQueue ar n k r
  ranks : RanksBefore ar l r
  least : ∀ i, InQueue ar n k i → i ≠ l → i ≠ r → RanksBefore ar r i

theorem LeastTwo.congr {ar ar' : Arena} {n k l r : Nat} (h : ∀ j < k, ar'[j]? = ar[j]?) (hl : LeastTwo ar n k l r) :
    LeastTwo ar' n k l r := by
  have hranks {i j : Nat} (hi : i < k) (hj : j < k) (hr : RanksBefore ar i j) : RanksBefore ar' i j := by
    rwa [RanksBefore, weightAt_congr (h i hi), weightAt_congr (h j hj)]
  obtain ⟨hleft, hright, hlr, hleast⟩ := hl
  exact ⟨(inQueue_congr h).2 hleft, (inQueue_congr h).2 hright, hranks hleft.lt hright.lt hlr, fun i hi hil hir =>
    have hi := (inQueue_congr h).1 hi
    hranks hright.lt hi.lt (hleast i hi hil hir)⟩

/-- Entry `k` is an internal node that joins the two least entries. -/
def JoinsLeast (ar : Arena) (n k : Nat) : Prop :=
  ∃ nd, ar[k]? = some nd ∧ nd.leaf = false ∧ nd.sym = 0 ∧ LeastTwo ar n k nd.left.toNat nd.right.toNat ∧
    nd.weight.toNat = weightAt ar nd.left.toNat + weightAt ar nd.right.toNat

theorem JoinsLeast.congr {ar ar' : Arena} {n k : Nat} (h : ∀ j ≤ k, ar'[j]? = ar[j]?) (hj : JoinsLeast ar n k) :
    JoinsLeast ar' n k := by
  obtain ⟨nd, hnd, hleaf, hsym, htwo, hw⟩ := hj
  refine ⟨nd, (h k le_rfl).trans hnd, hleaf, hsym, htwo.congr fun j hj => h j hj.le, ?_⟩
  rwa [weightAt_congr (h _ htwo.left_mem.lt.le), weightAt_congr (h _ htwo.right_mem.lt.le)]

theorem JoinsLeast.children_lt {ar : Arena} {n k : Nat} {nd : Node} (hj : JoinsLeast ar n k) (h : ar[k]? = some nd) :
    nd.left.toNat < k ∧ nd.right.toNat < k := by
  obtain ⟨nd', hnd, -, -, htwo, -⟩ := hj
  obtain rfl : nd' = nd := Option.some.inj (hnd.symm.trans h)
  exact ⟨htwo.left_mem.lt, htwo.right_mem.lt⟩

/-- Making node `k` takes its two children out of the priority structure and puts `k` in. -/
theorem inQueue_succ {ar : Arena} {n k i : Nat} {nd : Node} (hn : n ≤ k) (hm : ∀ j, n ≤ j → j ≤ k → JoinsLeast ar n j)
    (hk : ar[k]? = some nd) :
    InQueue ar n (k + 1) i ↔ i = k ∨ (InQueue ar n k i ∧ nd.left.toNat ≠ i ∧ nd.right.toNat ≠ i) := by
  constructor
  · rintro ⟨hi, hfree⟩
    refine (Nat.lt_succ_iff_lt_or_eq.1 hi).symm.imp_right fun hlt => ⟨⟨hlt, fun j hnj hj => hfree j hnj (by omega)⟩, ?_⟩
    exact hfree k hn (Nat.lt_succ_self k) nd hk
  · rintro (rfl | ⟨⟨hi, hfree⟩, hchildren⟩)
    · refine ⟨Nat.lt_succ_self i, fun j hnj hj nd' hnd' => ?_⟩
      have := (hm j hnj (by omega)).children_lt hnd'
      omega
    · refine ⟨by omega, fun j hnj hj nd' hnd' => ?_⟩
      rcases Nat.lt_succ_iff_lt_or_eq.1 hj with hlt | rfl
      · exact hfree j hnj hlt nd' hnd'
      · obtain rfl : nd = nd' := Option.some.inj (hk.symm.trans hnd')
        exact hchildren

/-! ### One merge -/

theorem mergedNode_left {a b : QEntry} (h : a.idx < 511) : (mergedNode a b).left.toNat = a.idx := Nat.mod_eq_of_lt (by omega)

theorem mergedNode_right {a b : QEntry} (h : b.idx < 511) : (mergedNode a b).right.toNat = b.idx := Nat.mod_eq_of_lt (by omega)

theorem mergedNode_weight {a b : QEntry} (h : a.weight + b.weight < 2 ^ 40) :
    (mergedNode a b).weight.toNat = a.weight + b.weight := Nat.mod_eq_of_lt h

theorem LeastTwo.joinsLeast_put {ar : Arena} {n k : Nat} {a b : QEntry} (h : LeastTwo ar n k a.idx b.idx) (hk : k < 511)
    (ha : weightAt ar a.idx = a.weight) (hb : weightAt ar b.idx = b.weight) (hw : a.weight + b.weight < 2 ^ 40) :
    JoinsLeast (ar.put k (mergedNode a b)) n k := by
  have hold : ∀ j < k, (ar.put k (mergedNode a b))[j]? = ar[j]? := fun j hj => arena_put_other ar _ hj.ne'
  have hak : a.idx < k := h.left_mem.lt
  have hbk : b.idx < k := h.right_mem.lt
  refine ⟨_, arena_put_same ar _ hk, rfl, rfl, ?_⟩
  rw [mergedNode_left (hak.trans hk), mergedNode_right (hbk.trans hk), mergedNode_weight hw, weightAt_congr (hold _ hak),
    weightAt_congr (hold _ hbk), ha, hb]
  exact ⟨h.congr hold, rfl⟩

/-! ### The merge loop (40_histogram_builder.md R142, R143) -/

/-- What the merge loop keeps: when `k` entries are made over `n` leaves, the list `q` is the priority structure, each entry once with
its weight in the arena, and every node made so far joins the two least entries of its time. -/
structure MergeInv (n : Nat) (q : List QEntry) (ar : Arena) (k : Nat) : Prop where
  leaves_le : n ≤ k
  balance : q.length + k = 2 * n
  nodup : (q.map QEntry.idx).Nodup
  mem_iff : ∀ i, InQueue ar n k i ↔ i ∈ q.map QEntry.idx
  weight : ∀ e ∈ q, weightAt ar e.idx = e.weight
  sum_lt : (q.map QEntry.weight).sum < 2 ^ 40
  joins : ∀ j, n ≤ j → j < k → JoinsLeast ar n j

theorem MergeInv.perm {n k : Nat} {q q' : List QEntry} {ar : Arena} (h : MergeInv n q ar k) (hp : q.Perm q') :
    MergeInv n q' ar k where
  leaves_le := h.leaves_le
  balance := hp.length_eq ▸ h.balance
  nodup := (hp.map _).nodup_iff.1 h.nodup
  mem_iff i := (h.mem_iff i).trans (hp.map _).mem_iff
  weight e he := h.weight e (hp.mem_iff.2 he)
  sum_lt := (hp.map QEntry.weight).sum_eq ▸ h.sum_lt
  joins := h.joins

theorem MergeInv.idx_lt {n k : Nat} {q : List QEntry} {ar : Arena} (h : MergeInv n q ar k) {e : QEntry} (he : e ∈ q) : e.idx < k :=
  ((h.mem_iff e.idx).2 (List.mem_map_of_mem he)).lt

/-- The first leaves of the arena and the queue of them meet the invariant. -/
theorem mergeInv_leaves (h : Hist) {syms : List Byte} (ar : Arena) (hn : syms.length ≤ 256) :
    MergeInv syms.length (leafQueue h syms 0) (placeLeaves h syms 0 ar) syms.length where
  leaves_le := le_rfl
  balance := by rw [leafQueue_length, two_mul]
  nodup := leafQueue_idx h syms 0 ▸ List.nodup_range'
  mem_iff i := by simp [inQueue_leaves, leafQueue_idx, List.mem_range']
  weight e he := by
    obtain ⟨-, sym, hsym, hw⟩ := weight_of_mem_leafQueue he
    rw [hw, ← builtLeaf_weight, weightAt_of_some]
    rw [placeLeaves_getElem? h syms 0 ar _ (by omega), if_neg (Nat.not_lt_zero _), hsym]
  sum_lt := leafQueue_weights h syms 0 ▸ sum_counts_lt hn
  joins j hnj hj := absurd hj (Nat.not_lt.2 hnj)

theorem MergeInv.ranksBefore {n k : Nat} {a b : QEntry} {q : List QEntry} {ar : Arena} (h : MergeInv n q ar k) (ha : a ∈ q)
    (hb : b ∈ q) (hab : a.before b = true) : RanksBefore ar a.idx b.idx := by
  rw [RanksBefore, h.weight a ha, h.weight b hb]
  simpa [QEntry.before] using hab

/-- Two extractions in a row take the two least entries of the priority structure. -/
theorem MergeInv.leastTwo {n k : Nat} {x y : QEntry} {q q₁ q₂ : List QEntry} {ar : Arena} (h : MergeInv n q ar k)
    (hx : extractMin q = some (x, q₁)) (hy : extractMin q₁ = some (y, q₂)) : LeastTwo ar n k x.idx y.idx := by
  have hq : MergeInv n (x :: y :: q₂) ar k := h.perm ((extractMin_perm hx).trans ((extractMin_perm hy).cons x))
  have hxy : x.idx ≠ y.idx := fun he => (List.nodup_cons.1 hq.nodup).1 (he ▸ List.mem_cons_self)
  have hbefore {a b : QEntry} (hab : a.before b = true ∨ a = b) (hne : b.idx ≠ a.idx) : a.before b = true :=
    hab.resolve_right fun he => hne (he ▸ rfl)
  refine ⟨(hq.mem_iff _).2 (by simp), (hq.mem_iff _).2 (by simp), ?_, fun i hi hix hiy => ?_⟩
  · have hmem : y ∈ q₁ := (extractMin_perm hy).mem_iff.2 List.mem_cons_self
    exact hq.ranksBefore (by simp) (by simp) (hbefore (extractMin_least hx hmem) hxy.symm)
  · obtain ⟨e, he, rfl⟩ : ∃ e ∈ q₂, e.idx = i := by simpa [hix, hiy] using (hq.mem_iff i).1 hi
    exact hq.ranksBefore (by simp) (by simp [he]) (hbefore (extractMin_least hy he) hiy)

/-- One turn of the loop keeps the invariant. -/
theorem MergeInv.merge {n k : Nat} {x y : QEntry} {q q₁ q₂ : List QEntry} {ar : Arena} (h : MergeInv n q ar k) (hn : n ≤ 256)
    (hx : extractMin q = some (x, q₁)) (hy : extractMin q₁ = some (y, q₂)) :
    MergeInv n (⟨x.weight + y.weight, k⟩ :: q₂) (ar.put k (mergedNode x y)) (k + 1) := by
  have htwo := h.leastTwo hx hy
  have hq : MergeInv n (x :: y :: q₂) ar k := h.perm ((extractMin_perm hx).trans ((extractMin_perm hy).cons x))
  have hbalance := hq.balance
  have hsum := hq.sum_lt
  simp only [List.length_cons] at hbalance
  simp only [List.map_cons, List.sum_cons] at hsum
  have hk : k < 511 := by omega
  have hnew : (ar.put k (mergedNode x y))[k]? = some (mergedNode x y) := arena_put_same ar _ hk
  have hold : ∀ j < k, (ar.put k (mergedNode x y))[j]? = ar[j]? := fun j hj => arena_put_other ar _ hj.ne'
  have hjoins : ∀ j, n ≤ j → j ≤ k → JoinsLeast (ar.put k (mergedNode x y)) n j := fun j hnj hj => by
    rcases hj.lt_or_eq with hlt | rfl
    · exact (hq.joins j hnj hlt).congr fun i hi => hold i (by omega)
    · exact htwo.joinsLeast_put hk (hq.weight x (by simp)) (hq.weight y (by simp)) (by omega)
  exact {
    leaves_le := h.leaves_le.trans k.le_succ
    balance := by rw [List.length_cons]; omega
    nodup := List.nodup_cons.2 ⟨fun hk => by
      obtain ⟨e, he, hek⟩ := List.mem_map.1 hk
      exact absurd hek (hq.idx_lt (by simp [he])).ne, hq.nodup.of_cons.of_cons⟩
    mem_iff := fun i => by
      rw [inQueue_succ h.leaves_le hjoins hnew, inQueue_congr hold, hq.mem_iff,
        mergedNode_left (htwo.left_mem.lt.trans hk), mergedNode_right (htwo.right_mem.lt.trans hk)]
      have hnodup := hq.nodup
      simp only [List.map_cons, List.nodup_cons, List.mem_cons] at hnodup ⊢
      grind
    weight := fun e he => by
      rcases List.mem_cons.1 he with rfl | he
      · exact (weightAt_of_some hnew).trans (mergedNode_weight (by omega))
      · exact (weightAt_congr (hold _ (hq.idx_lt (by simp [he])))).trans (hq.weight e (by simp [he]))
    sum_lt := by simp only [List.map_cons, List.sum_cons]; omega
    joins := fun j hnj hj => hjoins j hnj (Nat.le_of_lt_succ hj) }

/-- The loop ends with at most one entry in the priority structure, and the invariant still holds. -/
theorem mergeLoop_inv {n fuel : Nat} {q : List QEntry} {b : Built} (hn : n ≤ 256) (h : MergeInv n q b.arena b.next)
    (hf : q.length ≤ fuel) :
    ∃ q', q'.length ≤ 1 ∧ MergeInv n q' (mergeLoop fuel q b).arena (mergeLoop fuel q b).next := by
  induction fuel generalizing q b with
  | zero => exact ⟨q, by omega, h⟩
  | succ fuel ih =>
    rw [mergeLoop]
    cases hx : extractMin q with
    | none => exact ⟨q, by simp [(extractMin_eq_none q).1 hx], h⟩
    | some xq =>
      obtain ⟨x, q₁⟩ := xq
      have hlen := (extractMin_perm hx).length_eq
      cases hy : extractMin q₁ with
      | none => exact ⟨q, by simp [hlen, (extractMin_eq_none q₁).1 hy], by simpa [hy] using h⟩
      | some yq =>
        obtain ⟨y, q₂⟩ := yq
        have hlen' := (extractMin_perm hy).length_eq
        simp only [List.length_cons] at hlen hlen'
        simp only [hy]
        exact ih (h.merge hn hx hy) (by rw [List.length_cons]; omega)

/-- The loop writes no entry below the next free one. -/
theorem mergeLoop_keeps_below (fuel : Nat) (q : List QEntry) (b : Built) {i : Nat} (hi : i < b.next) :
    (mergeLoop fuel q b).arena[i]? = b.arena[i]? := by
  induction fuel generalizing q b with
  | zero => rfl
  | succ fuel ih =>
    rw [mergeLoop]
    split
    · rfl
    · split
      · rfl
      · exact (ih _ _ (Nat.lt_succ_of_lt hi)).trans (arena_put_other _ _ hi.ne')

/-! ### TREE_BUILD -/

/-- The built arena holds the leaves in order. -/
theorem buildTree_leaf (h : Hist) {syms : List Byte} (ar : Arena) (hn : syms.length ≤ 256) {j : Nat} (hj : j < syms.length) :
    (buildTree h syms ar).arena[j]? = some (builtLeaf h syms[j]) := by
  rw [buildTree, mergeLoop_keeps_below _ _ _ hj, placeLeaves_getElem? h syms 0 ar j (by omega)]
  simp [hj]

/-- Each internal node of the built arena joins the two least entries. -/
theorem buildTree_joins (h : Hist) {syms : List Byte} (ar : Arena) (hn : syms.length ≤ 256) {k : Nat} (hk : syms.length ≤ k)
    (hk' : k < 2 * syms.length - 1) : JoinsLeast (buildTree h syms ar).arena syms.length k := by
  obtain ⟨q, hq, hinv⟩ := mergeLoop_inv (b := ⟨_, 0, _⟩) hn (mergeInv_leaves h ar hn) (leafQueue_length h syms 0).le
  have hbalance := hinv.balance
  exact hinv.joins k hk (by omega)

theorem exec_treeBuild {s : State} (h : presentSymbols s.hist ≠ []) :
    ∃ t, exec .treeBuild s = .next t ∧ t.arena = (buildTree s.hist (presentSymbols s.hist) s.arena).arena := by
  rw [exec, execTreeBuild, if_neg h]
  exact ⟨_, rfl, rfl⟩

/-- Settles O37: the merge loop's invariant holds of the leaves and is kept by every turn, and at the end it speaks of all the internal
nodes. -/
theorem treeBuildMergesTheTwoLeast : Obligations.TreeBuildMergesTheTwoLeast := by
  rintro s syms n hs hm rfl hn
  have hsyms : presentSymbols s.hist = syms := presentSymbols_eq hs hm
  have hlen : syms.length ≤ 256 := hsyms ▸ presentSymbols_length_le s.hist
  obtain ⟨t, ht, har⟩ := exec_treeBuild (s := s) (hsyms ▸ List.length_pos_iff.1 hn)
  rw [hsyms] at har
  refine ⟨t, ht, fun j hj => ?_, fun k hk hk' => ?_⟩
  · exact ⟨_, har ▸ buildTree_leaf s.hist s.arena hlen hj, rfl, rfl, builtLeaf_weight s.hist _⟩
  · obtain ⟨nd, hnd, hleaf, hsym, ⟨hl, hr, hlr, hleast⟩, hw⟩ := buildTree_joins s.hist s.arena hlen hk hk'
    rw [har]
    exact ⟨nd, hnd, hleaf, hsym, hl, hr, hlr, hleast, hw⟩

end Sys2Proof.Machine
end

section
/-! The tree codec: what TREE_SER writes TREE_DES reads back as the same tree in pre-order numbering (41_tree_codec.md R174). -/

namespace Sys2Proof.Machine

/-! ### Strings in the bit view of a memory (20_memory.md R75) -/

theorem bits_congr {id id' : MemId} {m m' : ByteMem} {k n : Nat} (h : ∀ j, k ≤ j → j < k + n → m.bit id j = m'.bit id' j) :
    m.bits id k n = m'.bits id' k n :=
  List.map_congr_left fun j hj => h (k + j) (Nat.le_add_right k j) (Nat.add_lt_add_left (List.mem_range.1 hj) k)

theorem bits_add (id : MemId) (m : ByteMem) (k a b : Nat) : m.bits id k (a + b) = m.bits id k a ++ m.bits id (k + a) b := by
  simp [ByteMem.bits, List.range_add, Nat.add_assoc]

/-- A concatenation stands at a bit index when its parts stand one after the other. -/
theorem bits_eq_append_iff (id : MemId) (m : ByteMem) (k : Nat) (xs ys : Bits) :
    m.bits id k (xs ++ ys).length = xs ++ ys ↔
      m.bits id k xs.length = xs ∧ m.bits id (k + xs.length) ys.length = ys := by
  rw [List.length_append, bits_add]
  exact ⟨fun h => List.append_inj h (bits_length ..), fun ⟨hx, hy⟩ => by rw [hx, hy]⟩

theorem bits_eq_cons_iff (id : MemId) (m : ByteMem) (k : Nat) (b : Bool) (bs : Bits) :
    m.bits id k (b :: bs).length = b :: bs ↔ m.bit id k = b ∧ m.bits id (k + 1) bs.length = bs := by
  simpa [ByteMem.bits] using bits_eq_append_iff id m k [b] bs

/-! ### Trees without their indices -/

@[simp] theorem Tree.erase_serBits (t : Tree) : t.erase.serBits = t.serBits := by
  induction t with
  | leaf => rfl
  | node _ l r ihl ihr => rw [erase, serBits, serBits, ihl, ihr]

@[simp] theorem Tree.erase_leafCount (t : Tree) : t.erase.leafCount = t.leafCount := by
  induction t with
  | leaf => rfl
  | node _ l r ihl ihr => rw [erase, leafCount, leafCount, ihl, ihr]

@[simp] theorem Tree.erase_isLeaf (t : Tree) : t.erase.isLeaf = t.isLeaf := by cases t <;> rfl

@[simp] theorem Tree.indices_length (t : Tree) : t.indices.length = t.size := by
  induction t with
  | leaf => rfl
  | node _ l r ihl ihr => simp only [indices, size, List.length_cons, List.length_append, ihl, ihr]; omega

theorem Tree.one_le_size (t : Tree) : 1 ≤ t.size := by
  have := t.size_succ
  have := t.one_le_leafCount
  omega

/-- The tree with its nodes numbered in pre-order from `k` on, as Parse allocates them (41_tree_codec.md R171). -/
def Tree.number : Tree → Nat → Tree
  | .leaf _ sym, k => .leaf k sym
  | .node _ l r, k => .node k (l.number (k + 1)) (r.number (k + 1 + l.size))

@[simp] theorem Tree.number_erase (t : Tree) (k : Nat) : (t.number k).erase = t.erase := by
  induction t generalizing k with
  | leaf => rfl
  | node _ l r ihl ihr => rw [number, erase, erase, ihl, ihr]

@[simp] theorem Tree.number_serBits (t : Tree) (k : Nat) : (t.number k).serBits = t.serBits := by
  rw [← (t.number k).erase_serBits, number_erase, erase_serBits]

@[simp] theorem Tree.number_leafCount (t : Tree) (k : Nat) : (t.number k).leafCount = t.leafCount := by
  rw [← (t.number k).erase_leafCount, number_erase, erase_leafCount]

@[simp] theorem Tree.number_isLeaf (t : Tree) (k : Nat) : (t.number k).isLeaf = t.isLeaf := by
  rw [← (t.number k).erase_isLeaf, number_erase, erase_isLeaf]

theorem Tree.number_indices (t : Tree) (k : Nat) : (t.number k).indices = List.range' k t.size := by
  induction t generalizing k with
  | leaf => rfl
  | node _ l r ihl ihr =>
    rw [number, indices, ihl, ihr, size, Nat.add_assoc 1, Nat.add_comm 1, List.range'_succ, List.range'_append_1]

/-! ### Trees in the arena (10_state.md R40) -/

theorem node?_ofNat (ar : Arena) {k : Nat} (hk : k < 512) : ar.node? (BitVec.ofNat 9 k) = ar[k]? := by
  rw [Arena.node?, BitVec.toNat_ofNat, Nat.mod_eq_of_lt hk]

/-- What one call of the walk reads: a leaf, or an internal node with the trees of its two children. -/
theorem readTree_succ_eq_some_iff (ar : Arena) (fuel : Nat) (i : BitVec 9) (t : Tree) :
    readTree ar (fuel + 1) i = some t ↔ ∃ nd, ar.node? i = some nd ∧
      ((nd.leaf = true ∧ .leaf i.toNat nd.sym = t) ∨
        (nd.leaf = false ∧ ∃ l r, readTree ar fuel nd.left = some l ∧ readTree ar fuel nd.right = some r ∧
          .node i.toNat l r = t)) := by
  rw [readTree]
  cases ar.node? i with
  | none => simp
  | some nd =>
    cases hleaf : nd.leaf with
    | true => simp [hleaf]
    | false =>
      cases hl : readTree ar fuel nd.left <;> cases hr : readTree ar fuel nd.right <;> simp [hleaf, hl, hr]

theorem readTree_indices_lt {ar : Arena} {fuel : Nat} {i : BitVec 9} {t : Tree} (h : readTree ar fuel i = some t) :
    ∀ j ∈ t.indices, j < 511 := by
  induction fuel generalizing i t with
  | zero => cases h
  | succ fuel ih =>
    obtain ⟨nd, hnd, hcase⟩ := (readTree_succ_eq_some_iff ..).1 h
    have hi : i.toNat < 511 := (node?_isSome ar i).1 (hnd ▸ rfl)
    rcases hcase with ⟨-, rfl⟩ | ⟨-, l, r, hl, hr, rfl⟩
    · simpa [Tree.indices] using hi
    · simp only [Tree.indices, List.mem_cons, List.mem_append]
      rintro j (rfl | hj | hj)
      · exact hi
      · exact ih hl j hj
      · exact ih hr j hj

/-- The entries of a valid tree are 0, 1, .. without a gap, and each is one of the arena's 511. -/
theorem HoldsTree.size_le {s : State} {t : Tree} (h : HoldsTree s t) : t.size ≤ 511 := by
  obtain ⟨ht, hperm, -, -⟩ := h
  by_contra hlarge
  have hsize : t.size = s.nodeCount.toNat := by simpa using hperm.length_eq
  have hmem : 511 ∈ t.indices := hperm.mem_iff.2 (List.mem_range.2 (by omega))
  exact Nat.lt_irrefl _ (readTree_indices_lt ht _ hmem)

/-! ### The arena Parse leaves (41_tree_codec.md R171) -/

/-- The arena holds the tree as Parse writes it: its nodes in pre-order from index `k` on, with weights 0. -/
def Tree.PlacedAt (ar : Arena) : Tree → Nat → Prop
  | .leaf _ sym, k => ar[k]? = some (parsedLeaf sym)
  | .node _ l r, k => ar[k]? = some (parsedNode (k + 1) (k + 1 + l.size)) ∧
      l.PlacedAt ar (k + 1) ∧ r.PlacedAt ar (k + 1 + l.size)

theorem Tree.PlacedAt.congr {ar ar' : Arena} {t : Tree} {k : Nat} (h : t.PlacedAt ar k)
    (heq : ∀ j, k ≤ j → j < k + t.size → ar'[j]? = ar[j]?) : t.PlacedAt ar' k := by
  induction t generalizing k with
  | leaf _ sym => exact (heq k le_rfl (Nat.lt_succ_self k)).trans h
  | node _ l r ihl ihr =>
    obtain ⟨hroot, hl, hr⟩ := h
    rw [size] at heq
    exact ⟨(heq k le_rfl (by omega)).trans hroot, ihl hl fun j _ _ => heq j (by omega) (by omega),
      ihr hr fun j _ _ => heq j (by omega) (by omega)⟩

theorem Tree.PlacedAt.root {ar : Arena} {t : Tree} {k : Nat} (h : t.PlacedAt ar k) :
    ∃ nd, ar[k]? = some nd ∧ nd.leaf = t.isLeaf := by
  cases t with
  | leaf => exact ⟨_, h, rfl⟩
  | node => exact ⟨_, h.1, rfl⟩

theorem Tree.PlacedAt.weightAt_eq_zero {ar : Arena} {t : Tree} {k j : Nat} (h : t.PlacedAt ar k) (hk : k ≤ j)
    (hj : j < k + t.size) : weightAt ar j = 0 := by
  induction t generalizing k with
  | leaf _ sym =>
    obtain rfl : j = k := by rw [size] at hj; omega
    exact weightAt_of_some h
  | node _ l r ihl ihr =>
    obtain ⟨hroot, hl, hr⟩ := h
    rw [size] at hj
    rcases hk.eq_or_lt with rfl | hlt
    · exact weightAt_of_some hroot
    · by_cases hleft : j < k + 1 + l.size
      · exact ihl hl hlt hleft
      · exact ihr hr (Nat.le_of_not_lt hleft) (by omega)

/-- The walk from the root of a placed tree reads it, with its nodes numbered in pre-order. -/
theorem Tree.PlacedAt.readTree_eq {ar : Arena} {t : Tree} {k fuel : Nat} (h : t.PlacedAt ar k) (hk : k + t.size ≤ 511)
    (hf : t.size ≤ fuel) : readTree ar fuel (BitVec.ofNat 9 k) = some (t.number k) := by
  induction t generalizing k fuel with
  | leaf _ sym =>
    rw [size] at hk hf
    obtain ⟨fuel, rfl⟩ := Nat.exists_eq_add_one.2 hf
    rw [readTree_succ_eq_some_iff, node?_ofNat ar (by omega), BitVec.toNat_ofNat, Nat.mod_eq_of_lt (by omega)]
    exact ⟨_, h, .inl ⟨rfl, rfl⟩⟩
  | node _ l r ihl ihr =>
    obtain ⟨hroot, hl, hr⟩ := h
    rw [size] at hk hf
    obtain ⟨fuel, rfl⟩ := Nat.exists_eq_add_one.2 (show 0 < fuel by omega)
    rw [readTree_succ_eq_some_iff, node?_ofNat ar (by omega), BitVec.toNat_ofNat, Nat.mod_eq_of_lt (by omega)]
    exact ⟨_, hroot, .inr ⟨rfl, _, _, ihl hl (by omega) (by omega), ihr hr (by omega) (by omega), rfl⟩⟩

/-! ### Parse on a serialised tree (41_tree_codec.md R171) -/

section Parse

variable {m : ByteMem} {endp fuel pos count leaves : Nat} {ar : Arena}

theorem parse_leaf (hend : pos + 9 ≤ endp) (hcount : count < 511) (htag : m.bit .bs pos = true) :
    parse m endp (fuel + 1) ⟨pos, count, leaves, ar⟩ = .ok (count, ⟨pos + 9, count + 1, leaves + 1,
      ar.put count (parsedLeaf (BitVec.ofNat 8 (uint (m.bits .bs (pos + 1) 8))))⟩) := by
  have htagRoom : ¬ endp ≤ pos := by omega
  have hsymRoom : ¬ endp < pos + 1 + 8 := by omega
  simp [parse, htagRoom, hsymRoom, hcount.ne, htag]

theorem parse_node {l r : Nat} {st₁ st₂ : ParseState} (hend : pos < endp) (hcount : count < 511) (htag : m.bit .bs pos = false)
    (hl : parse m endp fuel ⟨pos + 1, count + 1, leaves, ar⟩ = .ok (l, st₁)) (hr : parse m endp fuel st₁ = .ok (r, st₂)) :
    parse m endp (fuel + 1) ⟨pos, count, leaves, ar⟩ =
      .ok (count, { st₂ with arena := st₂.arena.put count (parsedNode l r) }) := by
  simp [parse, hend.not_ge, hcount.ne, htag, hl, hr]

/-- Where the body of a tree stands before `endp` and the arena has room, Parse consumes exactly that body, and writes the tree from the
next free entry on and no other entry. -/
theorem parse_serBits (t : Tree) (hf : t.size ≤ fuel) (hcount : count + t.size ≤ 511) (hend : pos + t.serBits.length ≤ endp)
    (hbits : m.bits .bs pos t.serBits.length = t.serBits) :
    ∃ ar', parse m endp fuel ⟨pos, count, leaves, ar⟩ =
        .ok (count, ⟨pos + t.serBits.length, count + t.size, leaves + t.leafCount, ar'⟩) ∧
      t.PlacedAt ar' count ∧ ∀ j, j < count ∨ count + t.size ≤ j → ar'[j]? = ar[j]? := by
  induction t generalizing fuel pos count leaves ar with
  | leaf _ sym =>
    rw [Tree.size] at hf hcount
    obtain ⟨fuel, rfl⟩ := Nat.exists_eq_add_one.2 hf
    obtain ⟨htag, hsym⟩ := (bits_eq_cons_iff ..).1 hbits
    rw [bitsN_length] at hsym
    rw [Tree.serBits, List.length_cons, bitsN_length] at hend ⊢
    refine ⟨ar.put count (parsedLeaf sym), ?_, arena_put_same _ _ hcount, fun j hj => arena_put_other _ _ ?_⟩
    · rw [parse_leaf hend hcount htag, hsym, uint_bitsN_byte]
      rfl
    · rw [Tree.size] at hj
      omega
  | node _ l r ihl ihr =>
    rw [Tree.size] at hf hcount
    obtain ⟨fuel, rfl⟩ := Nat.exists_eq_add_one.2 (show 0 < fuel by omega)
    obtain ⟨htag, hbody⟩ := (bits_eq_cons_iff ..).1 hbits
    obtain ⟨hbitsl, hbitsr⟩ := (bits_eq_append_iff ..).1 hbody
    rw [Tree.serBits, List.length_cons, List.length_append] at hend ⊢
    obtain ⟨arl, hparsel, hplacedl, hframel⟩ :=
      ihl (fuel := fuel) (count := count + 1) (leaves := leaves) (ar := ar) (by omega) (by omega) (by omega) hbitsl
    obtain ⟨arr, hparser, hplacedr, hframer⟩ :=
      ihr (fuel := fuel) (count := count + 1 + l.size) (leaves := leaves + l.leafCount) (ar := arl) (by omega) (by omega) (by omega) hbitsr
    have hother {nd : Node} {j : Nat} (hj : count ≠ j) : (arr.put count nd)[j]? = arr[j]? := arena_put_other arr _ hj
    refine ⟨arr.put count (parsedNode (count + 1) (count + 1 + l.size)), ?_, ⟨arena_put_same _ _ (by omega), ?_, ?_⟩,
      fun j hj => ?_⟩
    · rw [parse_node (by omega) (by omega) htag hparsel hparser]
      simp only [Tree.size, Tree.leafCount, Nat.add_assoc, Nat.add_comm]
    · exact hplacedl.congr fun j _ _ => (hother (by omega)).trans (hframer j (by omega))
    · exact hplacedr.congr fun j _ _ => hother (by omega)
    · rw [Tree.size] at hj
      rw [hother (by omega), hframer j (by omega), hframel j (by omega)]

end Parse

/-! ### TREE_DES on a segment of a tree (41_tree_codec.md R170, R172, R173) -/

theorem readPadField_eq_ok {s : State} {p : Nat} (hp : p < 8) (hroom : s.bsBitptr.toNat + 8 ≤ s.bsLen.toNat)
    (hfield : s.bsMem.bits .bs s.bsBitptr.toNat 8 = bitsN 8 p) : readPadField s = .ok p := by
  have huint : uint (s.bsMem.bits .bs s.bsBitptr.toNat 8) = p := by rw [hfield, uint_bitsN 8 p (by omega)]
  rcases readPadField_cases s with ⟨hshort, -⟩ | ⟨-, hlarge, -⟩ | ⟨-, -, hok⟩
  · omega
  · omega
  · rw [hok, huint]

/-- The parts of a segment: its pad field and its body. -/
theorem treeSegment_parts {s : State} {tr : Tree} {p : Nat} {padding : Bits} (h : HoldsTreeSegment s tr p padding) :
    s.bsMem.bits .bs s.bsBitptr.toNat 8 = bitsN 8 p ∧
      s.bsMem.bits .bs (s.bsBitptr.toNat + 8) tr.serBits.length = tr.serBits := by
  obtain ⟨-, -, -, hpad, -, hbits⟩ := h
  have hlen : 8 + tr.serBits.length + p = (bitsN 8 p ++ tr.serBits ++ padding).length := by simp [hpad, Nat.add_assoc]
  rw [hlen, bits_eq_append_iff, bits_eq_append_iff, bitsN_length] at hbits
  exact hbits.1

/-- A segment passes every check of TREE_DES, which then completes with the tree at the start of the arena and the other entries as they
were. -/
theorem treeDes_of_segment {s : State} {tr : Tree} {p : Nat} {padding : Bits} (hsize : tr.size ≤ 511)
    (h : HoldsTreeSegment s tr p padding) :
    ∃ ar, exec .treeDes s = .next (complete { installTree 0 tr.size tr.leafCount tr.isLeaf { s with arena := ar } with
        bsBitptr := BitVec.ofNat 32 (s.bsBitptr.toNat + (8 + tr.serBits.length + p))
        segPad := BitVec.ofNat 8 p
        segBits := BitVec.ofNat 32 (8 + tr.serBits.length + p) }) ∧
      tr.PlacedAt ar 0 ∧ ∀ j, tr.size ≤ j → ar[j]? = s.arena[j]? := by
  obtain ⟨hfield, hbody⟩ := treeSegment_parts h
  obtain ⟨hcap, hp, hwhole, -, hlen, -⟩ := h
  obtain ⟨ar, hparse, hplaced, hframe⟩ := parse_serBits (endp := s.bsLen.toNat) (fuel := 512) (count := 0) (leaves := 0)
    (ar := s.arena) tr (by omega) (by omega) (by omega) hbody
  refine ⟨ar, ?_, hplaced, fun j hj => hframe j (.inr (by rwa [Nat.zero_add]))⟩
  have hinRange : bsLenOutOfRange s = false := by simpa [bsLenOutOfRange] using hcap
  have hread : readPadField s = .ok p := readPadField_eq_ok hp (by omega) hfield
  have hroom : ¬ s.bsLen.toNat < s.bsBitptr.toNat + 8 + tr.serBits.length + p := by omega
  have hsingle : (ar[0]).leaf = tr.isLeaf := by
    obtain ⟨nd, hnd, hleaf⟩ := hplaced.root
    rwa [(Vector.getElem?_eq_some_iff.1 hnd).2]
  simp only [exec, execTreeDes, hinRange, hread, hparse, Nat.add_sub_cancel_left, hwhole, hroom]
  simp [succeed, hsingle, Nat.add_assoc]

/-- A placed tree is the valid tree of the state it is installed in. -/
theorem holdsTree_installTree {s : State} {t : Tree} (h : t.PlacedAt s.arena 0) (hsize : t.size ≤ 511) :
    HoldsTree (installTree 0 t.size t.leafCount t.isLeaf s) (t.number 0) := by
  have hleaves : t.leafCount < 2 ^ 9 := by have := t.size_succ; omega
  refine ⟨h.readTree_eq (by omega) hsize, ?_, ?_, ?_⟩
  · rw [Tree.number_indices, ← List.range_eq_range', installTree_nodeCount, BitVec.toNat_ofNat, Nat.mod_eq_of_lt (by omega)]
  · rw [Tree.number_leafCount, installTree_symCount, BitVec.toNat_ofNat, Nat.mod_eq_of_lt hleaves]
  · rw [Tree.number_isLeaf, installTree_status]

/-! ### TREE_SER (41_tree_codec.md R160) -/

theorem exec_treeSer {s : State} {tr : Tree} (hv : s.status.treeValid = true) (ht : currentTree s = some tr) :
    exec .treeSer s = emitSegment tr.serBits s := by
  simp [exec, execTreeSer, hv, ht]

/-- A segment that was emitted without an error fitted into OUT, and stands there. -/
theorem emitSegment_completed {s t : State} {body : Bits} (h : emitSegment body s = .next t) (herr : t.status.err = false) :
    s.outBitptr.toNat + (8 + body.length + padOf body.length) ≤ 8 * s.caps.outCap ∧
      t = complete { s with
        outMem := s.outMem.setBits .out s.outBitptr.toNat (frameSegment body)
        outBitptr := BitVec.ofNat 32 (s.outBitptr.toNat + (8 + body.length + padOf body.length))
        segPad := BitVec.ofNat 8 (padOf body.length)
        segBits := BitVec.ofNat 32 (8 + body.length + padOf body.length) } := by
  rcases emitSegment_cases body s with ⟨-, he⟩ | ⟨hroom, he⟩ <;> obtain rfl := Host.Outcome.next.inj (he.symm.trans h)
  · simp at herr
  · exact ⟨hroom, rfl⟩

/-! ### The round trip (41_tree_codec.md R174) -/

/-- Settles O52: the segment TREE_SER emitted, copied into BS, is a segment of the tree, and the tree TREE_DES places is that tree numbered
in pre-order. -/
theorem treeCodecRoundTrip : Obligations.TreeCodecRoundTrip := by
  intro s s₁ d tr hcaps _ hwf hv htree _ hser herr hptr hlen hcap hcopy
  rw [exec_treeSer hv htree.1] at hser
  obtain ⟨hroom, rfl⟩ := emitSegment_completed hser herr
  have hsize := htree.size_le
  have hpad := padOf_lt tr.serBits.length
  have hsegBits : (BitVec.ofNat 32 (8 + tr.serBits.length + padOf tr.serBits.length)).toNat =
      8 + tr.serBits.length + padOf tr.serBits.length :=
    Nat.mod_eq_of_lt (by obtain ⟨-, ⟨-, -, hout⟩, -⟩ := hcaps; omega)
  simp only [complete_segBits, hsegBits] at hlen hcopy
  have hwrote := bits_setBits .out (frameSegment tr.serBits) s.outBitptr.toNat (wf_rising hwf)
  rw [frameSegment_length] at hwrote
  have hseg : HoldsTreeSegment d tr (padOf tr.serBits.length) (zeros (padOf tr.serBits.length)) :=
    ⟨hcap, hpad, padOf_aligns _, zeros_length _, hptr ▸ hlen, hptr ▸ (bits_congr hcopy).trans hwrote⟩
  obtain ⟨ar, hdes, hplaced, -⟩ := treeDes_of_segment hsize hseg
  have hheld := holdsTree_installTree (s := { d with arena := ar }) hplaced hsize
  have hcount : (BitVec.ofNat 10 tr.size).toNat = tr.size := Nat.mod_eq_of_lt (by omega)
  refine ⟨_, tr.number 0, hdes, rfl, rfl, hheld, tr.number_erase 0, tr.number_serBits 0, ?_, fun j hj => ?_, ?_, rfl⟩
  · simp only [complete_nodeCount, installTree_nodeCount, hcount, tr.number_indices, List.range_eq_range']
  · simp only [complete_nodeCount, installTree_nodeCount, hcount] at hj
    exact hplaced.weightAt_eq_zero j.zero_le (by rwa [Nat.zero_add])
  · simp only [complete_bsBitptr, complete_outBitptr, hptr]

end Sys2Proof.Machine
end

section
/-! CODE_GEN: the code of a symbol is the path to its leaf (42_payload_encoder.md R190, R191). -/

namespace Sys2Proof.Machine

/-! ### The LUT entry of a code (10_state.md R45) -/

/-- `bits_N` writes back what `uint` reads. -/
theorem bitsN_uint (bs : Bits) : bitsN bs.length (uint bs) = bs := by
  induction bs using List.reverseRecOn with
  | nil => rfl
  | append_singleton bs b ih =>
    rw [List.length_append, List.length_singleton, bitsN_succ, uint_append_bit, ← Nat.bit_val, Nat.bit_div_two, ih,
      Nat.testBit_bit_zero]

theorem getMsbD_ofNat (n v j : Nat) : (BitVec.ofNat n v).getMsbD j = (bitsN n v).getD j false := by
  by_cases hj : j < n
  · have hbit : n - 1 - j < n := by omega
    simp [bitsN, BitVec.getMsbD, BitVec.getElem_eq_testBit_toNat, hj, hbit]
  · simp [bitsN, BitVec.getMsbD, hj]

@[simp] theorem entryOfCode_present (c : Bits) : (entryOfCode c).present = true := rfl

theorem entryOfCode_len {c : Bits} (hc : c.length < 256) : (entryOfCode c).len.toNat = c.length := Nat.mod_eq_of_lt hc

/-- CBITS holds the code and zeros after it. -/
theorem entryOfCode_getMsbD {c : Bits} (hc : c.length < 256) (j : Nat) : (entryOfCode c).cbits.getMsbD j = c.getD j false := by
  have hlen : (c ++ zeros (256 - c.length)).length = 256 := by simp; omega
  have hbits := bitsN_uint (c ++ zeros (256 - c.length))
  rw [hlen] at hbits
  rw [entryOfCode, getMsbD_ofNat, hbits]
  rcases Nat.lt_or_ge j c.length with hj | hj
  · exact List.getD_append _ _ _ _ hj
  · rw [List.getD_append_right _ _ _ _ hj, List.getD_eq_default _ _ hj, zeros, List.getD_eq_getElem?_getD,
      List.getElem?_getD_replicate_default_eq]

theorem lutBits_entryOfCode {c : Bits} (hc : c.length < 256) : lutBits (entryOfCode c) = c := by
  refine List.ext_getElem (by simp [lutBits, entryOfCode_len hc]) fun j _ hj => ?_
  simp [lutBits, entryOfCode_getMsbD hc, hj]

/-! ### Filling the LUT (42_payload_encoder.md R190) -/

/-- Leaves of distinct symbols none of which is present are all entered, and no other entry changes. -/
theorem fillLut_of_nodup {cs : List LeafCode} {l : Lut} (hd : (cs.map LeafCode.sym).Nodup)
    (hl : ∀ lc ∈ cs, (l.entry lc.sym).present = false) :
    ∃ l', fillLut cs l = .ok l' ∧ (∀ lc ∈ cs, l'.entry lc.sym = entryOfCode lc.code) ∧
      ∀ b, b ∉ cs.map LeafCode.sym → l'.entry b = l.entry b := by
  induction cs generalizing l with
  | nil => exact ⟨l, rfl, by simp, fun _ _ => rfl⟩
  | cons c cs ih =>
    obtain ⟨hc, hd⟩ := List.nodup_cons.1 hd
    have hother : ∀ lc ∈ cs, c.sym ≠ lc.sym := fun lc hlc he => hc (he ▸ List.mem_map_of_mem hlc)
    obtain ⟨l', hfill, hin, hout⟩ := ih (l := l.put c.sym (entryOfCode c.code)) hd fun lc hlc => by
      rw [entry_put_other l _ (hother lc hlc)]; exact hl lc (List.mem_cons_of_mem c hlc)
    refine ⟨l', by rw [fillLut, hl c List.mem_cons_self, ← hfill]; rfl, fun lc hlc => ?_, fun b hb => ?_⟩
    · rcases List.mem_cons.1 hlc with rfl | hlc
      · rw [hout _ hc, entry_put_same]
      · exact hin lc hlc
    · obtain ⟨hne, hb⟩ := not_or.1 (mt List.mem_cons.2 hb)
      rw [hout b hb, entry_put_other l _ (Ne.symm hne)]

/-! ### Leaves and their paths (42_payload_encoder.md R191) -/

theorem leafAt_of_leaf {ar : Arena} {i : BitVec 9} {nd : Node} (hnd : ar.node? i = some nd) (hleaf : nd.leaf = true)
    (c : Bits) (sym : Byte) : LeafAt ar i c sym ↔ c = [] ∧ nd.sym = sym := by
  cases c with
  | nil => simp [LeafAt, pathEnd, hnd, hleaf]
  | cons b c => simp [LeafAt, pathEnd, hnd, hleaf]

theorem leafAt_of_internal {ar : Arena} {i : BitVec 9} {nd : Node} (hnd : ar.node? i = some nd) (hleaf : nd.leaf = false)
    (c : Bits) (sym : Byte) : LeafAt ar i c sym ↔
      (∃ c', c = false :: c' ∧ LeafAt ar nd.left c' sym) ∨ (∃ c', c = true :: c' ∧ LeafAt ar nd.right c' sym) := by
  cases c with
  | nil => simp [LeafAt, pathEnd, hnd, hleaf]
  | cons b c => cases b <;> simp [LeafAt, pathEnd, hnd, hleaf]

/-- The walk of CODE_GEN meets exactly the leaves at the ends of paths, each with its path. -/
theorem mem_leafCodes_iff {ar : Arena} {fuel : Nat} {i : BitVec 9} {t : Tree} (h : readTree ar fuel i = some t)
    (pre code : Bits) (sym : Byte) :
    (∃ k, ⟨k, sym, code⟩ ∈ t.leafCodes pre) ↔ ∃ c, code = pre ++ c ∧ LeafAt ar i c sym := by
  induction fuel generalizing i t pre with
  | zero => cases h
  | succ fuel ih =>
    obtain ⟨nd, hnd, ⟨hleaf, rfl⟩ | ⟨hleaf, l, r, hl, hr, rfl⟩⟩ := (readTree_succ_eq_some_iff ..).1 h
    · simp [Tree.leafCodes, leafAt_of_leaf hnd hleaf, and_comm, eq_comm]
    · simp [Tree.leafCodes, exists_or, ih hl, ih hr, leafAt_of_internal hnd hleaf, and_or_left]

theorem Tree.leafCodes_length (t : Tree) (pre : Bits) : (t.leafCodes pre).length = t.leafCount := by
  induction t generalizing pre with
  | leaf => rfl
  | node _ l r ihl ihr => rw [leafCodes, List.length_append, ihl, ihr, leafCount]

/-- A path is shorter than the tree has leaves: each node on it has a leaf beside the path. -/
theorem Tree.code_length_lt {t : Tree} {pre : Bits} {lc : LeafCode} (h : lc ∈ t.leafCodes pre) :
    lc.code.length < pre.length + t.leafCount := by
  induction t generalizing pre with
  | leaf =>
    obtain rfl := List.mem_singleton.1 h
    exact Nat.lt_succ_self _
  | node _ l r ihl ihr =>
    have := l.one_le_leafCount
    have := r.one_le_leafCount
    rw [leafCount]
    rcases List.mem_append.1 h with h | h
    · have := List.length_append ▸ ihl h
      rw [List.length_singleton] at this
      omega
    · have := List.length_append ▸ ihr h
      rw [List.length_singleton] at this
      omega

theorem length_le_of_nodup_bytes {syms : List Byte} (h : syms.Nodup) : syms.length ≤ 256 := by
  have hsub : syms.map BitVec.toNat ⊆ List.range 256 := fun n hn => by
    obtain ⟨b, -, rfl⟩ := List.mem_map.1 hn
    exact List.mem_range.2 b.isLt
  simpa using ((h.map fun _ _ => BitVec.eq_of_toNat_eq).subperm hsub).length_le

theorem Tree.code_length_lt_256 {t : Tree} (hd : ((t.leafCodes []).map LeafCode.sym).Nodup) {lc : LeafCode}
    (h : lc ∈ t.leafCodes []) : lc.code.length < 256 := by
  have hlt := code_length_lt h
  have hle := length_le_of_nodup_bytes hd
  rw [List.length_map, leafCodes_length] at hle
  rw [List.length_nil, Nat.zero_add] at hlt
  exact hlt.trans_le hle

/-! ### CODE_GEN -/

theorem exec_codeGen {s : State} {tr : Tree} {l : Lut} (hv : s.status.treeValid = true) (ht : currentTree s = some tr)
    (hl : codeTable tr = .ok l) : exec .codeGen s = .next (complete (setCodeValid true { s with lut := l })) := by
  simp [exec, execCodeGen, hv, ht, hl, succeed]

/-- Settles O39: the table enters each leaf met by the walk, which are the leaves at the ends of paths, with a path of fewer than 256 bits. -/
theorem codeGenWritesPaths : Obligations.CodeGenWritesPaths := by
  intro s tr hv htree hd
  obtain ⟨ht, -⟩ := htree
  have hmem (sym c) : (∃ k, ⟨k, sym, c⟩ ∈ tr.leafCodes []) ↔ LeafAt s.arena s.root c sym := by
    simpa using mem_leafCodes_iff ht [] c sym
  obtain ⟨l, hl, hin, hout⟩ := fillLut_of_nodup (l := absentLut) hd fun lc _ => by rw [entry_absentLut]; rfl
  refine ⟨_, exec_codeGen hv ht hl, rfl, fun sym c hc => ?_, fun sym hsym => ?_⟩
  · obtain ⟨k, hk⟩ := (hmem sym c).2 hc
    have hlen := Tree.code_length_lt_256 hd hk
    have hentry : l.entry sym = entryOfCode c := hin _ hk
    refine hentry ▸ ⟨rfl, entryOfCode_len hlen, lutBits_entryOfCode hlen, fun j hj => ?_⟩
    rw [entryOfCode_getMsbD hlen, List.getD_eq_default _ _ hj]
  · have habsent : sym ∉ (tr.leafCodes []).map LeafCode.sym := fun h => by
      obtain ⟨⟨k, _, c⟩, hlc, rfl⟩ := List.mem_map.1 h
      exact hsym ⟨c, (hmem _ c).1 ⟨k, hlc⟩⟩
    exact (hout sym habsent).trans (entry_absentLut sym)

end Sys2Proof.Machine
end

section
/-! PAY_DEC under a single-leaf tree (43_payload_decoder.md R210, R211, R213). -/

namespace Sys2Proof.Machine

/-- A well-formed payload segment passes every check of the header, and PAY_DEC decodes it as the kind of the root says
(43_payload_decoder.md R210, R211). -/
theorem exec_payDec_of_payload {s : State} {p l : Nat} {rt : Node} (hv : s.status.treeValid = true) (h : HoldsPayload s p l)
    (hroot : s.arena.node? s.root = some rt) :
    exec .payDec s = if rt.leaf then decodeSingleLeaf rt.sym p l s else decodeWalk p l s := by
  obtain ⟨hcap, hlen, rfl, hp, hpad, hwhole⟩ := h
  have hinRange : bsLenOutOfRange s = false := by simpa [bsLenOutOfRange] using hcap
  have hbody : s.bsLen.toNat - (s.bsBitptr.toNat + 8) = l := by omega
  rcases readPadField_cases s with ⟨hshort, -⟩ | ⟨-, hlarge, -⟩ | ⟨-, -, hread⟩
  · omega
  · omega
  · simp [exec, execPayDec, hinRange, hv, hread, hbody, hpad.not_gt, hwhole, hroot]

/-! ### The bytes a decode leaves in DEC (20_memory.md R74) -/

theorem read_writeBytes_replicate (id : MemId) {m : ByteMem} (v : Byte) {n j : Nat} (hj : j < n)
    (h : risingCells m.cells = true) : (m.writeBytes 0 (List.replicate n v)).read id j = v := by
  have hread := read_writeBytes_in id (List.replicate n v) 0 j (by simpa using hj) h
  rwa [Nat.zero_add, List.getElem_replicate] at hread

/-! ### The single-leaf case (43_payload_decoder.md R213) -/

theorem decodeSingleLeaf_bits (sym : Byte) {p l : Nat} (s : State) (h : l - p ≠ 0) :
    decodeSingleLeaf sym p l s = failStream .singleLeafBits (s.bsBitptr.toNat + 8) s.drawDec := if_pos h

theorem decodeSingleLeaf_overflow (sym : Byte) (p : Nat) {s : State} (h : s.caps.decCap < s.decRepeat.toNat) :
    decodeSingleLeaf sym p p s = fail .decOverflow 0x02 s.decRepeat.toNat s.drawDec := by
  simp [decodeSingleLeaf, h]

theorem decodeSingleLeaf_repeats (sym : Byte) (p : Nat) {s : State} (h : s.decRepeat.toNat ≤ s.caps.decCap) :
    decodeSingleLeaf sym p p s = finishDecode (List.replicate s.decRepeat.toNat sym) p p s := by
  simp [decodeSingleLeaf, h.not_gt]

/-- Settles O55: a well-formed payload reaches the single-leaf case, whose three branches are the three clauses. -/
theorem payDecRepeatsSingleLeaf : Obligations.PayDecRepeatsSingleLeaf := by
  intro s p l rt _ hwf hv hpay hroot hleaf
  have hexec : exec .payDec s = decodeSingleLeaf rt.sym p l s := by rw [exec_payDec_of_payload hv hpay hroot, if_pos hleaf]
  obtain ⟨-, -, -, -, hpad, -⟩ := hpay
  refine ⟨fun hnone hfits => ?_, fun hbits => ?_, fun hnone hover => ?_⟩
  · subst hnone
    rw [decodeSingleLeaf_repeats _ _ hfits] at hexec
    have hcount : BitVec.ofNat 32 (List.replicate s.decRepeat.toNat rt.sym).length = s.decRepeat := by simp
    refine ⟨_, hexec, by rw [hcount]; rfl, fun j hj => ?_, fun a ha => ?_⟩
    · exact read_writeBytes_replicate .dec rt.sym hj (wf_rising hwf)
    · exact read_writeBytes_out .dec _ s.decMem 0 a (.inr (by simpa using ha))
  · exact ⟨_, hexec.trans (decodeSingleLeaf_bits _ s (by omega)), rfl⟩
  · subst hnone
    exact ⟨_, hexec.trans (decodeSingleLeaf_overflow _ _ hover), rfl⟩

end Sys2Proof.Machine
end

section
/-! Host writes that the control registers take, accept as a command or drop (44_control.md R232, R234, R235, R239). -/

namespace Sys2Proof.Machine

theorem writeLeaves_of_hostWrite {s t : State} {r : BusReq} {l : Loc} (hw : r.write = true) (ht : target s.caps r = some l)
    (h : hostWrite l r.wdata s = .next (respondFree t)) : WriteLeaves r s t :=
  ⟨Config.freeRdata t.draws, by simp [busAccess, ht, hw, h, respondFree, respond]⟩

/-! ### While a command is pending (44_control.md R234, R239) -/

theorem pokeBusy_of_not_writable {l : Loc} (h : writableWhileBusy l = false) (w : Word) (s : State) :
    pokeBusy l w s = dropWrite s := by
  cases l with
  | reg r => cases r <;> simp [writableWhileBusy] at h <;> rfl
  | hist | codeLen | codeBits | node | mem => rfl

/-- Busy, the control registers take a write as they do idle. -/
theorem pokeBusy_of_writable {l : Loc} (h : writableWhileBusy l = true) (w : Word) (s : State) :
    pokeBusy l w s = pokeIdle l w s := by
  cases l with
  | reg r => cases r <;> simp [writableWhileBusy] at h <;> rfl
  | hist | codeLen | codeBits | node | mem => cases h

/-- Settles O20: the word is not CTRL, and `pokeBusy` drops the write. -/
theorem busyWritesAreDropped : Obligations.BusyWritesAreDropped := by
  intro s r l hb hw ht hl
  have hctrl : l ≠ .reg .ctrl := by rintro rfl; cases hl
  have hleaves := writeLeaves_poke hw ht hctrl
  rwa [poke, if_pos hb, pokeBusy_of_not_writable hl] at hleaves

/-! ### Busy or idle (44_control.md R235) -/

theorem writeLeaves_pokeIdle_of_writable {s : State} {r : BusReq} {l : Loc} (hl : writableWhileBusy l = true)
    (hctrl : l ≠ .reg .ctrl) (hw : r.write = true) (ht : target s.caps r = some l) :
    WriteLeaves r s (pokeIdle l r.wdata s) := by
  have hleaves := writeLeaves_poke hw ht hctrl
  rwa [poke, pokeBusy_of_writable hl, ite_self] at hleaves

theorem hostWrite_ctrl_of_bit {w : Word} (h : w.getLsbD 0 = true) (s : State) :
    hostWrite (.reg .ctrl) w s = .next (respondFree (resetEffect s)) := by
  rcases hostWrite_cases (.reg .ctrl) w s with ⟨-, -, hreset⟩ | ⟨-, hno, -⟩ | ⟨hne, -⟩
  · exact hreset
  · cases h.symm.trans hno
  · exact absurd rfl hne

theorem hostWrite_ctrl_of_no_bit {w : Word} (h : w.getLsbD 0 = false) (s : State) :
    hostWrite (.reg .ctrl) w s = .next (respondFree s) := by
  rcases hostWrite_cases (.reg .ctrl) w s with ⟨-, hbit, -⟩ | ⟨-, -, hnone⟩ | ⟨hne, -⟩
  · cases h.symm.trans hbit
  · exact hnone
  · exact absurd rfl hne

/-- Settles O21: STATUS, IRQ_STATUS and IRQ_EN take the write as idle, and CTRL runs the soft reset or does nothing, as bit 0 says. -/
theorem controlWritesActBusyOrIdle : Obligations.ControlWritesActBusyOrIdle := by
  intro s r hw
  refine ⟨fun ht => ?_, fun ht => ?_, fun ht => ?_, fun ht hbit => ⟨resetEffect s, rfl, ?_⟩, fun ht hbit => ?_⟩
  · exact writeLeaves_pokeIdle_of_writable rfl (by simp) hw ht
  · exact writeLeaves_pokeIdle_of_writable rfl (by simp) hw ht
  · exact writeLeaves_pokeIdle_of_writable rfl (by simp) hw ht
  · exact writeLeaves_of_hostWrite hw ht (hostWrite_ctrl_of_bit hbit s)
  · exact writeLeaves_of_hostWrite hw ht (hostWrite_ctrl_of_no_bit hbit s)

/-! ### Acceptance (44_control.md R232) -/

/-- Settles O23: an idle write to CMD is `accept` of the word. -/
theorem acceptanceStartsCommand : Obligations.AcceptanceStartsCommand := by
  intro s r hb hw ht
  exact writeLeaves_pokeIdle_of_idle hb hw ht (by simp)

end Sys2Proof.Machine
end

section
/-! NOP's success completion and the interrupt line (60_exceptions.md R259, R263). -/

namespace Sys2Proof.Machine

/-! ### NOP (60_exceptions.md R259) -/

theorem decode_zero : decode .cmd 0x00000000 = .ok .nop := (decodeCmd_eq_ok_iff _ _).mpr ⟨rfl, rfl⟩

theorem exec_nop (s : State) : exec .nop s = .next (complete s) := rfl

/-- Settles O12: the opcode map has NOP at 0, and `exec` of NOP is `complete`, the record of R259. -/
theorem nopOnlyCompletes : Obligations.NopOnlyCompletes := ⟨decode_zero, fun _ => rfl, exec_nop⟩

/-! ### The interrupt registers bit by bit (10_state.md R29, R30) -/

/-- IRQ_EN and IRQ_STATUS hold one flag for DONE in bit 0 and one for ERR in bit 1; the rest is reserved. -/
theorem getLsbD_twoFlags (err done : Bool) (k : Nat) :
    (0#30 ++ BitVec.ofBool err ++ BitVec.ofBool done).getLsbD k = if k = 0 then done else if k = 1 then err else false := by
  rw [BitVec.getLsbD_append, BitVec.getLsbD_append]
  match k with
  | 0 | 1 | k + 2 => simp

theorem irqEnWord_bit (e : IrqEn) (k : Nat) :
    (irqEnWord e).getLsbD k = if k = 0 then e.doneIe else if k = 1 then e.errIe else false :=
  getLsbD_twoFlags e.errIe e.doneIe k

theorem irqStatusWord_bit (e : IrqStatus) (k : Nat) :
    (irqStatusWord e).getLsbD k = if k = 0 then e.doneEvt else if k = 1 then e.errEvt else false :=
  getLsbD_twoFlags e.errEvt e.doneEvt k

/-! ### The interrupt line (60_exceptions.md R263) -/

/-- Settles O30: bit 0 of the two registers is the DONE pair and bit 1 the ERR pair of the formula. -/
theorem interruptLine : Obligations.InterruptLine := by
  intro s
  simp only [regValue, irqStatusWord_bit, irqEnWord_bit, one_ne_zero, if_true, if_false, irq]

end Sys2Proof.Machine
end

section
/-! What the host reads of the registers after a reset (70_reset_and_hazards.md R291). -/

namespace Sys2Proof.Machine

/-! ### Where the registers are mapped (20_memory.md R73) -/

/-- `regsInOrder` lists every register at the word of its tabulated offset. -/
theorem decodeAddr_registerOffset (c : Caps) (r : Reg) :
    decodeAddr c (BitVec.ofNat 24 (registerOffset r)) = some (.reg r) := by
  cases r <;> rfl

/-! ### The registers after a reset (70_reset_and_hazards.md R291) -/

/-- The words put together from fields are 0 because every field is; the others stand in the reset record as tabulated. -/
theorem regValue_resetWith (c : Caps) (r : Reg) : regValue (State.resetWith c) r = registerAfterReset c r := by
  cases r with
  | status => exact show statusWord Status.reset = 0 by decide
  | errCode => exact show errCodeWord ⟨0, 0, 0⟩ = 0 by decide
  | irqEn => exact show irqEnWord ⟨false, false⟩ = 0 by decide
  | irqStatus => exact show irqStatusWord ⟨false, false⟩ = 0 by decide
  | _ => rfl

theorem irq_resetWith (c : Caps) : irq (State.resetWith c) = false := rfl

/-- Settles O9: no command is pending after a reset, so a read answers the register its offset maps. -/
theorem registersAfterReset : Obligations.RegistersAfterReset := by
  intro c
  refine ⟨irq_resetWith c, fun r q hw hs ha => ?_⟩
  have ht : target c q = some (.reg r) := (target_of_addr hs ha).trans (decodeAddr_registerOffset c r)
  have hpeek : peek (State.resetWith c) (.reg r) = registerAfterReset c r := regValue_resetWith c r
  exact hpeek ▸ readAnswers_peek_of_idle rfl hw ht

end Sys2Proof.Machine
end

section
/-! Decoding and encoding are inverse to each other (30_encoding.md R100 to R103). -/

namespace Sys2Proof.Machine

/-! ### From an instruction to its word and back -/

theorem getLsbD_zero_iff (w : Word) : w.getLsbD 0 = true ↔ w.toNat % 2 = 1 := by
  rw [BitVec.getLsbD, Nat.testBit_zero, decide_eq_true_eq]

/-- An odd CTRL word is SRST with its upper 31 bits as the ignored operand. -/
theorem decodeCtrl_odd {k : Nat} (hk : k < 2 ^ 31) : decode .ctrl (BitVec.ofNat 32 (2 * k + 1)) = .ok (.srst k) := by
  have hval : (BitVec.ofNat 32 (2 * k + 1)).toNat = 2 * k + 1 := Nat.mod_eq_of_lt (by omega)
  have hhalf : (2 * k + 1) / 2 = k := by omega
  rcases decodeCtrl_cases (BitVec.ofNat 32 (2 * k + 1)) with ⟨-, hok⟩ | ⟨hbit, -⟩
  · rw [hok, hval, hhalf]
  · have hodd := (getLsbD_zero_iff (BitVec.ofNat 32 (2 * k + 1))).2 (by omega)
    cases hbit.symm.trans hodd

/-- Settles O1: a command's word is its opcode, and SRST's operand fills the bits above bit 0. -/
theorem decodeOfEncode : Obligations.DecodeOfEncode := by
  intro i hi
  cases i with
  | srst k => exact decodeCtrl_odd (of_decide_eq_true hi)
  | _ => exact (decodeCmd_eq_ok_iff _ _).2 ⟨rfl, rfl⟩

/-! ### From an accepted word to its instruction and back -/

theorem eq_setWidth_opcodeOf {w : Word} (h : rsvdOf w = 0) : w = (opcodeOf w).setWidth 32 := by
  have hw := (rsvdOf_eq_zero_iff w).1 h
  have hop := opcodeOf_toNat w
  apply BitVec.eq_of_toNat_eq
  rw [BitVec.toNat_setWidth, hop]
  omega

/-- The opcode map and the encoder agree on the opcode of each command. -/
theorem encode_of_ofOpcode {op : Byte} {i : Instr} (h : ofOpcode op = some i) :
    i.wf = true ∧ encode i = (.cmd, op.setWidth 32) := by
  have hop : op = BitVec.ofNat 8 op.toNat := by simp
  rw [ofOpcode] at h
  rw [hop]
  split at h
  case h_10 => cases h
  all_goals
    rename_i heq
    cases h
    rw [heq]
    exact ⟨rfl, rfl⟩

theorem encode_srst_half {w : Word} (h : w.getLsbD 0 = true) : encode (.srst (w.toNat / 2)) = (.ctrl, w) := by
  have hodd := (getLsbD_zero_iff w).1 h
  have hval : 2 * (w.toNat / 2) + 1 = w.toNat := by omega
  simp [encode, hval]

/-- Settles O2: an accepted CMD word is its opcode with zeros above, and an accepted CTRL word is odd. -/
theorem encodeOfDecode : Obligations.EncodeOfDecode := by
  intro p w i h
  cases p with
  | cmd =>
    obtain ⟨hrsvd, hop⟩ := (decodeCmd_eq_ok_iff w i).1 h
    obtain ⟨hwf, henc⟩ := encode_of_ofOpcode hop
    exact ⟨hwf, by rw [henc, ← eq_setWidth_opcodeOf hrsvd]⟩
  | ctrl =>
    rcases decodeCtrl_cases w with ⟨hbit, hok⟩ | ⟨-, herr⟩
    · obtain rfl : .srst (w.toNat / 2) = i := Except.ok.inj (hok.symm.trans h)
      have hlt : w.toNat / 2 < 2 ^ 31 := by have := w.isLt; omega
      exact ⟨decide_eq_true hlt, encode_srst_half hbit⟩
    · cases herr.symm.trans h

/-- Settles O3: the words written out bit by bit are encodings. -/
theorem wordsOfTheOpcodeMap : Obligations.WordsOfTheOpcodeMap :=
  ⟨decodeOfEncode .nop rfl, decodeOfEncode .treeBuild rfl, decodeOfEncode .payEnc rfl, decodeOfEncode .payDec rfl,
    decodeOfEncode (.srst 0) rfl, decodeOfEncode (.srst 0x40000002) rfl⟩

end Sys2Proof.Machine
end

section
/-! The segments TREE_SER and PAY_ENC emit, and their errors (41_tree_codec.md R160, 42_payload_encoder.md R195, R196). -/

namespace Sys2Proof.Machine

/-! ### A segment that fits, and one that does not (30_encoding.md R106) -/

/-- OUT holds the segment of `body` with pad count `p` at the bit index OUT_BITPTR of `s`, every other bit of OUT is as in `s`, and
nothing else has changed but OUT_BITPTR, SEG_PAD, SEG_BITS and by completing. -/
def Emitted (body : Bits) (p : Nat) (s t : State) : Prop :=
  t = complete { s with
    outMem := t.outMem
    outBitptr := BitVec.ofNat 32 (s.outBitptr.toNat + (8 + body.length + p))
    segPad := BitVec.ofNat 8 p
    segBits := BitVec.ofNat 32 (8 + body.length + p) } ∧
  t.outMem.bits .out s.outBitptr.toNat (8 + body.length + p) = bitsN 8 p ++ body ++ zeros p ∧
  ∀ k, (k < s.outBitptr.toNat ∨ s.outBitptr.toNat + (8 + body.length + p) ≤ k) → t.bitAt .out k = s.bitAt .out k

theorem emitSegment_of_room {body : Bits} {p : Nat} {s : State} (hwf : s.outMem.wf s.caps.outCap = true) (hp : p < 8)
    (hwhole : (body.length + p) % 8 = 0) (hroom : s.outBitptr.toNat + (8 + body.length + p) ≤ 8 * s.caps.outCap) :
    ∃ t, emitSegment body s = .next t ∧ Emitted body p s t := by
  obtain rfl := padOf_unique hp hwhole
  have hlen : (frameSegment body).length = 8 + body.length + padOf body.length := frameSegment_length body
  rcases emitSegment_cases body s with ⟨hfull, -⟩ | ⟨-, hemit⟩
  · omega
  · refine ⟨_, hemit, rfl, ?_, fun k hk => ?_⟩
    · have hwrote := bits_setBits .out (frameSegment body) s.outBitptr.toNat (wf_rising hwf)
      rw [hlen] at hwrote
      exact hwrote
    · rw [State.bitAt, mem_out, complete_outMem]
      exact bit_setBits_out (m := s.outMem) .out (frameSegment body) s.outBitptr.toNat k (wf_rising hwf) (hlen ▸ hk)

theorem emitSegment_of_no_room {body : Bits} {p : Nat} {s : State} (hp : p < 8) (hwhole : (body.length + p) % 8 = 0)
    (hfull : 8 * s.caps.outCap < s.outBitptr.toNat + (8 + body.length + p)) :
    emitSegment body s = .next (raise .outOverflow 0x00 (8 + body.length + p) s) := by
  obtain rfl := padOf_unique hp hwhole
  rcases emitSegment_cases body s with ⟨-, hemit⟩ | ⟨hroom, -⟩
  · exact hemit
  · omega

/-! ### TREE_SER -/

theorem exec_treeSer_of_no_tree {s : State} (hv : s.status.treeValid = false) :
    exec .treeSer s = .next (raise .noTree 0x00 0 s) := by
  simp [exec, execTreeSer, hv, fail]

/-- Settles O46: TREE_SER emits the segment of the tree's body, which fits. -/
theorem treeSerWritesSegment : Obligations.TreeSerWritesSegment := by
  intro s tr p _ hwf hv ht hp hwhole hroom
  rw [exec_treeSer hv ht]
  exact emitSegment_of_room hwf hp hwhole hroom

/-- Settles O47: without a tree TREE_SER emits nothing, and a segment that does not fit is refused before OUT is written. -/
theorem treeSerErrors : Obligations.TreeSerErrors := by
  refine fun s => ⟨exec_treeSer_of_no_tree, fun hv tr p ht hp hwhole hfull => ?_⟩
  rw [exec_treeSer hv ht]
  exact emitSegment_of_no_room hp hwhole hfull

/-! ### PAY_ENC -/

theorem exec_payEnc_of_range {s : State} (h : s.caps.inCap < s.inLen.toNat) :
    exec .payEnc s = .next (raise .lenRange 0x01 s.inLen.toNat s) := by
  simp [exec, execPayEnc, inLenOutOfRange, h, fail]

theorem exec_payEnc_of_no_code {s : State} (h : s.inLen.toNat ≤ s.caps.inCap) (hv : s.status.codeValid = false) :
    exec .payEnc s = .next (raise .noCode 0x00 0 s) := by
  simp [exec, execPayEnc, inLenOutOfRange, h.not_gt, hv, fail]

/-- With a code table PAY_ENC emits the codes of the input, or reports the first symbol without one. -/
theorem exec_payEnc_of_code {s : State} (h : s.inLen.toNat ≤ s.caps.inCap) (hv : s.status.codeValid = true) :
    exec .payEnc s = match payloadBits s.lut (inputBytes s) 0 with
      | .error e => .next (raise .unknownSymbol e.1 e.2 s)
      | .ok body => emitSegment body s := by
  simp only [exec, execPayEnc, inLenOutOfRange, h.not_gt, hv, fail, decide_false, Bool.not_true, Bool.false_eq_true, if_false]
  cases payloadBits s.lut (inputBytes s) 0 <;> rfl

theorem exec_payEnc_of_present {s : State} (h : s.inLen.toNat ≤ s.caps.inCap) (hv : s.status.codeValid = true)
    (hp : ∀ b ∈ inputBytes s, (s.lut.entry b).present = true) :
    exec .payEnc s = emitSegment ((inputBytes s).flatMap fun b => lutBits (s.lut.entry b)) s := by
  rw [exec_payEnc_of_code h hv, payloadBits_present 0 hp]

@[simp] theorem lutBits_length (e : LutEntry) : (lutBits e).length = e.len.toNat := by simp [lutBits]

/-- Settles O42: the body is the concatenation of the codes, and PAY_ENC emits its segment. -/
theorem payEncPacksCodes : Obligations.PayEncPacksCodes := by
  rintro s _ p _ hwf hlen hv hpresent rfl hp hwhole hroom
  rw [exec_payEnc_of_present hlen hv hpresent]
  exact emitSegment_of_room hwf hp hwhole hroom

theorem exec_payEnc_of_absent {s : State} (h : s.inLen.toNat ≤ s.caps.inCap) (hv : s.status.codeValid = true) {i : Nat}
    (hi : i < (inputBytes s).length) (habsent : (s.lut.entry (inputBytes s)[i]).present = false)
    (hbefore : ∀ j (hj : j < i), (s.lut.entry (inputBytes s)[j]).present = true) :
    exec .payEnc s = .next (raise .unknownSymbol (inputBytes s)[i] i s) := by
  have hsplit : (inputBytes s).take i ++ (inputBytes s)[i] :: (inputBytes s).drop (i + 1) = inputBytes s := by simp
  have htake : ∀ c ∈ (inputBytes s).take i, (s.lut.entry c).present = true := fun c hc => by
    obtain ⟨j, hj, rfl⟩ := List.mem_iff_getElem.1 hc
    rw [List.getElem_take]
    exact hbefore j (by rw [List.length_take] at hj; omega)
  have hbits := payloadBits_absent (after := (inputBytes s).drop (i + 1)) 0 htake habsent
  rw [hsplit, List.length_take, Nat.min_eq_left hi.le, Nat.zero_add] at hbits
  rw [exec_payEnc_of_code h hv, hbits]

/-- Settles O43: PAY_ENC makes its checks in this order, before anything is written. -/
theorem payEncErrors : Obligations.PayEncErrors := by
  intro s
  refine ⟨exec_payEnc_of_range, exec_payEnc_of_no_code, fun h hv i hi => exec_payEnc_of_absent h hv hi,
    fun h hv hpresent m p hm hp hwhole hfull => ?_⟩
  have hlen : ((inputBytes s).flatMap fun b => lutBits (s.lut.entry b)).length = m := by
    simp [hm, List.length_flatMap]
  rw [exec_payEnc_of_present h hv hpresent]
  exact hlen ▸ emitSegment_of_no_room hp (hlen.symm ▸ hwhole) (hlen.symm ▸ hfull)

theorem lutBits_of_len_zero {e : LutEntry} (h : e.len = 0) : lutBits e = [] := by simp [lutBits, h]

/-- Settles O44: the body is empty, and the segment is its pad field, the eight bits of 0. -/
theorem singleLeafPayloadIsZeroByte : Obligations.SingleLeafPayloadIsZeroByte := by
  intro s hcaps hwf hlen hv hempty hroom
  have hbody : ((inputBytes s).flatMap fun b => lutBits (s.lut.entry b)) = [] :=
    List.flatMap_eq_nil_iff.2 fun b hb => lutBits_of_len_zero (hempty b hb).2
  obtain ⟨t, ht, heq, hbits, -⟩ := emitSegment_of_room (body := []) (p := 0) hwf (by decide) rfl hroom
  rw [exec_payEnc_of_present hlen hv fun b hb => (hempty b hb).1, hbody]
  refine ⟨t, ht, by rw [heq]; rfl, by rw [heq]; rfl, by rw [heq]; rfl, ?_, hbits.trans (by decide)⟩
  rw [heq]
  exact Nat.mod_eq_of_lt (by obtain ⟨-, ⟨-, -, hout⟩, -⟩ := hcaps; simp at hroom ⊢; omega)

end Sys2Proof.Machine
end

section
/-! TREE_DES on every stream: the tree it rebuilds and the errors it reports (41_tree_codec.md R170 to R173, 60_exceptions.md R253, R262). -/

namespace Sys2Proof.Machine

/-! ### Where the tags of a body stand (41_tree_codec.md R161) -/

@[simp] theorem Tree.tagOffsets_length (t : Tree) (o : Nat) : (t.tagOffsets o).length = t.size := by
  induction t generalizing o with
  | leaf => rfl
  | node _ l r ihl ihr => simp only [tagOffsets, size, List.length_cons, List.length_append, ihl, ihr]; omega

theorem Tree.tagOffsets_add (t : Tree) (a o : Nat) : t.tagOffsets (a + o) = (t.tagOffsets o).map (a + ·) := by
  induction t generalizing o with
  | leaf => rfl
  | node _ l r ihl ihr => simp only [tagOffsets, List.map_cons, List.map_append, Nat.add_assoc, ihl, ihr]

theorem Tree.mem_tagOffsets_bounds {t : Tree} {pos o : Nat} (h : o ∈ t.tagOffsets pos) :
    pos ≤ o ∧ o < pos + t.serBits.length := by
  induction t generalizing pos with
  | leaf =>
    obtain rfl := List.mem_singleton.1 h
    simp [serBits]
  | node _ l r ihl ihr =>
    rw [serBits, List.length_cons, List.length_append]
    rcases List.mem_cons.1 h with rfl | h
    · omega
    · rcases List.mem_append.1 h with h | h
      · have := ihl h; omega
      · have := ihr h; omega

theorem Tree.tagOffsets_zero (t : Tree) (pos : Nat) : (t.tagOffsets pos)[0]? = some pos := by cases t <;> rfl

/-- The tags of the left subtree follow the node's own. -/
theorem Tree.tagOffsets_left {i : Nat} {l r : Tree} {pos j : Nat} (h : j < l.size) :
    ((Tree.node i l r).tagOffsets pos)[j + 1]? = (l.tagOffsets (pos + 1))[j]? := by
  rw [tagOffsets, List.getElem?_cons_succ, List.getElem?_append_left (by rwa [tagOffsets_length])]

theorem Tree.tagOffsets_right {i : Nat} {l r : Tree} {pos j : Nat} :
    ((Tree.node i l r).tagOffsets pos)[l.size + j + 1]? = (r.tagOffsets (pos + 1 + l.serBits.length))[j]? := by
  rw [tagOffsets, List.getElem?_cons_succ, List.getElem?_append_right (by simp), tagOffsets_length, Nat.add_sub_cancel_left]

/-- A body that ends at bit `n`, with a tag missing at `e = n`, or with the symbol cut whose first bit is `e`. -/
def Tree.CutAt : Tree → Nat → Nat → Nat → Prop
  | .leaf _ _, pos, n, e => (n = pos ∧ e = pos) ∨ (pos < n ∧ n < pos + 9 ∧ e = pos + 1)
  | .node _ l r, pos, n, e => (n = pos ∧ e = pos) ∨ l.CutAt (pos + 1) n e ∨ r.CutAt (pos + 1 + l.serBits.length) n e

theorem Tree.CutAt.le {t : Tree} {pos n e : Nat} (h : t.CutAt pos n e) : pos ≤ n := by
  induction t generalizing pos with
  | leaf => rcases h with ⟨rfl, -⟩ | ⟨h, -⟩ <;> omega
  | node _ l r ihl ihr =>
    rcases h with ⟨rfl, -⟩ | h | h
    · exact le_rfl
    · have := ihl h; omega
    · have := ihr h; omega

theorem Tree.cutAt_of_tag {t : Tree} {pos n : Nat} (h : n ∈ t.tagOffsets pos) : t.CutAt pos n n := by
  induction t generalizing pos with
  | leaf => exact .inl ⟨List.mem_singleton.1 h, List.mem_singleton.1 h⟩
  | node _ l r ihl ihr =>
    rcases List.mem_cons.1 h with rfl | h
    · exact .inl ⟨rfl, rfl⟩
    · exact .inr ((List.mem_append.1 h).imp ihl ihr)

theorem Tree.cutAt_of_symbol {t : Tree} {pos o n : Nat} (h : o ∈ t.tagOffsets pos) (hleaf : t.serBits[o - pos]? = some true)
    (hlo : o < n) (hhi : n < o + 9) : t.CutAt pos n (o + 1) := by
  induction t generalizing pos with
  | leaf =>
    obtain rfl := List.mem_singleton.1 h
    exact .inr ⟨hlo, hhi, rfl⟩
  | node _ l r ihl ihr =>
    rcases List.mem_cons.1 h with rfl | h
    · simp [serBits] at hleaf
    · refine .inr ((List.mem_append.1 h).imp (fun h => ihl h ?_) fun h => ihr h ?_)
      · have := mem_tagOffsets_bounds h
        rwa [serBits, show o - pos = (o - (pos + 1)) + 1 by omega, List.getElem?_cons_succ,
          List.getElem?_append_left (by omega)] at hleaf
      · have := mem_tagOffsets_bounds h
        rwa [serBits, show o - pos = (o - (pos + 1)) + 1 by omega, List.getElem?_cons_succ,
          List.getElem?_append_right (by omega), Nat.sub_sub] at hleaf

/-! ### Streams that begin as a body does -/

/-- Below bit `e` the stream is what `body` is, beginning at bit `pos`. -/
def Agrees (m : ByteMem) (pos e : Nat) (body : Bits) : Prop :=
  ∀ j, pos + j < e → ∀ b, body[j]? = some b → m.bit .bs (pos + j) = b

theorem agrees_of_bits_take {m : ByteMem} {pos n : Nat} {body : Bits} (h : m.bits .bs pos n = body.take n) :
    Agrees m pos (pos + n) body := by
  intro j hj b hb
  have hbit : (m.bits .bs pos n)[j]? = body[j]? := by rw [h, List.getElem?_take_of_lt (by omega)]
  rw [hb, List.getElem?_eq_some_iff] at hbit
  obtain ⟨hlt, hbit⟩ := hbit
  rwa [bits_getElem] at hbit

theorem Agrees.head {m : ByteMem} {pos e : Nat} {b : Bool} {bs : Bits} (h : Agrees m pos e (b :: bs)) (hpos : pos < e) :
    m.bit .bs pos = b := h 0 hpos b rfl

theorem Agrees.tail {m : ByteMem} {pos e : Nat} {b : Bool} {bs : Bits} (h : Agrees m pos e (b :: bs)) :
    Agrees m (pos + 1) e bs := by
  intro j hj c hc
  rw [Nat.add_assoc, Nat.add_comm 1] at hj ⊢
  exact h (j + 1) hj c hc

theorem Agrees.left {m : ByteMem} {pos e : Nat} {xs ys : Bits} (h : Agrees m pos e (xs ++ ys)) : Agrees m pos e xs :=
  fun j hj b hb => h j hj b (by rwa [List.getElem?_append_left (List.getElem?_eq_some_iff.1 hb).1])

theorem Agrees.right {m : ByteMem} {pos e : Nat} {xs ys : Bits} (h : Agrees m pos e (xs ++ ys)) :
    Agrees m (pos + xs.length) e ys := by
  intro j hj b hb
  rw [Nat.add_assoc] at hj ⊢
  exact h (xs.length + j) hj b (by rwa [List.getElem?_append_right (by omega), Nat.add_sub_cancel_left])

theorem Agrees.bits {m : ByteMem} {pos e : Nat} {body : Bits} (h : Agrees m pos e body) (hend : pos + body.length ≤ e) :
    m.bits .bs pos body.length = body := by
  refine List.ext_getElem (by simp) fun j hj hj' => ?_
  rw [bits_getElem]
  exact h j (by omega) _ (List.getElem?_eq_getElem hj')

/-! ### Parse on every stream (41_tree_codec.md R171) -/

section Parse

variable {m : ByteMem} {endp fuel pos count leaves : Nat} {ar : Arena}

theorem parse_end (h : endp ≤ pos) : parse m endp (fuel + 1) ⟨pos, count, leaves, ar⟩ = .error (.truncTree, pos) := if_pos h

theorem parse_full (h : pos < endp) : parse m endp (fuel + 1) ⟨pos, 511, leaves, ar⟩ = .error (.arenaOverflow, pos) := by
  simp [parse, h.not_ge]

theorem parse_leaf_cut (hpos : pos < endp) (hcount : count < 511) (htag : m.bit .bs pos = true) (hcut : endp < pos + 9) :
    parse m endp (fuel + 1) ⟨pos, count, leaves, ar⟩ = .error (.truncTree, pos + 1) := by
  have hcut' : endp < pos + 1 + 8 := hcut
  simp [parse, hpos.not_ge, hcount.ne, htag, hcut']

theorem parse_node_error_left {e : BadStream × Nat} (hpos : pos < endp) (hcount : count < 511) (htag : m.bit .bs pos = false)
    (hl : parse m endp fuel ⟨pos + 1, count + 1, leaves, ar⟩ = .error e) :
    parse m endp (fuel + 1) ⟨pos, count, leaves, ar⟩ = .error e := by
  simp [parse, hpos.not_ge, hcount.ne, htag, hl]

theorem parse_node_error_right {e : BadStream × Nat} {l : Nat} {st : ParseState} (hpos : pos < endp) (hcount : count < 511)
    (htag : m.bit .bs pos = false) (hl : parse m endp fuel ⟨pos + 1, count + 1, leaves, ar⟩ = .ok (l, st))
    (hr : parse m endp fuel st = .error e) :
    parse m endp (fuel + 1) ⟨pos, count, leaves, ar⟩ = .error e := by
  simp [parse, hpos.not_ge, hcount.ne, htag, hl, hr]

/-- Where Parse succeeds, it has consumed the body of a tree. -/
theorem parse_eq_ok {i : Nat} {st st' : ParseState} (hcount : st.count ≤ 511) (h : parse m endp fuel st = .ok (i, st')) :
    ∃ t : Tree, st.count + t.size ≤ 511 ∧ st.pos + t.serBits.length ≤ endp ∧
      m.bits .bs st.pos t.serBits.length = t.serBits ∧ st'.pos = st.pos + t.serBits.length ∧ st'.count = st.count + t.size := by
  induction fuel generalizing st i st' with
  | zero => cases h
  | succ fuel ih =>
    simp only [parse] at h
    split_ifs at h with hend hfull htag hcut
    · obtain ⟨-, rfl⟩ := Prod.mk.inj (Except.ok.inj h)
      set sym := BitVec.ofNat 8 (uint (m.bits .bs (st.pos + 1) 8))
      have hsym : m.bits .bs (st.pos + 1) (bitsN 8 sym.toNat).length = bitsN 8 sym.toNat := by
        have hlt := uint_lt (m.bits .bs (st.pos + 1) 8)
        have hback := bitsN_uint (m.bits .bs (st.pos + 1) 8)
        rw [bits_length] at hlt hback
        rw [bitsN_length, BitVec.toNat_ofNat, Nat.mod_eq_of_lt hlt, hback]
      refine ⟨.leaf 0 sym, by rw [Tree.size]; omega, ?_, (bits_eq_cons_iff ..).2 ⟨htag, hsym⟩, ?_, rfl⟩
      · simp only [Tree.serBits, List.length_cons, bitsN_length]; omega
      · simp [Tree.serBits]
    · split at h
      · cases h
      next l st₂ hl =>
        split at h
        · cases h
        next r st₃ hr =>
          obtain ⟨-, rfl⟩ := Prod.mk.inj (Except.ok.inj h)
          obtain ⟨tl, hcountl, hendl, hbitsl, hposl, hcl⟩ := ih (Nat.succ_le_of_lt (lt_of_le_of_ne hcount hfull)) hl
          obtain ⟨tr, hcountr, hendr, hbitsr, hposr, hcr⟩ := ih (by omega) hr
          dsimp only at *
          rw [hposl] at hendr hbitsr hposr
          rw [hcl] at hcountr hcr
          refine ⟨.node 0 tl tr, by rw [Tree.size]; omega, ?_, ?_, ?_, by rw [Tree.size]; omega⟩
          · simp only [Tree.serBits, List.length_cons, List.length_append]; omega
          · exact (bits_eq_cons_iff ..).2 ⟨by simpa using htag, (bits_eq_append_iff ..).2 ⟨hbitsl, hbitsr⟩⟩
          · simp only [Tree.serBits, List.length_cons, List.length_append]; omega

/-- Where the stream begins as a body does up to the tag for which the arena has no entry, Parse stops at that tag. -/
theorem parse_arena_full (t : Tree) {o : Nat} (hcount : count ≤ 511) (hf : 512 ≤ fuel + count)
    (htag : (t.tagOffsets pos)[511 - count]? = some o) (hend : o < endp) (hagree : Agrees m pos o t.serBits) :
    parse m endp fuel ⟨pos, count, leaves, ar⟩ = .error (.arenaOverflow, o) := by
  induction t generalizing fuel pos count leaves ar with
  | leaf _ sym =>
    obtain ⟨fuel, rfl⟩ := Nat.exists_eq_add_one.2 (show 0 < fuel by omega)
    have hindex : 511 - count = 0 := by
      have := (List.getElem?_eq_some_iff.1 htag).1
      rwa [Tree.tagOffsets_length, Tree.size, Nat.lt_one_iff] at this
    obtain rfl : count = 511 := by omega
    obtain rfl : pos = o := Option.some.inj ((Tree.tagOffsets_zero (.leaf 0 sym) pos).symm.trans htag)
    exact parse_full hend
  | node i l r ihl ihr =>
    obtain ⟨fuel, rfl⟩ := Nat.exists_eq_add_one.2 (show 0 < fuel by omega)
    rcases hcount.eq_or_lt with rfl | hlt
    · obtain rfl : pos = o := Option.some.inj ((Tree.tagOffsets_zero (.node i l r) pos).symm.trans htag)
      exact parse_full hend
    by_cases hleft : 511 - (count + 1) < l.size
    · rw [show 511 - count = 511 - (count + 1) + 1 by omega, Tree.tagOffsets_left hleft] at htag
      have hpos := (Tree.mem_tagOffsets_bounds (List.mem_of_getElem? htag)).1
      refine parse_node_error_left (by omega) hlt (hagree.head hpos) ?_
      exact ihl (by omega) (by omega) htag hagree.tail.left
    · rw [show 511 - count = l.size + (511 - (count + 1 + l.size)) + 1 by omega, Tree.tagOffsets_right] at htag
      have hpos := (Tree.mem_tagOffsets_bounds (List.mem_of_getElem? htag)).1
      obtain ⟨arl, hl, -⟩ := parse_serBits (m := m) (endp := endp) (fuel := fuel) (pos := pos + 1) (count := count + 1)
        (leaves := leaves) (ar := ar) l (by omega) (by omega) (by omega) (hagree.tail.left.bits hpos)
      refine parse_node_error_right (by omega) hlt (hagree.head (by omega)) hl ?_
      exact ihr (by omega) (by omega) htag hagree.tail.right

theorem count_lt_of_room {t : Tree} (hcount : count ≤ 511)
    (hroom : ∀ o, (t.tagOffsets pos)[511 - count]? = some o → endp ≤ o) (hpos : pos < endp) : count < 511 := by
  refine hcount.lt_of_ne fun hfull => ?_
  subst hfull
  exact absurd (hroom pos (t.tagOffsets_zero pos)) hpos.not_ge

/-- Where the stream ends inside a body before the arena is full, Parse stops at the missing tag or at the cut symbol. -/
theorem parse_cut (t : Tree) {e : Nat} (hcount : count ≤ 511) (hf : 512 ≤ fuel + count)
    (hroom : ∀ o, (t.tagOffsets pos)[511 - count]? = some o → endp ≤ o) (hcut : t.CutAt pos endp e)
    (hagree : Agrees m pos endp t.serBits) :
    parse m endp fuel ⟨pos, count, leaves, ar⟩ = .error (.truncTree, e) := by
  induction t generalizing fuel pos count leaves ar with
  | leaf _ sym =>
    obtain ⟨fuel, rfl⟩ := Nat.exists_eq_add_one.2 (show 0 < fuel by omega)
    rcases hcut with ⟨rfl, rfl⟩ | ⟨hlo, hhi, rfl⟩
    · exact parse_end le_rfl
    · exact parse_leaf_cut hlo (count_lt_of_room hcount hroom hlo) (hagree.head hlo) hhi
  | node i l r ihl ihr =>
    obtain ⟨fuel, rfl⟩ := Nat.exists_eq_add_one.2 (show 0 < fuel by omega)
    rcases hcut with ⟨rfl, rfl⟩ | hcut | hcut
    · exact parse_end le_rfl
    · have hpos : pos < endp := hcut.le
      have hlt := count_lt_of_room hcount hroom hpos
      refine parse_node_error_left hpos hlt (hagree.head hpos) ?_
      refine ihl (by omega) (by omega) (fun o ho => hroom o ?_) hcut hagree.tail.left
      have hleft := (List.getElem?_eq_some_iff.1 ho).1
      rw [Tree.tagOffsets_length] at hleft
      rwa [show 511 - count = 511 - (count + 1) + 1 by omega, Tree.tagOffsets_left hleft]
    · have hend := hcut.le
      have hlt := count_lt_of_room hcount hroom (by omega)
      have hsize : count + 1 + l.size ≤ 511 := by
        by_contra hlarge
        obtain ⟨o, ho⟩ : ∃ o, (l.tagOffsets (pos + 1))[511 - (count + 1)]? = some o :=
          ⟨_, List.getElem?_eq_getElem (by rw [Tree.tagOffsets_length]; omega)⟩
        have hbounds := Tree.mem_tagOffsets_bounds (List.mem_of_getElem? ho)
        have hafter := hroom o (by rwa [show 511 - count = 511 - (count + 1) + 1 by omega, Tree.tagOffsets_left (by omega)])
        omega
      obtain ⟨arl, hl, -⟩ := parse_serBits (m := m) (endp := endp) (fuel := fuel) (pos := pos + 1) (count := count + 1)
        (leaves := leaves) (ar := ar) l (by omega) hsize hend (hagree.tail.left.bits hend)
      refine parse_node_error_right (by omega) hlt (hagree.head (by omega)) hl ?_
      refine ihr hsize (by omega) (fun o ho => hroom o ?_) hcut hagree.tail.right
      rwa [show 511 - count = l.size + (511 - (count + 1 + l.size)) + 1 by omega, Tree.tagOffsets_right]

end Parse

/-! ### TREE_DES: the errors of the header and of the body -/

/-- A failed TREE_DES drops the tree, and nothing is said of the arena (60_exceptions.md R262). -/
theorem eq_raise_of_dropped {k : ErrKind} {sub : Byte} {info : Nat} {s t : State} (ht : exec .treeDes s = .next t)
    (h : exec .treeDes s = .next (raise k sub info (destroyTree s))) :
    t = raise k sub info { s with
      arena := t.arena, draws := s.draws + 1
      status := { s.status with treeValid := false, codeValid := false, singleLeaf := false } } := by
  obtain rfl := Host.Outcome.next.inj (ht.symm.trans h)
  rfl

theorem exec_treeDes_of_range {s : State} (h : 8 * s.caps.bsCap < s.bsLen.toNat) :
    exec .treeDes s = .next (raise .lenRange 0x02 s.bsLen.toNat (destroyTree s)) := by
  simp [exec, execTreeDes, bsLenOutOfRange, h, fail]

section Body

variable {s : State} (hcap : s.bsLen.toNat ≤ 8 * s.caps.bsCap)
include hcap

theorem exec_treeDes_of_header_error {b : BadStream} {k : Nat} (hread : readPadField s = .error (b, k)) :
    exec .treeDes s = .next (raise .malformedStream (badStreamNumber b) k (destroyTree s)) := by
  simp [exec, execTreeDes, bsLenOutOfRange, hcap.not_gt, hread, failStream, fail]

variable {p : Nat} (hread : readPadField s = .ok p)
include hread

theorem exec_treeDes_of_parse_error {b : BadStream} {k : Nat}
    (hparse : parse s.bsMem s.bsLen.toNat 512 ⟨s.bsBitptr.toNat + 8, 0, 0, s.arena⟩ = .error (b, k)) :
    exec .treeDes s = .next (raise .malformedStream (badStreamNumber b) k (destroyTree s)) := by
  simp [exec, execTreeDes, bsLenOutOfRange, hcap.not_gt, hread, hparse, failStream, fail]

variable {tr : Tree} (hsize : tr.size ≤ 511) (hend : s.bsBitptr.toNat + 8 + tr.serBits.length ≤ s.bsLen.toNat)
  (hbody : s.bsMem.bits .bs (s.bsBitptr.toNat + 8) tr.serBits.length = tr.serBits)
include hsize hend hbody

/-- A whole body is followed by padding that fills it up to whole bytes. -/
theorem exec_treeDes_of_mismatch (hmis : (tr.serBits.length + p) % 8 ≠ 0) : exec .treeDes s =
    .next (raise .malformedStream 0x05 (s.bsBitptr.toNat + 8 + tr.serBits.length) (destroyTree s)) := by
  obtain ⟨ar, hparse, -⟩ := parse_serBits (endp := s.bsLen.toNat) (fuel := 512) (count := 0) (leaves := 0) (ar := s.arena) tr
    (by omega) (by omega) hend hbody
  simp [exec, execTreeDes, bsLenOutOfRange, hcap.not_gt, hread, hparse, hmis, failStream, fail, badStreamNumber]

/-- That padding stands before BS_LEN. -/
theorem exec_treeDes_of_short_padding (hwhole : (tr.serBits.length + p) % 8 = 0)
    (hcut : s.bsLen.toNat < s.bsBitptr.toNat + 8 + tr.serBits.length + p) : exec .treeDes s =
    .next (raise .malformedStream 0x06 (s.bsBitptr.toNat + 8 + tr.serBits.length) (destroyTree s)) := by
  obtain ⟨ar, hparse, -⟩ := parse_serBits (endp := s.bsLen.toNat) (fuel := 512) (count := 0) (leaves := 0) (ar := s.arena) tr
    (by omega) (by omega) hend hbody
  simp [exec, execTreeDes, bsLenOutOfRange, hcap.not_gt, hread, hparse, hwhole, hcut, failStream, fail, badStreamNumber]

end Body

/-! ### TREE_DES on every stream -/

/-- TREE_DES either has a segment of a tree before it, which it rebuilds, or it drops the tree with an error. -/
theorem exec_treeDes_cases (s : State) :
    (∃ tr p padding, tr.size ≤ 511 ∧ HoldsTreeSegment s tr p padding) ∨
    (∃ k sub info, (k = .lenRange ∨ k = .malformedStream) ∧ exec .treeDes s = .next (raise k sub info (destroyTree s))) := by
  rcases Nat.lt_or_ge (8 * s.caps.bsCap) s.bsLen.toNat with hover | hcap
  · exact .inr ⟨_, _, _, .inl rfl, exec_treeDes_of_range hover⟩
  rcases readPadField_cases s with ⟨-, hread⟩ | ⟨-, -, hread⟩ | ⟨hroom, hp, hread⟩
  · exact .inr ⟨_, _, _, .inr rfl, exec_treeDes_of_header_error hcap hread⟩
  · exact .inr ⟨_, _, _, .inr rfl, exec_treeDes_of_header_error hcap hread⟩
  cases hparse : parse s.bsMem s.bsLen.toNat 512 ⟨s.bsBitptr.toNat + 8, 0, 0, s.arena⟩ with
  | error e => exact .inr ⟨_, _, _, .inr rfl, exec_treeDes_of_parse_error hcap hread hparse⟩
  | ok r =>
    obtain ⟨tr, hsize, hend, hbody, -⟩ := parse_eq_ok (Nat.zero_le _) hparse
    rw [Nat.zero_add] at hsize
    set p := uint (s.bsMem.bits .bs s.bsBitptr.toNat 8) with hpdef
    by_cases hwhole : (tr.serBits.length + p) % 8 = 0
    · by_cases hcut : s.bsLen.toNat < s.bsBitptr.toNat + 8 + tr.serBits.length + p
      · exact .inr ⟨_, _, _, .inr rfl, exec_treeDes_of_short_padding hcap hread hsize hend hbody hwhole hcut⟩
      · refine .inl ⟨tr, p, s.bsMem.bits .bs (s.bsBitptr.toNat + 8 + tr.serBits.length) p, hsize, hcap, by omega, hwhole,
          bits_length .., by omega, ?_⟩
        have hfield := bitsN_uint (s.bsMem.bits .bs s.bsBitptr.toNat 8)
        rw [bits_length, ← hpdef] at hfield
        rw [bits_add, bits_add, hbody, hfield, Nat.add_assoc]
    · exact .inr ⟨_, _, _, .inr rfl, exec_treeDes_of_mismatch hcap hread hsize hend hbody hwhole⟩

theorem exec_treeDes_goes (s : State) : ∃ t, exec .treeDes s = .next t := by
  rcases exec_treeDes_cases s with ⟨tr, p, padding, hsize, hseg⟩ | ⟨k, sub, info, -, h⟩
  · obtain ⟨ar, h, -⟩ := treeDes_of_segment hsize hseg
    exact ⟨_, h⟩
  · exact ⟨_, h⟩

/-- Settles O48: the segment passes every check, and Parse places the tree at the start of the arena. -/
theorem treeDesRebuildsTree : Obligations.TreeDesRebuildsTree := by
  intro s tr p padding _ hsize hseg
  obtain ⟨ar, hexec, hplaced, hframe⟩ := treeDes_of_segment hsize hseg
  obtain ⟨htree, -⟩ := holdsTree_installTree (s := { s with arena := ar }) hplaced hsize
  refine ⟨_, tr.number 0, hexec, rfl, htree, tr.number_erase 0, ?_, fun j hj => ?_, hframe⟩
  · rw [tr.number_indices, List.range_eq_range']
  · exact hplaced.weightAt_eq_zero j.zero_le (by rwa [Nat.zero_add])

/-- Settles O49: TREE_DES rebuilds the tree of the segment before it, or drops the tree. -/
theorem treeDesFailureDropsTree : Obligations.TreeDesFailureDropsTree := by
  intro s
  rcases exec_treeDes_cases s with ⟨tr, p, padding, hsize, hseg⟩ | ⟨k, sub, info, hk, h⟩
  · obtain ⟨ar, h, -⟩ := treeDes_of_segment hsize hseg
    exact ⟨_, h, .inl ⟨rfl, rfl, rfl⟩⟩
  · exact ⟨_, h, .inr ⟨k, sub, info, hk, rfl⟩⟩

/-- Settles O50: the checks before the body, in their order. -/
theorem treeDesHeaderErrors : Obligations.TreeDesHeaderErrors := by
  intro s
  obtain ⟨t, ht⟩ := exec_treeDes_goes s
  refine ⟨t, ht, fun hover => ?_, fun hcap hshort => ?_, fun hcap hroom hlarge => ?_⟩
  · exact eq_raise_of_dropped ht (exec_treeDes_of_range hover)
  · have hread : readPadField s = .error (.truncPadField, s.bsBitptr.toNat) := by simp [readPadField, hshort]
    exact eq_raise_of_dropped ht (exec_treeDes_of_header_error hcap hread)
  · have hread : readPadField s = .error (.padRange, s.bsBitptr.toNat) := by simp [readPadField, hroom.not_gt, hlarge]
    exact eq_raise_of_dropped ht (exec_treeDes_of_header_error hcap hread)

/-- Settles O51: a whole body fails on its padding, and any other on what Parse meets: the tag that finds the arena full, or the end of
the stream. -/
theorem treeDesBodyErrors : Obligations.TreeDesBodyErrors := by
  rintro s tr p _ rfl hcap hroom hpdef hp
  have hread : readPadField s = .ok p := by simp [readPadField, hroom.not_gt, ← hpdef, hp]
  obtain ⟨t, ht⟩ := exec_treeDes_goes s
  have hstop {b : BadStream} {k : Nat}
      (h : parse s.bsMem s.bsLen.toNat 512 ⟨s.bsBitptr.toNat + 8, 0, 0, s.arena⟩ = .error (b, k)) :=
    eq_raise_of_dropped ht (exec_treeDes_of_parse_error hcap hread h)
  have htags : tr.tagOffsets (s.bsBitptr.toNat + 8) = (tr.tagOffsets 0).map (s.bsBitptr.toNat + 8 + ·) :=
    tr.tagOffsets_add (s.bsBitptr.toNat + 8) 0
  refine ⟨t, ht, fun hsize hend hbody hmis => ?_, fun hsize hend hbody hwhole hcut => ?_, fun o ho hend hbits => ?_,
    fun n hn hlt hbits hfull => ?_⟩
  · exact eq_raise_of_dropped ht (exec_treeDes_of_mismatch hcap hread hsize hend hbody hmis)
  · exact eq_raise_of_dropped ht (exec_treeDes_of_short_padding hcap hread hsize hend hbody hwhole hcut)
  · exact hstop (parse_arena_full tr (by omega) (by omega) (by simp [htags, ho]) hend (agrees_of_bits_take hbits))
  · have hagree := agrees_of_bits_take hbits
    have hroom : ∀ o, (tr.tagOffsets (s.bsBitptr.toNat + 8))[511 - 0]? = some o → s.bsLen.toNat ≤ o := fun o ho => by
      rw [htags, List.getElem?_map] at ho
      obtain ⟨o', ho', rfl⟩ := Option.map_eq_some_iff.1 ho
      exact hn ▸ Nat.add_le_add_left (hfull o' ho') _
    rw [hn] at hagree
    have hcut {e : Nat} (h : tr.CutAt (s.bsBitptr.toNat + 8) s.bsLen.toNat e) :=
      hstop (parse_cut tr (by omega) (by omega) hroom h hagree)
    refine ⟨fun hmem => ?_, fun o hmem hleaf hlo hhi => ?_⟩
    · exact hcut (hn ▸ Tree.cutAt_of_tag (htags ▸ List.mem_map_of_mem hmem))
    · exact hcut (Tree.cutAt_of_symbol (htags ▸ List.mem_map_of_mem hmem) (by rwa [Nat.add_sub_cancel_left]) (by omega) (by omega))

end Sys2Proof.Machine
end

section
/-! CODE_GEN's errors, and why no code begins another (42_payload_encoder.md R190, R192, 30_encoding.md R110). -/

namespace Sys2Proof.Machine

/-! ### Filling the LUT (42_payload_encoder.md R190, R192) -/

/-- A leaf whose symbol is present, from before or from an earlier leaf, stops the filling. -/
theorem fillLut_of_duplicate {before after : List LeafCode} {c : LeafCode} {l : Lut} (hd : (before.map LeafCode.sym).Nodup)
    (hl : ∀ lc ∈ before, (l.entry lc.sym).present = false)
    (hc : (l.entry c.sym).present = true ∨ c.sym ∈ before.map LeafCode.sym) :
    fillLut (before ++ c :: after) l = .error c := by
  induction before generalizing l with
  | nil => exact if_pos (hc.resolve_right List.not_mem_nil)
  | cons b before ih =>
    obtain ⟨hb, hd⟩ := List.nodup_cons.1 hd
    have hother : ∀ lc ∈ before, b.sym ≠ lc.sym := fun lc hlc he => hb (he ▸ List.mem_map_of_mem hlc)
    rw [List.cons_append, fillLut, if_neg (by simp [hl b List.mem_cons_self])]
    refine ih hd (fun lc hlc => ?_) ?_
    · rw [entry_put_other l _ (hother lc hlc)]
      exact hl lc (List.mem_cons_of_mem b hlc)
    · by_cases he : b.sym = c.sym
      · exact .inl (by rw [he, entry_put_same]; rfl)
      · rw [entry_put_other l _ he]
        exact hc.imp_right fun hmem => (List.mem_cons.1 hmem).resolve_left (Ne.symm he)

/-- A filling that ends well met each symbol once, and none that was present. -/
theorem fillLut_ok_nodup {cs : List LeafCode} {l l' : Lut} (h : fillLut cs l = .ok l') :
    (cs.map LeafCode.sym).Nodup ∧ ∀ lc ∈ cs, (l.entry lc.sym).present = false := by
  induction cs generalizing l with
  | nil => simp
  | cons c cs ih =>
    rw [fillLut] at h
    split_ifs at h with hc
    obtain ⟨hd, habsent⟩ := ih h
    have hother : ∀ lc ∈ cs, c.sym ≠ lc.sym := fun lc hlc he => by
      have := habsent lc hlc
      rw [← he, entry_put_same] at this
      cases this
    refine ⟨List.nodup_cons.2 ⟨fun hmem => ?_, hd⟩, fun lc hlc => ?_⟩
    · obtain ⟨lc, hlc, he⟩ := List.mem_map.1 hmem
      exact hother lc hlc he.symm
    · rcases List.mem_cons.1 hlc with rfl | hlc
      · simpa using hc
      · rw [← entry_put_other l (entryOfCode c.code) (hother lc hlc)]
        exact habsent lc hlc

/-- The code of a present symbol is the path to its leaf. -/
theorem codeTable_present {t : Tree} {l : Lut} (h : codeTable t = .ok l) {b : Byte} (hb : (l.entry b).present = true) :
    ∃ k, ⟨k, b, lutBits (l.entry b)⟩ ∈ t.leafCodes [] := by
  obtain ⟨hd, -⟩ := fillLut_ok_nodup h
  obtain ⟨l', hl, hin, hout⟩ := fillLut_of_nodup (l := absentLut) hd fun lc _ => by rw [entry_absentLut]; rfl
  obtain rfl : l' = l := Except.ok.inj (hl.symm.trans h)
  by_cases hmem : b ∈ (t.leafCodes []).map LeafCode.sym
  · obtain ⟨⟨k, _, c⟩, hlc, rfl⟩ := List.mem_map.1 hmem
    exact ⟨k, by rw [hin _ hlc, lutBits_entryOfCode (Tree.code_length_lt_256 hd hlc)]; exact hlc⟩
  · rw [hout b hmem, entry_absentLut] at hb
    cases hb

/-! ### CODE_GEN -/

theorem exec_codeGen_of_no_tree {s : State} (hv : s.status.treeValid = false) :
    exec .codeGen s = .next (raise .noTree 0x00 0 s) := by
  simp [exec, execCodeGen, hv, fail]

theorem exec_codeGen_of_duplicate {s : State} {tr : Tree} {c : LeafCode} (hv : s.status.treeValid = true)
    (ht : currentTree s = some tr) (hc : codeTable tr = .error c) :
    exec .codeGen s = .next (raise .dupSymbol c.sym c.idx (setCodeValid false s.drawLut)) := by
  simp [exec, execCodeGen, hv, ht, hc, fail]

/-- Settles O40: the filling of the LUT stops at the first leaf whose symbol is present. -/
theorem codeGenErrors : Obligations.CodeGenErrors := by
  refine fun s => ⟨exec_codeGen_of_no_tree, fun hv tr before after c ht hsplit hd hc => ?_⟩
  have htable : codeTable tr = .error c := by
    rw [codeTable, hsplit]
    exact fillLut_of_duplicate hd (fun lc _ => by rw [entry_absentLut]; rfl) (.inr hc)
  exact ⟨_, exec_codeGen_of_duplicate hv ht htable, rfl⟩

/-! ### No code begins another (30_encoding.md R110) -/

theorem pathEnd_append (ar : Arena) (c d : Bits) (i : BitVec 9) :
    pathEnd ar (c ++ d) i = (pathEnd ar c i).bind (pathEnd ar d) := by
  induction c generalizing i with
  | nil => rfl
  | cons b c ih =>
    rw [List.cons_append, pathEnd, pathEnd]
    cases ar.node? i with
    | none => rfl
    | some nd => cases hleaf : nd.leaf <;> simp [hleaf, ih]

/-- No path goes on beyond a leaf. -/
theorem leafAt_unique_of_prefix {ar : Arena} {i : BitVec 9} {c d : Bits} {a b : Byte} (ha : LeafAt ar i c a)
    (hb : LeafAt ar i d b) (h : c <+: d) : a = b := by
  obtain ⟨e, rfl⟩ := h
  obtain ⟨j, nd, hj, hnd, hleaf, rfl⟩ := ha
  have hend : LeafAt ar j e b := by
    obtain ⟨k, nd', hk, hnode⟩ := hb
    rw [pathEnd_append, hj] at hk
    exact ⟨k, nd', hk, hnode⟩
  exact ((leafAt_of_leaf hnd hleaf e b).1 hend).2

/-- Settles O41: both codes are paths to leaves of the tree. -/
theorem codesArePrefixFree : Obligations.CodesArePrefixFree := by
  rintro s t tr hv ⟨ht, -⟩ hexec hcode a b hne ha hb hprefix
  cases htable : codeTable tr with
  | error c =>
    obtain rfl := Host.Outcome.next.inj ((exec_codeGen_of_duplicate hv ht htable).symm.trans hexec)
    cases hcode
  | ok l =>
    obtain rfl := Host.Outcome.next.inj ((exec_codeGen hv ht htable).symm.trans hexec)
    have hpath {x : Byte} (hx : (l.entry x).present = true) : LeafAt s.arena s.root (lutBits (l.entry x)) x := by
      simpa using (mem_leafCodes_iff ht [] _ x).1 (codeTable_present htable hx)
    exact hne (leafAt_unique_of_prefix (hpath ha) (hpath hb) hprefix)

end Sys2Proof.Machine
end

section
/-! PAY_DEC: the walk over whole codes, and its errors (43_payload_decoder.md R210 to R214). -/

namespace Sys2Proof.Machine

/-! ### The walk (43_payload_decoder.md R212, R214) -/

theorem leafAt_cons {ar : Arena} {i : BitVec 9} {nd : Node} (hnd : ar.node? i = some nd) (hleaf : nd.leaf = false)
    (b : Bool) (c : Bits) (sym : Byte) :
    LeafAt ar i (b :: c) sym ↔ LeafAt ar (if b then nd.right else nd.left) c sym := by
  simp [LeafAt, pathEnd, hnd, hleaf]

theorem node_of_pathEnd {ar : Arena} {c : Bits} {i j : BitVec 9} {nd : Node} (h : pathEnd ar c i = some j)
    (hnd : ar.node? j = some nd) : ∃ nd, ar.node? i = some nd := by
  cases c with
  | nil => exact ⟨nd, Option.some.inj h ▸ hnd⟩
  | cons b c =>
    cases hi : ar.node? i with
    | none => simp [pathEnd, hi] at h
    | some nd => exact ⟨nd, rfl⟩

section Walk

variable {ar : Arena} {root : BitVec 9} {decCap k n : Nat} {cur : BitVec 9} {nd child : Node} {b : Bool} {bs : Bits}

theorem walk_cons_leaf (hnd : ar.node? cur = some nd) (hchild : ar.node? (if b then nd.right else nd.left) = some child)
    (hleaf : child.leaf = true) :
    walk ar root decCap (b :: bs) k cur n =
      if n = decCap then .overflow k else (walk ar root decCap bs (k + 1) root (n + 1)).emit child.sym := by
  simp [walk, hnd, hchild, hleaf]

theorem walk_cons_internal (hnd : ar.node? cur = some nd) (hchild : ar.node? (if b then nd.right else nd.left) = some child)
    (hleaf : child.leaf = false) :
    walk ar root decCap (b :: bs) k cur n = walk ar root decCap bs (k + 1) (if b then nd.right else nd.left) n := by
  simp [walk, hnd, hchild, hleaf]

/-- A path to a leaf makes the walk emit the leaf's symbol, or find DEC full at the path's last bit. -/
theorem walk_code {c : Bits} {sym : Byte} (hnd : ar.node? cur = some nd) (hint : nd.leaf = false) (hc : LeafAt ar cur c sym) :
    walk ar root decCap (c ++ bs) k cur n = if n = decCap then .overflow (k + c.length - 1)
      else (walk ar root decCap bs (k + c.length) root (n + 1)).emit sym := by
  induction c generalizing cur k nd with
  | nil =>
    obtain ⟨i, nd', hi, hnd', hleaf, -⟩ := hc
    obtain rfl := Option.some.inj hi
    obtain rfl := Option.some.inj (hnd.symm.trans hnd')
    cases hint.symm.trans hleaf
  | cons b c ih =>
    have hrest := (leafAt_cons hnd hint b c sym).1 hc
    obtain ⟨child, hchild⟩ : ∃ nd', ar.node? (if b then nd.right else nd.left) = some nd' := by
      obtain ⟨i, nd', hi, hnd', -⟩ := hrest
      exact node_of_pathEnd hi hnd'
    cases hleaf : child.leaf with
    | true =>
      obtain ⟨rfl, rfl⟩ := (leafAt_of_leaf hchild hleaf c sym).1 hrest
      exact walk_cons_leaf hnd hchild hleaf
    | false =>
      rw [List.cons_append, walk_cons_internal hnd hchild hleaf, ih hchild hleaf hrest, List.length_cons,
        Nat.add_right_comm k 1, Nat.add_assoc k]

/-- A path to an internal node leaves the walk there. -/
theorem walk_inside {c : Bits} {i : BitVec 9} (hc : pathEnd ar c cur = some i) (hnd : ar.node? i = some nd)
    (hint : nd.leaf = false) : walk ar root decCap c k cur n = .finished [] i := by
  induction c generalizing cur k with
  | nil => rw [walk, Option.some.inj hc]
  | cons b c ih =>
    obtain ⟨ndc, hcur⟩ := node_of_pathEnd hc hnd
    cases hleaf : ndc.leaf with
    | true => simp [pathEnd, hcur, hleaf] at hc
    | false =>
      have hrest : pathEnd ar c (if b then ndc.right else ndc.left) = some i := by simpa [pathEnd, hcur, hleaf] using hc
      obtain ⟨child, hchild⟩ := node_of_pathEnd hrest hnd
      cases hcl : child.leaf with
      | true =>
        cases c with
        | nil =>
          obtain rfl := Option.some.inj hrest
          obtain rfl := Option.some.inj (hchild.symm.trans hnd)
          cases hint.symm.trans hcl
        | cons => simp [pathEnd, hchild, hcl] at hrest
      | false => rw [walk_cons_internal hcur hchild hcl, ih hrest]

/-- Whole codes make the walk emit their symbols, as long as DEC has room. -/
theorem walk_codes {codes : List (Bits × Byte)} (hroot : ar.node? root = some nd) (hint : nd.leaf = false)
    (hcodes : ∀ c ∈ codes, LeafAt ar root c.1 c.2) (hroom : n + codes.length ≤ decCap) :
    walk ar root decCap ((codes.map Prod.fst).flatten ++ bs) k root n =
      (codes.map Prod.snd).foldr WalkEnd.emit
        (walk ar root decCap bs (k + ((codes.map Prod.fst).flatten).length) root (n + codes.length)) := by
  induction codes generalizing k n with
  | nil => rfl
  | cons c codes ih =>
    rw [List.length_cons] at hroom ⊢
    rw [List.map_cons, List.flatten_cons, List.append_assoc, walk_code hroot hint (hcodes c List.mem_cons_self),
      if_neg (by omega), ih (fun c hc => hcodes c (List.mem_cons_of_mem _ hc)) (by omega), List.map_cons, List.foldr_cons,
      List.length_append, Nat.add_assoc k, Nat.add_right_comm n 1, Nat.add_assoc n]

end Walk

theorem foldr_emit_finished (syms syms' : List Byte) (cur : BitVec 9) :
    syms.foldr WalkEnd.emit (.finished syms' cur) = .finished (syms ++ syms') cur := by
  induction syms with
  | nil => rfl
  | cons sym syms ih => rw [List.foldr_cons, ih]; rfl

theorem foldr_emit_overflow (syms : List Byte) (k : Nat) : syms.foldr WalkEnd.emit (.overflow k) = .overflow k := by
  induction syms with
  | nil => rfl
  | cons sym syms ih => rw [List.foldr_cons, ih]; rfl

/-! ### PAY_DEC under an internal root -/

theorem exec_payDec_of_internal {s : State} {p l : Nat} {rt : Node} (hv : s.status.treeValid = true) (hpay : HoldsPayload s p l)
    (hroot : s.arena.node? s.root = some rt) (hint : rt.leaf = false) : exec .payDec s = decodeWalk p l s := by
  rw [exec_payDec_of_payload hv hpay hroot, if_neg (by simp [hint])]

section Internal

variable {s : State} {p l : Nat} {rt : Node} (hroot : s.arena.node? s.root = some rt) (hint : rt.leaf = false)
  {codes : List (Bits × Byte)} (hcodes : ∀ c ∈ codes, LeafAt s.arena s.root c.1 c.2)
  (hroom : codes.length ≤ s.caps.decCap) {rest : Bits}
  (hbits : s.bsMem.bits .bs (s.bsBitptr.toNat + 8) (l - p) = (codes.map Prod.fst).flatten ++ rest)
include hroot hint hcodes hroom hbits

/-- The walk over the meaningful bits is the walk over what follows the whole codes. -/
theorem walk_of_payload :
    walk s.arena s.root s.caps.decCap (s.bsMem.bits .bs (s.bsBitptr.toNat + 8) (l - p)) 0 s.root 0 =
      (codes.map Prod.snd).foldr WalkEnd.emit
        (walk s.arena s.root s.caps.decCap rest ((codes.map Prod.fst).flatten).length s.root codes.length) := by
  rw [hbits, walk_codes hroot hint hcodes (by rwa [Nat.zero_add]), Nat.zero_add, Nat.zero_add]

variable (hv : s.status.treeValid = true) (hpay : HoldsPayload s p l)
include hv hpay

theorem exec_payDec_of_finished {cur : BitVec 9}
    (hwalk : walk s.arena s.root s.caps.decCap rest ((codes.map Prod.fst).flatten).length s.root codes.length = .finished [] cur) :
    exec .payDec s = if cur ≠ s.root then
      .next (raise .malformedStream 0x07 (s.bsBitptr.toNat + 8 + (l - p)) s.drawDec)
      else finishDecode (codes.map Prod.snd) p l s := by
  have hall := walk_of_payload hroot hint hcodes hroom hbits
  rw [hwalk, foldr_emit_finished, List.append_nil] at hall
  simp only [exec_payDec_of_internal hv hpay hroot hint, decodeWalk, hall]
  rfl

theorem exec_payDec_of_overflow {k : Nat}
    (hwalk : walk s.arena s.root s.caps.decCap rest ((codes.map Prod.fst).flatten).length s.root codes.length = .overflow k) :
    exec .payDec s = .next (raise .decOverflow 0x01 (s.bsBitptr.toNat + 8 + k) s.drawDec) := by
  have hall := walk_of_payload hroot hint hcodes hroom hbits
  rw [hwalk, foldr_emit_overflow] at hall
  simp only [exec_payDec_of_internal hv hpay hroot hint, decodeWalk, hall, fail]

end Internal

/-- Settles O53: after whole codes the walk is at the root, with all their symbols emitted. -/
theorem payDecWalksCodes : Obligations.PayDecWalksCodes := by
  intro s p l rt codes _ hwf hv hpay hroot hint hcodes hbits hroom
  have hexec := exec_payDec_of_finished hroot hint hcodes hroom (hbits.trans (List.append_nil _).symm) hv hpay rfl
  rw [if_neg (by simp)] at hexec
  refine ⟨_, hexec, by rw [List.length_map]; rfl, fun j hj => ?_, fun a ha => ?_⟩
  · have hread := read_writeBytes_in .dec (codes.map Prod.snd) 0 j (by simpa using hj) (wf_rising hwf)
    rwa [Nat.zero_add, List.getElem_map] at hread
  · exact read_writeBytes_out .dec _ s.decMem 0 a (.inr (by simpa using ha))

/-- Settles O54: after whole codes the walk ends inside the tree, or completes a code that DEC has no room for. -/
theorem payDecWalkErrors : Obligations.PayDecWalkErrors := by
  intro s p l rt codes hv hpay hroot hint hcodes
  refine ⟨fun rest hroom hinside hbits => ?_, fun c sym rest hfull hc hbits => ?_⟩
  · obtain ⟨i, nd, hi, hnd, hnint, hne⟩ := hinside
    have hexec := exec_payDec_of_finished hroot hint hcodes hroom hbits hv hpay (walk_inside hi hnd hnint)
    rw [if_pos hne] at hexec
    exact ⟨_, hexec, rfl⟩
  · rw [List.append_assoc] at hbits
    have hexec := exec_payDec_of_overflow hroot hint hcodes hfull.le hbits hv hpay
      ((walk_code hroot hint hc).trans (if_pos hfull))
    rw [← List.length_append] at hexec
    exact ⟨_, hexec, rfl⟩

/-! ### The header of a payload segment (43_payload_decoder.md R211) -/

theorem exec_payDec_of_range {s : State} (h : 8 * s.caps.bsCap < s.bsLen.toNat) :
    exec .payDec s = .next (raise .lenRange 0x02 s.bsLen.toNat s) := by
  simp [exec, execPayDec, bsLenOutOfRange, h, fail]

section Header

variable {s : State} (hcap : s.bsLen.toNat ≤ 8 * s.caps.bsCap)
include hcap

theorem exec_payDec_of_no_tree (hv : s.status.treeValid = false) : exec .payDec s = .next (raise .noTree 0x00 0 s) := by
  simp [exec, execPayDec, bsLenOutOfRange, hcap.not_gt, hv, fail]

variable (hv : s.status.treeValid = true)
include hv

theorem exec_payDec_of_header_error {b : BadStream} {k : Nat} (hread : readPadField s = .error (b, k)) :
    exec .payDec s = .next (raise .malformedStream (badStreamNumber b) k s.drawDec) := by
  simp [exec, execPayDec, bsLenOutOfRange, hcap.not_gt, hv, hread, failStream, fail]

variable {p l : Nat} (hread : readPadField s = .ok p) (hlen : s.bsBitptr.toNat + 8 + l = s.bsLen.toNat)
include hread hlen

theorem exec_payDec_of_short (hshort : l < p) :
    exec .payDec s = .next (raise .malformedStream 0x06 (s.bsBitptr.toNat + 8) s.drawDec) := by
  have hbody : s.bsLen.toNat - (s.bsBitptr.toNat + 8) = l := by omega
  simp [exec, execPayDec, bsLenOutOfRange, hcap.not_gt, hv, hread, hbody, hshort, failStream, fail, badStreamNumber]

theorem exec_payDec_of_mismatch (hpad : p ≤ l) (hmis : l % 8 ≠ 0) :
    exec .payDec s = .next (raise .malformedStream 0x05 (s.bsBitptr.toNat + 8) s.drawDec) := by
  have hbody : s.bsLen.toNat - (s.bsBitptr.toNat + 8) = l := by omega
  simp [exec, execPayDec, bsLenOutOfRange, hcap.not_gt, hv, hread, hbody, hpad.not_gt, hmis, failStream, fail,
    badStreamNumber]

end Header

/-- Settles O56: the checks before the walk, in their order. -/
theorem payDecHeaderErrors : Obligations.PayDecHeaderErrors := by
  intro s
  refine ⟨exec_payDec_of_range, exec_payDec_of_no_tree, fun hcap hv => ⟨fun hshort => ?_, fun p l hlen hp => ?_⟩⟩
  · have hread : readPadField s = .error (.truncPadField, s.bsBitptr.toNat) := by simp [readPadField, hshort]
    exact ⟨_, exec_payDec_of_header_error hcap hv hread, rfl⟩
  have hroom : ¬ s.bsLen.toNat < s.bsBitptr.toNat + 8 := by omega
  refine ⟨fun hlarge => ?_, fun hsmall hshort => ?_, fun hsmall hpad hmis => ?_⟩
  · have hread : readPadField s = .error (.padRange, s.bsBitptr.toNat) := by simp [readPadField, hroom, ← hp, hlarge]
    exact ⟨_, exec_payDec_of_header_error hcap hv hread, rfl⟩
  · have hread : readPadField s = .ok p := by simp [readPadField, hroom, ← hp, hsmall]
    exact ⟨_, exec_payDec_of_short hcap hv hread hlen hshort, rfl⟩
  · have hread : readPadField s = .ok p := by simp [readPadField, hroom, ← hp, hsmall]
    exact ⟨_, exec_payDec_of_mismatch hcap hv hread hlen hpad hmis, rfl⟩

end Sys2Proof.Machine
end

section
/-! The payload round trip: what PAY_ENC packs PAY_DEC unpacks (43_payload_decoder.md R215). -/

namespace Sys2Proof.Machine

/-! ### Codes of trees of one shape -/

/-- The leaves of a tree, each with its symbol and path, are those of its shape. -/
theorem Tree.erase_leafCodes (t : Tree) (pre : Bits) :
    (t.erase.leafCodes pre).map (fun lc => (lc.sym, lc.code)) = (t.leafCodes pre).map fun lc => (lc.sym, lc.code) := by
  induction t generalizing pre with
  | leaf => rfl
  | node _ l r ihl ihr => simp only [erase, leafCodes, List.map_append, ihl, ihr]

/-- With a tree of the same shape, the code of a present symbol leads to a leaf of that symbol. -/
theorem leafAt_of_same_shape {d : State} {tr tr' : Tree} {l : Lut} (htable : codeTable tr = .ok l) (ht : currentTree d = some tr')
    (hshape : tr'.erase = tr.erase) {b : Byte} (hb : (l.entry b).present = true) :
    LeafAt d.arena d.root (lutBits (l.entry b)) b := by
  obtain ⟨k, hk⟩ := codeTable_present htable hb
  have hmem : (b, lutBits (l.entry b)) ∈ (tr'.leafCodes []).map fun lc => (lc.sym, lc.code) := by
    rw [← Tree.erase_leafCodes, hshape, Tree.erase_leafCodes]
    exact List.mem_map_of_mem hk
  obtain ⟨⟨k', sym, code⟩, hk', heq⟩ := List.mem_map.1 hmem
  obtain ⟨hsym, hcode⟩ := Prod.mk.inj heq
  rw [← hcode, ← hsym]
  simpa using (mem_leafCodes_iff ht [] code sym).1 ⟨k', hk'⟩

theorem root_of_currentTree {s : State} {t : Tree} (h : currentTree s = some t) :
    ∃ nd, s.arena.node? s.root = some nd ∧ nd.leaf = t.isLeaf := by
  obtain ⟨nd, hnd, ⟨hleaf, rfl⟩ | ⟨hleaf, l, r, -, -, rfl⟩⟩ := (readTree_succ_eq_some_iff s.arena 510 s.root t).1 h
  · exact ⟨nd, hnd, hleaf⟩
  · exact ⟨nd, hnd, hleaf⟩

/-! ### What a PAY_ENC that ended without an error has found -/

@[simp] theorem inputBytes_length (s : State) : (inputBytes s).length = s.inLen.toNat := by simp [inputBytes]

theorem payloadBits_ok_present {l : Lut} {syms : List Byte} {i : Nat} {bs : Bits} (h : payloadBits l syms i = .ok bs) :
    ∀ b ∈ syms, (l.entry b).present = true := by
  induction syms generalizing i bs with
  | nil => simp
  | cons sym syms ih =>
    rw [payloadBits] at h
    split_ifs at h with hp
    split at h
    · cases h
    next bs' hrest =>
      intro b hb
      rcases List.mem_cons.1 hb with rfl | hb
      · simpa using hp
      · exact ih hrest b hb

/-- Its input is in range, every symbol of it has a code, and it emitted their segment. -/
theorem exec_payEnc_completed {s t : State} (hv : s.status.codeValid = true) (h : exec .payEnc s = .next t)
    (herr : t.status.err = false) :
    (∀ b ∈ inputBytes s, (s.lut.entry b).present = true) ∧
      emitSegment ((inputBytes s).flatMap fun b => lutBits (s.lut.entry b)) s = .next t := by
  have hfailed {k : ErrKind} {sub : Byte} {info : Nat} (hr : exec .payEnc s = .next (raise k sub info s)) : False := by
    obtain rfl := Host.Outcome.next.inj (hr.symm.trans h)
    cases herr
  have hlen : s.inLen.toNat ≤ s.caps.inCap := Nat.le_of_not_lt fun hover => hfailed (exec_payEnc_of_range hover)
  cases hbits : payloadBits s.lut (inputBytes s) 0 with
  | error e => exact (hfailed (by rw [exec_payEnc_of_code hlen hv, hbits])).elim
  | ok body =>
    have hpresent := payloadBits_ok_present hbits
    exact ⟨hpresent, exec_payEnc_of_present hlen hv hpresent ▸ h⟩

/-! ### The round trip -/

/-- A segment of `body` in BS from BS_BITPTR to BS_LEN is a well-formed payload with `body` as its meaningful bits. -/
theorem holdsPayload_of_segment {d : State} {body : Bits} (hcap : d.bsLen.toNat ≤ 8 * d.caps.bsCap)
    (hlen : d.bsLen.toNat = d.bsBitptr.toNat + (8 + body.length + padOf body.length))
    (hbits : d.bsMem.bits .bs d.bsBitptr.toNat (8 + body.length + padOf body.length) = frameSegment body) :
    HoldsPayload d (padOf body.length) (body.length + padOf body.length) ∧
      d.bsMem.bits .bs (d.bsBitptr.toNat + 8) body.length = body := by
  have hpad := padOf_lt body.length
  rw [← frameSegment_length, frameSegment, bits_eq_append_iff, bits_eq_append_iff, bitsN_length] at hbits
  obtain ⟨⟨hfield, hbody⟩, -⟩ := hbits
  have huint := uint_bitsN 8 (padOf body.length) (by omega)
  exact ⟨⟨hcap, by omega, by rw [hfield, huint], by omega, Nat.le_add_left .., padOf_aligns _⟩, hbody⟩

/-- Settles O57: the segment is a payload whose meaningful bits are the input's codes, each a path of the other tree; where the root is a
leaf there are none, and the symbol is repeated. -/
theorem payloadRoundTrip : Obligations.PayloadRoundTrip := by
  intro s s₁ d tr tr' hcaps hdcaps hwf hdwf _ hcode _ htable _ henc herr hdv hdtree hshape hptr hlen hcap hcopy hsingle hroom
  obtain ⟨hpresent, hemit⟩ := exec_payEnc_completed hcode henc herr
  set body := (inputBytes s).flatMap fun b => lutBits (s.lut.entry b) with hbody
  obtain ⟨hfits, rfl⟩ := emitSegment_completed hemit herr
  have hend : d.bsLen.toNat = d.bsBitptr.toNat + (8 + body.length + padOf body.length) := by
    rw [hlen, hptr]
    exact Nat.mod_eq_of_lt (by obtain ⟨-, ⟨-, -, hout⟩, -⟩ := hcaps; omega)
  have hseg : d.bsMem.bits .bs d.bsBitptr.toNat (8 + body.length + padOf body.length) = frameSegment body := by
    have hwrote := bits_setBits .out (frameSegment body) s.outBitptr.toNat (wf_rising hwf)
    rw [frameSegment_length] at hwrote
    rw [← hlen, hend, hptr] at hcopy
    rw [hptr]
    exact (bits_congr hcopy).trans hwrote
  obtain ⟨hpay, hmean⟩ := holdsPayload_of_segment hcap hend hseg
  have hpath : ∀ b ∈ inputBytes s, LeafAt d.arena d.root (lutBits (s.lut.entry b)) b := fun b hb =>
    leafAt_of_same_shape htable hdtree.1 hshape (hpresent b hb)
  obtain ⟨rt, hrt, hleaf⟩ := root_of_currentTree hdtree.1
  have hget (i : Nat) (hi : i < s.inLen.toNat) : ∃ h : i < (inputBytes s).length, (inputBytes s)[i] = s.byteAt .inp i :=
    ⟨by simpa using hi, by simp [inputBytes]⟩
  cases hrtleaf : rt.leaf with
  | false =>
    have hcodes := payDecWalksCodes d _ _ rt ((inputBytes s).map fun b => (lutBits (s.lut.entry b), b)) hdcaps hdwf hdv hpay hrt
      hrtleaf (by simpa using hpath) (by simpa [hbody, List.flatMap_def, Function.comp_def] using hmean) (by simpa using hroom)
    obtain ⟨t, ht, heq, hin, -⟩ := hcodes
    refine ⟨t, ht, by rw [heq]; rfl, by rw [heq]; simp, fun i hi => ?_, by rw [heq]; rfl⟩
    obtain ⟨hi', hbyte⟩ := hget i hi
    rw [hin i (by simpa using hi), List.getElem_map, hbyte]
  | true =>
    have hempty : ∀ b ∈ inputBytes s, lutBits (s.lut.entry b) = [] ∧ rt.sym = b := fun b hb =>
      (leafAt_of_leaf hrt hrtleaf _ b).1 (hpath b hb)
    have hnil : body = [] := List.flatMap_eq_nil_iff.2 fun b hb => (hempty b hb).1
    rw [hnil] at hpay
    have hrepeat : d.decRepeat = s.inLen := hsingle (by
      rw [← Tree.erase_isLeaf, ← hshape, Tree.erase_isLeaf, ← hleaf, hrtleaf])
    obtain ⟨t, ht, heq, hin, -⟩ :=
      (payDecRepeatsSingleLeaf d _ _ rt hdcaps hdwf hdv hpay hrt hrtleaf).1 (Nat.zero_add _) (hrepeat ▸ hroom)
    refine ⟨t, ht, by rw [heq]; rfl, by rw [heq]; exact hrepeat, fun i hi => ?_, by rw [heq]; rfl⟩
    obtain ⟨hi', hbyte⟩ := hget i hi
    rw [hin i (hrepeat ▸ hi), ← hbyte]
    exact (hempty _ (List.getElem_mem hi')).2

end Sys2Proof.Machine
end

section
/-! HIST_ACCUM: the counts, and where they stop (40_histogram_builder.md R141). -/

namespace Sys2Proof.Machine

/-! ### Counting -/

/-- A counter at its largest value stops the count at the first occurrence that finds it so. -/
theorem countSymbols_of_full {before after : List Byte} {b : Byte} (i : Nat) {h : Hist}
    (hfull : (h.count b).toNat + before.count b = 2 ^ 32 - 1)
    (hbefore : ∀ j (hj : j < before.length), (h.count before[j]).toNat + (before.take j).count before[j] < 2 ^ 32 - 1) :
    countSymbols (before ++ b :: after) i h = .error (b, i + before.length) := by
  induction before generalizing i h with
  | nil =>
    have hmax : h.count b = 0xFFFFFFFF := BitVec.eq_of_toNat_eq (by simpa using hfull)
    exact if_pos hmax
  | cons c before ih =>
    have hlt : (h.count c).toNat < 2 ^ 32 - 1 := by simpa using hbefore 0 (Nat.succ_pos _)
    have hne : h.count c ≠ 0xFFFFFFFF := fun he => by rw [he] at hlt; exact absurd hlt (by decide)
    have hnext (x : Byte) (xs : List Byte) :
        ((h.put c (h.count c + 1)).count x).toNat + xs.count x = (h.count x).toNat + (c :: xs).count x := by
      rw [count_put]
      by_cases hc : c = x
      · subst hc
        rw [if_pos rfl, List.count_cons_self, BitVec.toNat_add]
        change ((h.count c).toNat + 1) % 2 ^ 32 + _ = _
        omega
      · rw [if_neg hc, List.count_cons_of_ne hc]
    rw [List.cons_append, countSymbols, if_neg hne, ih (i + 1) (by rw [hnext]; exact hfull), List.length_cons, Nat.add_assoc,
      Nat.add_comm 1]
    intro j hj
    rw [hnext]
    exact hbefore (j + 1) (Nat.succ_lt_succ hj)

/-! ### HIST_ACCUM -/

theorem exec_histAccum_of_range {s : State} (h : s.caps.inCap < s.inLen.toNat) :
    exec .histAccum s = .next (raise .lenRange 0x01 s.inLen.toNat s) := by
  simp [exec, execHistAccum, inLenOutOfRange, h, fail]

theorem exec_histAccum_of_ok {s : State} {h : Hist} (hlen : s.inLen.toNat ≤ s.caps.inCap)
    (hc : countSymbols (inputBytes s) 0 s.hist = .ok h) : exec .histAccum s = .next (complete { s with hist := h }) := by
  simp [exec, execHistAccum, inLenOutOfRange, hlen.not_gt, hc, succeed]

theorem exec_histAccum_of_full {s : State} {b : Byte} {i : Nat} (hlen : s.inLen.toNat ≤ s.caps.inCap)
    (hc : countSymbols (inputBytes s) 0 s.hist = .error (b, i)) :
    exec .histAccum s = .next (raise .countOverflow b i s.drawHist) := by
  simp [exec, execHistAccum, inLenOutOfRange, hlen.not_gt, hc, fail]

/-- Settles O33: a count that stopped would have found a full counter, which the hypothesis excludes. -/
theorem histAccumCounts : Obligations.HistAccumCounts := by
  intro s hlen hfits
  cases hc : countSymbols (inputBytes s) 0 s.hist with
  | ok h => exact ⟨_, exec_histAccum_of_ok hlen hc, rfl, countSymbols_ok hc⟩
  | error e =>
    obtain ⟨b, k⟩ := e
    obtain ⟨-, -, hk, hfull⟩ := countSymbols_error hc
    rw [Nat.sub_zero] at hk hfull
    have hmore : (inputBytes s).count b = ((inputBytes s).take k).count b + ((inputBytes s).drop k).count b := by
      rw [← List.count_append, List.take_append_drop]
    have hone : 0 < ((inputBytes s).drop k).count b :=
      List.count_pos_iff.2 (List.mem_of_getElem? (i := 0) (by rwa [List.getElem?_drop, Nat.add_zero]))
    have := hfits b
    omega

/-- Settles O34: the input is split at the first symbol whose counter is full. -/
theorem histAccumErrors : Obligations.HistAccumErrors := by
  refine fun s => ⟨exec_histAccum_of_range, fun hlen i hi hfull hbefore => ?_⟩
  have hsplit : (inputBytes s).take i ++ (inputBytes s)[i] :: (inputBytes s).drop (i + 1) = inputBytes s := by simp
  have hstop := countSymbols_of_full (after := (inputBytes s).drop (i + 1)) 0 hfull fun j hj => by
    have hji : j < i := by rw [List.length_take] at hj; omega
    rw [List.getElem_take, List.take_take, Nat.min_eq_left hji.le]
    exact hbefore j hji
  rw [hsplit, List.length_take, Nat.min_eq_left hi.le, Nat.zero_add] at hstop
  exact ⟨_, exec_histAccum_of_full hlen hstop, rfl⟩

end Sys2Proof.Machine
end

section
/-! TREE_BUILD: the merges join the leaves into one full tree (40_histogram_builder.md R142, R144 to R146). -/

namespace Sys2Proof.Machine

/-! ### Trees that stand in the arena (10_state.md R40) -/

/-- The arena holds each node of the tree at the node's index. -/
def Tree.StandsIn (ar : Arena) : Tree → Prop
  | .leaf i sym => ∃ nd, ar[i]? = some nd ∧ nd.leaf = true ∧ nd.sym = sym
  | .node i l r => ∃ nd, ar[i]? = some nd ∧ nd.leaf = false ∧ nd.left.toNat = l.rootIdx ∧ nd.right.toNat = r.rootIdx ∧
      l.StandsIn ar ∧ r.StandsIn ar

theorem Tree.StandsIn.congr {ar ar' : Arena} {t : Tree} (h : t.StandsIn ar) (heq : ∀ j ∈ t.indices, ar'[j]? = ar[j]?) :
    t.StandsIn ar' := by
  induction t with
  | leaf i sym =>
    obtain ⟨nd, hnd, hleaf⟩ := h
    exact ⟨nd, (heq i List.mem_cons_self).trans hnd, hleaf⟩
  | node i l r ihl ihr =>
    obtain ⟨nd, hnd, hleaf, hleft, hright, hl, hr⟩ := h
    exact ⟨nd, (heq i List.mem_cons_self).trans hnd, hleaf, hleft, hright,
      ihl hl fun j hj => heq j (List.mem_cons_of_mem i (List.mem_append_left _ hj)),
      ihr hr fun j hj => heq j (List.mem_cons_of_mem i (List.mem_append_right _ hj))⟩

/-- The walk from the root of such a tree reads it. -/
theorem Tree.StandsIn.readTree_eq {ar : Arena} {t : Tree} (h : t.StandsIn ar) {fuel : Nat} {i : BitVec 9} (hi : i.toNat = t.rootIdx)
    (hf : t.size ≤ fuel) : readTree ar fuel i = some t := by
  induction t generalizing fuel i with
  | leaf k sym =>
    obtain ⟨fuel, rfl⟩ := Nat.exists_eq_add_one.2 hf
    obtain ⟨nd, hnd, hleaf, rfl⟩ := h
    exact (readTree_succ_eq_some_iff ..).2 ⟨nd, by rwa [Arena.node?, hi], .inl ⟨hleaf, by rw [hi]; rfl⟩⟩
  | node k l r ihl ihr =>
    rw [size] at hf
    obtain ⟨fuel, rfl⟩ := Nat.exists_eq_add_one.2 (show 0 < fuel by omega)
    obtain ⟨nd, hnd, hleaf, hleft, hright, hl, hr⟩ := h
    exact (readTree_succ_eq_some_iff ..).2 ⟨nd, by rwa [Arena.node?, hi],
      .inr ⟨hleaf, l, r, ihl hl hleft (by omega), ihr hr hright (by omega), by rw [hi]; rfl⟩⟩

/-- The symbols of a tree's leaves in pre-order. -/
def Tree.leafSyms : Tree → List Byte
  | .leaf _ sym => [sym]
  | .node _ l r => l.leafSyms ++ r.leafSyms

theorem Tree.leafCodes_syms (t : Tree) (pre : Bits) : (t.leafCodes pre).map LeafCode.sym = t.leafSyms := by
  induction t generalizing pre with
  | leaf => rfl
  | node _ l r ihl ihr => rw [leafCodes, List.map_append, ihl, ihr, leafSyms]

theorem Tree.leafSyms_length (t : Tree) : t.leafSyms.length = t.leafCount := by
  rw [← t.leafCodes_syms [], List.length_map, leafCodes_length]

theorem Tree.isLeaf_iff (t : Tree) : t.isLeaf = true ↔ t.leafCount = 1 := by
  cases t with
  | leaf => simp [isLeaf, leafCount]
  | node _ l r =>
    have := l.one_le_leafCount
    have := r.one_le_leafCount
    simp only [isLeaf, leafCount, Bool.false_eq_true, false_iff]
    omega

/-! ### The forest of the priority structure -/

/-- The arena's first `k` entries are the nodes of trees whose roots are the entries of the queue, and whose leaves are those of `syms`. -/
def ForestOf (syms : List Byte) (q : List QEntry) (ar : Arena) (k : Nat) : Prop :=
  ∃ ts : List Tree, (ts.map Tree.rootIdx).Perm (q.map QEntry.idx) ∧ (∀ t ∈ ts, t.StandsIn ar) ∧
    (ts.flatMap Tree.indices).Perm (List.range k) ∧ (ts.flatMap Tree.leafSyms).Perm syms

/-- Of a list one of whose images begins another list, the element comes first in an order of the list. -/
theorem exists_perm_cons_of_map {α β : Type} {f : α → β} {xs : List α} {y : β} {ys : List β} (h : (xs.map f).Perm (y :: ys)) :
    ∃ x xs', xs.Perm (x :: xs') ∧ f x = y ∧ (xs'.map f).Perm ys := by
  obtain ⟨x, hx, rfl⟩ := List.mem_map.1 (h.mem_iff.2 List.mem_cons_self)
  obtain ⟨before, after, rfl⟩ := List.mem_iff_append.1 hx
  have hperm : (before ++ x :: after).Perm (x :: (before ++ after)) := List.perm_middle
  exact ⟨x, before ++ after, hperm, rfl, List.Perm.cons_inv ((hperm.map f).symm.trans h)⟩

theorem forestOf_leaves (h : Hist) {syms : List Byte} (ar : Arena) (hn : syms.length ≤ 256) :
    ForestOf syms (leafQueue h syms 0) (placeLeaves h syms 0 ar) syms.length := by
  have hroots : (syms.zipIdx.map fun p => Tree.leaf p.2 p.1).map Tree.rootIdx = List.range' 0 syms.length := by
    rw [List.map_map, ← List.zipIdx_map_snd]
    rfl
  refine ⟨syms.zipIdx.map fun p => .leaf p.2 p.1, ?_, fun t ht => ?_, ?_, ?_⟩
  · rw [hroots, leafQueue_idx]
  · obtain ⟨⟨sym, j⟩, hp, rfl⟩ := List.mem_map.1 ht
    obtain ⟨-, hj, hsym⟩ := List.mem_zipIdx hp
    rw [Nat.zero_add] at hj
    have hget : syms[j - 0]? = some sym := by simp [hsym, hj]
    exact ⟨builtLeaf h sym, by rw [placeLeaves_getElem? h syms 0 ar j (by omega), if_neg (Nat.not_lt_zero j), hget], rfl, rfl⟩
  · have hindices : (syms.zipIdx.map fun p => Tree.leaf p.2 p.1).flatMap Tree.indices = List.range' 0 syms.length := by
      rw [List.flatMap_map, ← List.zipIdx_map_snd, List.map_eq_flatMap]
      rfl
    rw [hindices, List.range_eq_range']
  · have hsyms : (syms.zipIdx.map fun p => Tree.leaf p.2 p.1).flatMap Tree.leafSyms = syms := by
      conv_rhs => rw [← List.zipIdx_map_fst 0 syms, List.map_eq_flatMap]
      rw [List.flatMap_map]
      rfl
    rw [hsyms]

/-- A merge joins the two trees of the extracted entries under the new node. -/
theorem ForestOf.merge {syms : List Byte} {n k : Nat} {x y : QEntry} {q q₁ q₂ : List QEntry} {ar : Arena}
    (h : ForestOf syms q ar k) (hinv : MergeInv n q ar k) (hn : n ≤ 256) (hx : extractMin q = some (x, q₁))
    (hy : extractMin q₁ = some (y, q₂)) :
    ForestOf syms (⟨x.weight + y.weight, k⟩ :: q₂) (ar.put k (mergedNode x y)) (k + 1) := by
  obtain ⟨ts, hroots, hstand, hindices, hsyms⟩ := h
  have hq : q.Perm (x :: y :: q₂) := (extractMin_perm hx).trans ((extractMin_perm hy).cons x)
  have hbalance := (hinv.perm hq).balance
  simp only [List.length_cons] at hbalance
  obtain ⟨l, ts₁, hl, hlroot, hroots⟩ := exists_perm_cons_of_map (hroots.trans (hq.map QEntry.idx))
  obtain ⟨r, ts₂, hr, hrroot, hroots⟩ := exists_perm_cons_of_map hroots
  have hts : ts.Perm (l :: r :: ts₂) := hl.trans (hr.cons l)
  have hxk : x.idx < k := hinv.idx_lt (hq.mem_iff.2 List.mem_cons_self)
  have hyk : y.idx < k := hinv.idx_lt (hq.mem_iff.2 (List.mem_cons_of_mem x List.mem_cons_self))
  have hkept : ∀ t ∈ l :: r :: ts₂, t.StandsIn (ar.put k (mergedNode x y)) := fun t ht =>
    have ht := hts.mem_iff.2 ht
    (hstand t ht).congr fun j hj => arena_put_other ar _
      (List.mem_range.1 (hindices.mem_iff.1 (List.mem_flatMap.2 ⟨t, ht, hj⟩))).ne'
  refine ⟨.node k l r :: ts₂, hroots.cons k, fun t ht => ?_, ?_, ?_⟩
  · rcases List.mem_cons.1 ht with rfl | ht
    · refine ⟨_, arena_put_same ar _ (by omega), rfl, ?_, ?_, hkept l (by simp), hkept r (by simp)⟩
      · rw [mergedNode_left (by omega), hlroot]
      · rw [mergedNode_right (by omega), hrroot]
    · exact hkept t (by simp [ht])
  · have hold := (hts.flatMap_right Tree.indices).symm.trans hindices
    rw [List.flatMap_cons, List.flatMap_cons] at hold
    rw [List.flatMap_cons, Tree.indices, List.cons_append, List.append_assoc, List.range_succ]
    exact (hold.cons k).trans (List.perm_append_singleton k _).symm
  · have hold := (hts.flatMap_right Tree.leafSyms).symm.trans hsyms
    rwa [List.flatMap_cons, List.flatMap_cons, ← List.append_assoc] at hold

/-! ### The merge loop -/

/-- What the merges keep holds at the end, when one entry is left, whose index is the root. -/
theorem mergeLoop_ends {P : List QEntry → Arena → Nat → Prop}
    (hmerge : ∀ {q x q₁ y q₂ ar k}, extractMin q = some (x, q₁) → extractMin q₁ = some (y, q₂) → P q ar k →
      P (⟨x.weight + y.weight, k⟩ :: q₂) (ar.put k (mergedNode x y)) (k + 1))
    {fuel : Nat} {q : List QEntry} {b : Built} (h : P q b.arena b.next) (hne : q ≠ []) (hf : q.length ≤ fuel) :
    ∃ e, (mergeLoop fuel q b).root = e.idx ∧ P [e] (mergeLoop fuel q b).arena (mergeLoop fuel q b).next := by
  induction fuel generalizing q b with
  | zero => exact absurd (List.length_eq_zero_iff.1 (Nat.le_zero.1 hf)) hne
  | succ fuel ih =>
    rw [mergeLoop]
    cases hx : extractMin q with
    | none => exact absurd ((extractMin_eq_none q).1 hx) hne
    | some xq =>
      obtain ⟨x, q₁⟩ := xq
      have hlen := (extractMin_perm hx).length_eq
      cases hy : extractMin q₁ with
      | none =>
        have hlast : q = [x] := List.perm_singleton.1 ((extractMin_eq_none q₁).1 hy ▸ extractMin_perm hx)
        exact ⟨x, by simp [hy], by simpa [hy, ← hlast] using h⟩
      | some yq =>
        obtain ⟨y, q₂⟩ := yq
        have hlen' := (extractMin_perm hy).length_eq
        simp only [List.length_cons] at hlen hlen'
        simp only [hy]
        exact ih (hmerge hx hy h) (List.cons_ne_nil _ _) (by rw [List.length_cons]; omega)

/-- What every merge of a tree over the leaves of `syms` and the old arena `ar₀` keeps. -/
structure BuildInv (h : Hist) (syms : List Byte) (ar₀ : Arena) (q : List QEntry) (ar : Arena) (k : Nat) : Prop where
  merges : MergeInv syms.length q ar k
  forest : ForestOf syms q ar k
  total : (q.map QEntry.weight).sum = (syms.map fun sym => (h.count sym).toNat).sum
  above : ∀ j, k ≤ j → ar[j]? = ar₀[j]?

theorem buildInv_leaves (h : Hist) {syms : List Byte} (ar : Arena) (hn : syms.length ≤ 256) :
    BuildInv h syms ar (leafQueue h syms 0) (placeLeaves h syms 0 ar) syms.length where
  merges := mergeInv_leaves h ar hn
  forest := forestOf_leaves h ar hn
  total := by rw [leafQueue_weights]
  above j hj := by
    rw [placeLeaves_getElem? h syms 0 ar j (by omega), if_neg (Nat.not_lt_zero j), Nat.sub_zero, List.getElem?_eq_none hj]

theorem BuildInv.merge {h : Hist} {syms : List Byte} {ar₀ ar : Arena} {k : Nat} {x y : QEntry} {q q₁ q₂ : List QEntry}
    (hn : syms.length ≤ 256) (hx : extractMin q = some (x, q₁)) (hy : extractMin q₁ = some (y, q₂))
    (hinv : BuildInv h syms ar₀ q ar k) :
    BuildInv h syms ar₀ (⟨x.weight + y.weight, k⟩ :: q₂) (ar.put k (mergedNode x y)) (k + 1) where
  merges := hinv.merges.merge hn hx hy
  forest := hinv.forest.merge hinv.merges hn hx hy
  total := by
    have hq := ((extractMin_perm hx).trans ((extractMin_perm hy).cons x)).map QEntry.weight
    rw [← hinv.total, hq.sum_eq]
    simp [Nat.add_assoc]
  above j hj := (arena_put_other ar _ (Nat.ne_of_lt hj)).trans (hinv.above j (Nat.le_of_succ_le hj))

/-- The entry made last is in the priority structure: only later nodes could take it. -/
theorem MergeInv.last_mem {n k : Nat} {q : List QEntry} {ar : Arena} (h : MergeInv n q ar k) (hk : 0 < k) :
    k - 1 ∈ q.map QEntry.idx := by
  refine (h.mem_iff _).1 ⟨Nat.sub_lt hk Nat.one_pos, fun j hnj hj nd hnd => ?_⟩
  have := (h.joins j hnj hj).children_lt hnd
  omega

/-- `t` is the tree built over the leaves of `syms` and the old arena `ar₀`: full, of all the entries made, with the sum of the leaves'
counters as its weight. -/
structure BuiltTree (h : Hist) (syms : List Byte) (ar₀ : Arena) (b : Built) (t : Tree) : Prop where
  stands : t.StandsIn b.arena
  rootIdx : t.rootIdx = 2 * syms.length - 2
  indices : t.indices.Perm (List.range (2 * syms.length - 1))
  leaves : t.leafSyms.Perm syms
  root : b.root = 2 * syms.length - 2
  next : b.next = 2 * syms.length - 1
  weight : weightAt b.arena (2 * syms.length - 2) = (syms.map fun sym => (h.count sym).toNat).sum
  above : ∀ j, 2 * syms.length - 1 ≤ j → b.arena[j]? = ar₀[j]?

theorem buildTree_tree (h : Hist) {syms : List Byte} (ar : Arena) (hn : syms.length ≤ 256) (hne : syms ≠ []) :
    ∃ t, BuiltTree h syms ar (buildTree h syms ar) t := by
  have hpos := List.length_pos_iff.2 hne
  have hqne : leafQueue h syms 0 ≠ [] := List.length_pos_iff.1 (by rwa [leafQueue_length])
  obtain ⟨e, hroot, hinv⟩ := mergeLoop_ends (b := ⟨_, 0, _⟩) (fun hx hy => BuildInv.merge hn hx hy) (buildInv_leaves h ar hn) hqne
    (leafQueue_length h syms 0).le
  obtain ⟨hmerges, ⟨ts, hts, hstand, hindices, hsyms⟩, htotal, habove⟩ := hinv
  rw [← buildTree] at *
  have hbalance := hmerges.balance
  rw [List.length_singleton] at hbalance
  have hlast : (buildTree h syms ar).next - 1 = e.idx := by simpa using hmerges.last_mem (by omega)
  have hidx : e.idx = 2 * syms.length - 2 := by omega
  have hnext : (buildTree h syms ar).next = 2 * syms.length - 1 := by omega
  rw [hnext] at hindices habove
  obtain ⟨t, ts', hperm, hrootIdx, hnil⟩ := exists_perm_cons_of_map hts
  obtain rfl : ts' = [] := List.map_eq_nil_iff.1 hnil.eq_nil
  obtain rfl : ts = [t] := List.perm_singleton.1 hperm
  rw [List.flatMap_singleton] at hindices hsyms
  refine ⟨t, hstand t List.mem_cons_self, hrootIdx.trans hidx, hindices, hsyms, hroot.trans hidx, hnext, ?_, habove⟩
  rw [← hidx, hmerges.weight e List.mem_cons_self, ← htotal]
  simp

/-! ### TREE_BUILD -/

theorem exec_treeBuild_of_none {s : State} (h : presentSymbols s.hist = []) :
    exec .treeBuild s = .next (raise .emptyInput 0x00 0 s) := by
  simp [exec, execTreeBuild, h, fail]

theorem exec_treeBuild_of_some {s : State} (h : presentSymbols s.hist ≠ []) :
    exec .treeBuild s = .next (complete (installTree
      (2 * (presentSymbols s.hist).length - 2) (2 * (presentSymbols s.hist).length - 1) (presentSymbols s.hist).length
      (decide ((presentSymbols s.hist).length = 1))
      { s with arena := (buildTree s.hist (presentSymbols s.hist) s.arena).arena })) := by
  obtain ⟨t, hbuilt⟩ := buildTree_tree s.hist s.arena (presentSymbols_length_le s.hist) h
  rw [exec, execTreeBuild, if_neg h]
  dsimp only
  rw [hbuilt.root, hbuilt.next]
  rfl

/-- Settles O35: an all-zero histogram has no symbol. -/
theorem treeBuildOfNothingIsEmptyInput : Obligations.TreeBuildOfNothingIsEmptyInput := by
  intro s hzero
  exact exec_treeBuild_of_none (List.eq_nil_iff_forall_not_mem.2 fun b hb => (mem_presentSymbols s.hist b).1 hb (hzero b))

/-- Settles O36: n leaves take n - 1 merges, the last of which makes the root. -/
theorem treeBuildLeavesAndRegisters : Obligations.TreeBuildLeavesAndRegisters := by
  intro s syms hne hasc hmem
  have hlen := presentSymbols_length_le s.hist
  obtain rfl := presentSymbols_eq hasc hmem
  obtain ⟨t, hbuilt⟩ := buildTree_tree s.hist s.arena hlen hne
  exact ⟨_, exec_treeBuild_of_some hne, rfl, fun j hj => buildTree_leaf s.hist s.arena hlen hj, hbuilt.above⟩

/-- Terms of value 0 add nothing to a sum. -/
theorem sum_map_filter_ne_zero {α : Type} (f : α → Nat) (p : α → Bool) (xs : List α) (hp : ∀ x, p x = false → f x = 0) :
    ((xs.filter p).map f).sum = (xs.map f).sum := by
  induction xs with
  | nil => rfl
  | cons x xs ih => cases hx : p x <;> simp [hx, ih, hp]

theorem sum_presentSymbols (h : Hist) :
    ((presentSymbols h).map fun sym => (h.count sym).toNat).sum =
      ((List.range 256).map fun b => (h.count (BitVec.ofNat 8 b)).toNat).sum := by
  rw [presentSymbols, sum_map_filter_ne_zero _ _ _ fun sym hsym => by
    rw [show h.count sym = 0 by simpa using hsym]; rfl, List.map_map]
  rfl

/-- The state TREE_BUILD completes holds the built tree. -/
theorem treeBuild_holdsTree {s : State} (h : presentSymbols s.hist ≠ []) :
    ∃ t tr, exec .treeBuild s = .next t ∧ HoldsTree t tr ∧ tr.leafSyms.Perm (presentSymbols s.hist) ∧
      weightAt t.arena t.root.toNat = ((presentSymbols s.hist).map fun sym => (s.hist.count sym).toNat).sum := by
  have hlen := presentSymbols_length_le s.hist
  obtain ⟨tr, hbuilt⟩ := buildTree_tree s.hist s.arena hlen h
  have hpos := List.length_pos_iff.2 h
  have hleaves : tr.leafCount = (presentSymbols s.hist).length := tr.leafSyms_length ▸ hbuilt.leaves.length_eq
  have hsize := tr.size_succ
  have hrootNat : (BitVec.ofNat 9 (2 * (presentSymbols s.hist).length - 2)).toNat = 2 * (presentSymbols s.hist).length - 2 :=
    Nat.mod_eq_of_lt (by omega)
  refine ⟨_, tr, exec_treeBuild_of_some h, ⟨?_, ?_, ?_, ?_⟩, hbuilt.leaves, ?_⟩
  · exact hbuilt.stands.readTree_eq (hrootNat.trans hbuilt.rootIdx.symm) (by omega)
  · rw [complete_nodeCount, installTree_nodeCount, BitVec.toNat_ofNat, Nat.mod_eq_of_lt (by omega)]
    exact hbuilt.indices
  · rw [complete_symCount, installTree_symCount, BitVec.toNat_ofNat, Nat.mod_eq_of_lt (by omega), hleaves]
  · rw [complete_status, installTree_status, Bool.eq_iff_iff, tr.isLeaf_iff, hleaves, decide_eq_true_iff]
  · rw [complete_root, installTree_root, hrootNat]
    exact hbuilt.weight

/-- Settles O38: the built tree's leaves are the present symbols, and the counters of the others are 0. -/
theorem treeBuildMakesFullTree : Obligations.TreeBuildMakesFullTree := by
  rintro s ⟨b, hb⟩
  have hne : presentSymbols s.hist ≠ [] := List.ne_nil_of_mem ((mem_presentSymbols s.hist b).2 hb)
  obtain ⟨t, tr, hexec, htree, hsyms, hweight⟩ := treeBuild_holdsTree hne
  exact ⟨t, tr, hexec, htree, tr.leafCodes_syms [] ▸ hsyms, hweight.trans (sum_presentSymbols s.hist)⟩

end Sys2Proof.Machine
end

section
/-! What performing a command can do, said once, and what every command therefore leaves alone (60_exceptions.md R259, R260, R262). -/

namespace Sys2Proof.Machine

/-! ### The two ends of a command -/

/-- The stores a failing command can make UNSPECIFIED, and the flags it then clears (60_exceptions.md R262). -/
inductive StoresLost (s : State) : State → Prop
  | nothing : StoresLost s s
  | hist : StoresLost s s.drawHist
  | lut (hv : s.status.treeValid = true) : StoresLost s (setCodeValid false s.drawLut)
  | tree : StoresLost s (destroyTree s)
  | dec : StoresLost s s.drawDec

/-- What a command can have written when it completes. -/
inductive Updated (s : State) : State → Prop
  | nothing : Updated s s
  | counted (h : Hist) : Updated s { s with hist := h }
  | built {root count leaves : Nat} {single : Bool} {ar : Arena} {tr : Tree}
      (htree : HoldsTree (installTree root count leaves single { s with arena := ar }) tr) :
      Updated s (installTree root count leaves single { s with arena := ar })
  | coded {tr : Tree} {l : Lut} (hv : s.status.treeValid = true) (ht : currentTree s = some tr) (hl : codeTable tr = .ok l) :
      Updated s (setCodeValid true { s with lut := l })
  | emitted (body : Bits) (hroom : s.outBitptr.toNat + (8 + body.length + padOf body.length) ≤ 8 * s.caps.outCap) :
      Updated s { s with
        outMem := s.outMem.setBits .out s.outBitptr.toNat (frameSegment body)
        outBitptr := BitVec.ofNat 32 (s.outBitptr.toNat + (8 + body.length + padOf body.length))
        segPad := BitVec.ofNat 8 (padOf body.length)
        segBits := BitVec.ofNat 32 (8 + body.length + padOf body.length) }
  | rebuilt {root count leaves : Nat} {single : Bool} {ar : Arena} {tr : Tree} {p : Nat} (bitptr segBits : Word) (hp : p < 8)
      (htree : HoldsTree (installTree root count leaves single { s with arena := ar }) tr) :
      Updated s { installTree root count leaves single { s with arena := ar } with
        bsBitptr := bitptr, segPad := BitVec.ofNat 8 p, segBits := segBits }
  | decoded {syms : List Byte} {p : Nat} (segBits : Word) (hp : p < 8) (hroom : syms.length ≤ s.caps.decCap) :
      Updated s { s with
        decMem := s.decMem.writeBytes 0 syms
        decLen := BitVec.ofNat 32 syms.length
        bsBitptr := s.bsLen
        segPad := BitVec.ofNat 8 p
        segBits := segBits }

/-- A command ends in an error completion, with some stores lost, or completes what it has written. -/
inductive Performed (s : State) : State → Prop
  | failed {s' : State} (k : ErrKind) (sub : Byte) (info : Nat) (h : StoresLost s s') : Performed s (raise k sub info s')
  | completed {s' : State} (h : Updated s s') : Performed s (complete s')

theorem Performed.of_fail {s s' t : State} {k : ErrKind} {sub : Byte} {info : Nat} (h : fail k sub info s' = .next t)
    (hs : StoresLost s s') : Performed s t := by
  obtain rfl := Host.Outcome.next.inj h
  exact .failed k sub info hs

theorem Performed.of_succeed {s s' t : State} (h : succeed s' = .next t) (hs : Updated s s') : Performed s t := by
  obtain rfl := Host.Outcome.next.inj h
  exact .completed hs

/-! ### Each command -/

theorem emitSegment_performed {s t : State} {body : Bits} (h : emitSegment body s = .next t) : Performed s t := by
  rcases emitSegment_cases body s with ⟨-, he⟩ | ⟨hroom, he⟩ <;> obtain rfl := Host.Outcome.next.inj (he.symm.trans h)
  · exact .failed _ _ _ .nothing
  · exact .completed (.emitted body hroom)

theorem execHistAccum_performed {s t : State} (h : execHistAccum s = .next t) : Performed s t := by
  unfold execHistAccum at h
  split at h
  · exact .of_fail h .nothing
  · split at h
    · exact .of_fail h .hist
    · exact .of_succeed h (.counted _)

theorem execTreeBuild_performed {s t : State} (h : execTreeBuild s = .next t) : Performed s t := by
  by_cases hne : presentSymbols s.hist = []
  · obtain rfl := Host.Outcome.next.inj ((exec_treeBuild_of_none hne).symm.trans h)
    exact .failed _ _ _ .nothing
  · obtain ⟨t', tr, ht', htree, -⟩ := treeBuild_holdsTree hne
    obtain rfl := Host.Outcome.next.inj (ht'.symm.trans (exec_treeBuild_of_some hne))
    obtain rfl := Host.Outcome.next.inj ((exec_treeBuild_of_some hne).symm.trans h)
    exact .completed (.built (tr := tr) htree)

theorem execCodeGen_performed {s t : State} (h : execCodeGen s = .next t) : Performed s t := by
  unfold execCodeGen at h
  split at h
  · exact .of_fail h .nothing
  next hv =>
    rw [Bool.not_eq_true', Bool.not_eq_false] at hv
    split at h
    · cases h
    next tr ht =>
      split at h
      · exact .of_fail h (.lut hv)
      next l hl => exact .of_succeed h (.coded hv ht hl)

theorem execTreeSer_performed {s t : State} (h : execTreeSer s = .next t) : Performed s t := by
  unfold execTreeSer at h
  split at h
  · exact .of_fail h .nothing
  · split at h
    · cases h
    · exact emitSegment_performed h

theorem execPayEnc_performed {s t : State} (h : execPayEnc s = .next t) : Performed s t := by
  unfold execPayEnc at h
  split at h
  · exact .of_fail h .nothing
  · split at h
    · exact .of_fail h .nothing
    · split at h
      · exact .of_fail h .nothing
      · exact emitSegment_performed h

theorem execTreeDes_performed {s t : State} (h : execTreeDes s = .next t) : Performed s t := by
  rcases exec_treeDes_cases s with ⟨tr, p, padding, hsize, hseg⟩ | ⟨k, sub, info, -, he⟩
  · obtain ⟨ar, he, hplaced, -⟩ := treeDes_of_segment hsize hseg
    obtain rfl := Host.Outcome.next.inj (he.symm.trans h)
    obtain ⟨-, hp, -⟩ := hseg
    exact .completed (.rebuilt _ _ hp (holdsTree_installTree (s := { s with arena := ar }) hplaced hsize))
  · obtain rfl := Host.Outcome.next.inj (he.symm.trans h)
    exact .failed _ _ _ .tree

theorem emit_eq_finished {sym : Byte} {e : WalkEnd} {syms : List Byte} {cur : BitVec 9} (h : e.emit sym = .finished syms cur) :
    ∃ syms', e = .finished syms' cur ∧ syms = sym :: syms' := by
  cases e with
  | finished syms' cur' =>
    obtain ⟨rfl, rfl⟩ := WalkEnd.finished.inj h
    exact ⟨syms', rfl, rfl⟩
  | overflow => cases h
  | noNode => cases h

/-- The walk emits no more symbols than DEC has bytes. -/
theorem walk_finished_length {ar : Arena} {root cur cur' : BitVec 9} {decCap k n : Nat} {bs : Bits} {syms : List Byte}
    (hn : n ≤ decCap) (h : walk ar root decCap bs k cur n = .finished syms cur') : n + syms.length ≤ decCap := by
  induction bs generalizing k cur n syms with
  | nil =>
    obtain ⟨rfl, -⟩ := WalkEnd.finished.inj h
    exact hn
  | cons b bs ih =>
    simp only [walk] at h
    split at h
    · cases h
    · split at h
      · cases h
      · split at h
        · split at h
          · cases h
          next hroom =>
            obtain ⟨syms', hrest, rfl⟩ := emit_eq_finished h
            have := ih (by omega) hrest
            rw [List.length_cons]
            omega
        · exact ih hn h

theorem readPadField_lt {s : State} {p : Nat} (h : readPadField s = .ok p) : p < 8 := by
  rcases readPadField_cases s with ⟨-, hr⟩ | ⟨-, -, hr⟩ | ⟨-, hp, hr⟩
  · cases hr.symm.trans h
  · cases hr.symm.trans h
  · obtain rfl := Except.ok.inj (hr.symm.trans h)
    omega

theorem decodeSingleLeaf_performed {s t : State} {sym : Byte} {p l : Nat} (hp : p < 8)
    (h : decodeSingleLeaf sym p l s = .next t) : Performed s t := by
  unfold decodeSingleLeaf at h
  split_ifs at h with hbits hfull
  · exact .of_fail h .dec
  · exact .of_fail h .dec
  · exact .of_succeed h (.decoded _ hp (by rw [List.length_replicate]; omega))

theorem decodeWalk_performed {s t : State} {p l : Nat} (hp : p < 8) (h : decodeWalk p l s = .next t) : Performed s t := by
  simp only [decodeWalk] at h
  split at h
  · cases h
  · exact .of_fail h .dec
  next syms cur hwalk =>
    have hroom := walk_finished_length (Nat.zero_le _) hwalk
    rw [Nat.zero_add] at hroom
    split at h
    · exact .of_fail h .dec
    · exact .of_succeed h (.decoded _ hp hroom)

theorem execPayDec_performed {s t : State} (h : execPayDec s = .next t) : Performed s t := by
  unfold execPayDec at h
  split at h
  · exact .of_fail h .nothing
  · split at h
    · exact .of_fail h .nothing
    · split at h
      · exact .of_fail h .dec
      next p hread =>
        have hp := readPadField_lt hread
        dsimp only at h
        split at h
        · exact .of_fail h .dec
        · split at h
          · exact .of_fail h .dec
          · split at h
            · cases h
            · split at h
              · exact decodeSingleLeaf_performed hp h
              · exact decodeWalk_performed hp h

/-- Everything a command can do. -/
theorem exec_performed {i : Instr} {s t : State} (hi : i.isCommand = true) (h : exec i s = .next t) : Performed s t := by
  cases i with
  | nop => exact .of_succeed h .nothing
  | histClear => exact .of_succeed h (.counted _)
  | histAccum => exact execHistAccum_performed h
  | treeBuild => exact execTreeBuild_performed h
  | codeGen => exact execCodeGen_performed h
  | treeSer => exact execTreeSer_performed h
  | payEnc => exact execPayEnc_performed h
  | treeDes => exact execTreeDes_performed h
  | payDec => exact execPayDec_performed h
  | srst => cases hi

/-! ### What every command leaves alone -/

/-- The capacities, what the host writes for the commands to read, and the model's own fields of the host are as they were. -/
def HostSideKept (s t : State) : Prop :=
  t.caps = s.caps ∧ t.cmd = s.cmd ∧ t.irqEn = s.irqEn ∧ t.inLen = s.inLen ∧ t.bsLen = s.bsLen ∧
    t.decRepeat = s.decRepeat ∧ t.inMem = s.inMem ∧ t.bsMem = s.bsMem ∧ t.status.ovr = s.status.ovr ∧
    t.host = s.host ∧ t.sched = s.sched ∧ t.resp = s.resp

theorem StoresLost.keepsHostSide {s t : State} (h : StoresLost s t) : HostSideKept s t := by
  cases h <;> exact ⟨rfl, rfl, rfl, rfl, rfl, rfl, rfl, rfl, rfl, rfl, rfl, rfl⟩

theorem Updated.keepsHostSide {s t : State} (h : Updated s t) : HostSideKept s t := by
  cases h <;> exact ⟨rfl, rfl, rfl, rfl, rfl, rfl, rfl, rfl, rfl, rfl, rfl, rfl⟩

theorem Performed.keepsHostSide {s t : State} (h : Performed s t) : HostSideKept s t := by
  cases h with
  | failed k sub info h => exact h.keepsHostSide
  | completed h => exact h.keepsHostSide

theorem Updated.irqStatus_eq {s t : State} (h : Updated s t) : t.irqStatus = s.irqStatus := by cases h <;> rfl

theorem Performed.keeps_errEvt {s t : State} (h : Performed s t) (he : s.irqStatus.errEvt = true) : t.irqStatus.errEvt = true := by
  cases h with
  | failed => rfl
  | completed h => rwa [complete_irqStatus, h.irqStatus_eq]

/-- Settles O14: both ends show the command done, and no store a command writes or loses is the host's. -/
theorem commandsLeaveHostRegisters : Obligations.CommandsLeaveHostRegisters := by
  intro i s t hi h
  obtain ⟨hbusy, hdone, hevt, hpending⟩ := (exec_command_ends hi h).shows_done
  have hperformed := exec_performed hi h
  exact ⟨hbusy, hdone, hevt, hpending, hperformed.keeps_errEvt, hperformed.keepsHostSide⟩

/-! ### What a failed command leaves alone (60_exceptions.md R262) -/

theorem Updated.err_eq {s t : State} (h : Updated s t) : t.status.err = s.status.err := by cases h <;> rfl

/-- Settles O15: a command that completes records no error, and one that fails loses stores and flags only. -/
theorem failedCommandsKeepRegisters : Obligations.FailedCommandsKeepRegisters := by
  intro i s t hi hno h herr
  cases exec_performed hi h with
  | failed k sub info hlost =>
    cases hlost <;> exact ⟨rfl, rfl, rfl, rfl, rfl, rfl, rfl, rfl, rfl, rfl, rfl, rfl, rfl, rfl, rfl, rfl, rfl⟩
  | completed hupdated =>
    have hnone : (complete _).status.err = false := hupdated.err_eq.trans hno
    cases hnone.symm.trans herr

end Sys2Proof.Machine
end

section
/-! The steps of the two agents, completion and reset (44_control.md R231 to R241, 60_exceptions.md R260, 70_reset_and_hazards.md R290, R303). -/

namespace Sys2Proof.Machine

/-! ### The core's step (44_control.md R233) -/

theorem coreStep_decoded {s : State} {w : Word} {i : Instr} (hp : s.pending = some w) (hd : decode .cmd w = .ok i) :
    coreStep s = exec i s := by
  simp [coreStep, hp, hd]

theorem coreStep_none {s : State} (hp : s.pending = none) : coreStep s = .next s := by simp [coreStep, hp]

/-- Settles O5: after the turn is passed the core performs the pending command. -/
theorem stepPerformsPendingCommand : Obligations.StepPerformsPendingCommand := by
  refine ⟨fun s w i hturn hp hd => ?_, fun s hturn hp => ?_⟩
  · rw [step_eq_coreStep hturn, coreStep_decoded (s := passTurn s) hp hd]
  · rw [step_eq_coreStep hturn, coreStep_none (s := passTurn s) hp]

/-! ### The host's step (00_scope.md R13) -/

theorem step_eq_hostStep {s : State} (h : turnOf s = .host) : step s = hostStep (passTurn s) := by
  rcases step_cases s with ⟨-, hstep⟩ | ⟨hcore, -⟩
  · exact hstep
  · cases h.symm.trans hcore

theorem hostStep_nil {s : State} (h : s.host = []) : hostStep s = .next s := by simp [hostStep, h]

theorem hostStep_access {s : State} {r : BusReq} {rest : List HostOp} (h : s.host = .access r :: rest) :
    hostStep s = busAccess r { s with host := rest } := by
  simp [hostStep, h]

theorem hostStep_wait_busy {s : State} {rest : List HostOp} (h : s.host = .waitIdle :: rest) (hb : s.status.busy = true) :
    hostStep s = .next (hostRead (.reg .status) s) := by
  simp only [hostStep, h, hb, if_true]

theorem hostStep_wait_idle {s : State} {rest : List HostOp} (h : s.host = .waitIdle :: rest) (hb : s.status.busy = false) :
    hostStep s = .next (hostRead (.reg .status) { s with host := rest }) := by
  simp [hostStep, h, hb]

theorem hostStep_stopIfErr {s : State} {n : Nat} {rest : List HostOp} (h : s.host = .stopIfErr n :: rest) :
    hostStep s = .next (hostRead (.reg .status) { s with host := if s.status.err then rest.drop n else rest }) := by
  simp [hostStep, h]

theorem hostStep_rstN {s : State} {rest : List HostOp} (h : s.host = .rstN :: rest) :
    hostStep s = .next (resetEffect { s with host := rest }) := by
  simp [hostStep, h]

/-- Settles O6: the step is the access, and CTRL at 0x000008 is decoded by bit 0. -/
theorem stepRunsHostAccess : Obligations.StepRunsHostAccess := by
  intro s r rest hturn hhost
  have hstep : step s = busAccess r { passTurn s with host := rest } :=
    (step_eq_hostStep hturn).trans (hostStep_access (s := passTurn s) hhost)
  refine ⟨hstep, fun hw hs ha => ?_⟩
  have ht : target s.caps r = some (.reg .ctrl) := (target_of_addr hs ha).trans (decodeAddr_registerOffset _ .ctrl)
  rw [hstep]
  refine ⟨fun hbit i hi => ?_, fun hbit => ?_⟩
  · rcases decodeCtrl_cases r.wdata with ⟨-, hok⟩ | ⟨hno, -⟩
    · obtain rfl := Except.ok.inj (hok.symm.trans hi)
      obtain ⟨v, hv⟩ := writeLeaves_of_hostWrite (s := { passTurn s with host := rest }) hw ht (hostWrite_ctrl_of_bit hbit _)
      exact ⟨_, v, rfl, hv⟩
    · cases hbit.symm.trans hno
  · exact writeLeaves_of_hostWrite (s := { passTurn s with host := rest }) hw ht (hostWrite_ctrl_of_no_bit hbit _)

theorem passTurn_of_nil {s : State} (h : s.sched = []) : passTurn s = s := by
  cases s
  simp_all [passTurn]

/-- Settles O7: it is the host's turn, and it has no operation left. -/
theorem idleMachineStaysAsItIs : Obligations.IdleMachineStaysAsItIs := by
  intro s hhost hsched hp
  have hturn : turnOf s = .host := by simp [turnOf, hsched, hp]
  rw [step_eq_hostStep hturn, passTurn_of_nil hsched, hostStep_nil hhost]

/-! ### What a step of the host does to the block -/

/-- The states differ in the host's operations, its last response and the count of draws at most. -/
def SameBlock (s t : State) : Prop := t = { s with host := t.host, resp := t.resp, draws := t.draws }

theorem hostRead_sameBlock (l : Loc) (s : State) : SameBlock s (hostRead l s) := by
  rcases hostRead_cases l s with ⟨-, -, h⟩ | ⟨-, h⟩ <;> rw [h] <;> rfl

/-- Everything a bus access can do to the block: nothing, a write of a mapped word, or a soft reset. -/
theorem busAccess_next {r : BusReq} {s t : State} (h : busAccess r s = .next t) :
    SameBlock s t ∨
    (∃ l, target s.caps r = some l ∧ SameBlock (poke l r.wdata s) t) ∨
    (target s.caps r = some (.reg .ctrl) ∧ r.wdata.getLsbD 0 = true ∧ SameBlock (resetEffect s) t) := by
  rcases busAccess_cases r s with ⟨-, hb⟩ | ⟨l, ht, -, hb⟩ | ⟨l, -, -, hb⟩
  · obtain rfl := Host.Outcome.next.inj (hb.symm.trans h)
    exact .inl rfl
  · rcases hostWrite_cases l r.wdata s with ⟨rfl, hbit, hw⟩ | ⟨-, -, hw⟩ | ⟨-, hw⟩ <;>
      obtain rfl := Host.Outcome.next.inj ((hb.trans hw).symm.trans h)
    · exact .inr (.inr ⟨ht, hbit, rfl⟩)
    · exact .inl rfl
    · exact .inr (.inl ⟨l, ht, rfl⟩)
  · obtain rfl := Host.Outcome.next.inj (hb.symm.trans h)
    exact .inl (hostRead_sameBlock l s)

/-- Everything a step of the host can do to the block. -/
theorem hostStep_next {s t : State} (h : hostStep s = .next t) :
    ∃ s₀, SameBlock s s₀ ∧
      (SameBlock s₀ t ∨ (∃ r l, target s₀.caps r = some l ∧ SameBlock (poke l r.wdata s₀) t) ∨
        SameBlock (resetEffect s₀) t) := by
  cases hhost : s.host with
  | nil =>
    obtain rfl := Host.Outcome.next.inj ((hostStep_nil hhost).symm.trans h)
    exact ⟨s, rfl, .inl rfl⟩
  | cons op rest =>
    cases op with
    | access r =>
      refine ⟨{ s with host := rest }, rfl, ?_⟩
      rcases busAccess_next ((hostStep_access hhost).symm.trans h) with hsame | ⟨l, ht, hpoke⟩ | ⟨-, -, hreset⟩
      · exact .inl hsame
      · exact .inr (.inl ⟨r, l, ht, hpoke⟩)
      · exact .inr (.inr hreset)
    | waitIdle =>
      cases hb : s.status.busy with
      | true =>
        obtain rfl := Host.Outcome.next.inj ((hostStep_wait_busy hhost hb).symm.trans h)
        exact ⟨s, rfl, .inl (hostRead_sameBlock _ s)⟩
      | false =>
        obtain rfl := Host.Outcome.next.inj ((hostStep_wait_idle hhost hb).symm.trans h)
        exact ⟨{ s with host := rest }, rfl, .inl (hostRead_sameBlock _ _)⟩
    | stopIfErr n =>
      obtain rfl := Host.Outcome.next.inj ((hostStep_stopIfErr hhost).symm.trans h)
      exact ⟨{ s with host := if s.status.err then rest.drop n else rest }, rfl, .inl (hostRead_sameBlock _ _)⟩
    | rstN =>
      obtain rfl := Host.Outcome.next.inj ((hostStep_rstN hhost).symm.trans h)
      exact ⟨{ s with host := rest }, rfl, .inr (.inr rfl)⟩

theorem SameBlock.sched_eq {s t : State} (h : SameBlock s t) : t.sched = s.sched := by rw [h]

theorem pokeIdle_sched (l : Loc) (w : Word) (s : State) : (pokeIdle l w s).sched = s.sched := by
  cases l with
  | reg r => cases r <;> rfl
  | mem id => cases id <;> rfl
  | hist | codeLen | codeBits | node => rfl

/-- Any write is taken as idle, or dropped. -/
theorem poke_cases (l : Loc) (w : Word) (s : State) :
    (poke l w s = pokeIdle l w s ∧ (s.status.busy = false ∨ writableWhileBusy l = true)) ∨ poke l w s = dropWrite s := by
  unfold poke
  cases hb : s.status.busy with
  | false => exact .inl ⟨rfl, .inl rfl⟩
  | true =>
    cases hl : writableWhileBusy l with
    | true => exact .inl ⟨pokeBusy_of_writable hl w s, .inr rfl⟩
    | false => exact .inr (pokeBusy_of_not_writable hl w s)

theorem poke_sched (l : Loc) (w : Word) (s : State) : (poke l w s).sched = s.sched := by
  rcases poke_cases l w s with ⟨h, -⟩ | h <;> rw [h]
  · exact pokeIdle_sched l w s
  · rfl

theorem hostStep_sched {s t : State} (h : hostStep s = .next t) : t.sched = s.sched := by
  obtain ⟨s₀, hs₀, hsame | ⟨r, l, -, hpoke⟩ | hreset⟩ := hostStep_next h
  · exact hsame.sched_eq.trans hs₀.sched_eq
  · exact hpoke.sched_eq.trans ((poke_sched ..).trans hs₀.sched_eq)
  · exact hreset.sched_eq.trans hs₀.sched_eq

/-! ### A command answers, or meets an arena that is no tree (log 8) -/

/-- No tree can be walked from ROOT, the only cause of a fault. -/
def NoTreeAtRoot (s : State) : Prop :=
  currentTree s = none ∨ s.arena.node? s.root = none ∨
    ∃ rt bs, s.arena.node? s.root = some rt ∧ rt.leaf = false ∧ walk s.arena s.root s.caps.decCap bs 0 s.root 0 = .noNode

/-- The command answers a next state, or faults where TREE_VALID is 1 and no tree stands at ROOT. -/
def Answers (s : State) (r : Result) : Prop :=
  (∃ t, r = .next t) ∨ (s.status.treeValid = true ∧ NoTreeAtRoot s ∧ ∃ f, r = .fault f)

theorem emitSegment_goes (body : Bits) (s : State) : ∃ t, emitSegment body s = .next t := by
  rcases emitSegment_cases body s with ⟨-, h⟩ | ⟨-, h⟩ <;> exact ⟨_, h⟩

theorem execHistAccum_goes (s : State) : ∃ t, execHistAccum s = .next t := by
  unfold execHistAccum
  split
  · exact ⟨_, rfl⟩
  · split <;> exact ⟨_, rfl⟩

theorem execPayEnc_goes (s : State) : ∃ t, execPayEnc s = .next t := by
  unfold execPayEnc
  split
  · exact ⟨_, rfl⟩
  · split
    · exact ⟨_, rfl⟩
    · split
      · exact ⟨_, rfl⟩
      · exact emitSegment_goes _ s

theorem execTreeBuild_goes (s : State) : ∃ t, execTreeBuild s = .next t := by
  simp only [execTreeBuild]
  split <;> exact ⟨_, rfl⟩

theorem execCodeGen_answers (s : State) : Answers s (execCodeGen s) := by
  unfold execCodeGen
  split
  · exact .inl ⟨_, rfl⟩
  next hv =>
    split
    next hnone => exact .inr ⟨by simpa using hv, .inl hnone, _, rfl⟩
    · split <;> exact .inl ⟨_, rfl⟩

theorem execTreeSer_answers (s : State) : Answers s (execTreeSer s) := by
  unfold execTreeSer
  split
  · exact .inl ⟨_, rfl⟩
  next hv =>
    split
    next hnone => exact .inr ⟨by simpa using hv, .inl hnone, _, rfl⟩
    · exact .inl (emitSegment_goes _ s)

theorem decodeSingleLeaf_goes (sym : Byte) (p l : Nat) (s : State) : ∃ t, decodeSingleLeaf sym p l s = .next t := by
  unfold decodeSingleLeaf
  split
  · exact ⟨_, rfl⟩
  · split <;> exact ⟨_, rfl⟩

theorem decodeWalk_answers {s : State} {rt : Node} (hv : s.status.treeValid = true) (hrt : s.arena.node? s.root = some rt)
    (hint : rt.leaf = false) (p l : Nat) : Answers s (decodeWalk p l s) := by
  simp only [decodeWalk]
  split
  next hwalk => exact .inr ⟨hv, .inr (.inr ⟨rt, _, hrt, hint, hwalk⟩), _, rfl⟩
  · exact .inl ⟨_, rfl⟩
  · split <;> exact .inl ⟨_, rfl⟩

theorem execPayDec_answers (s : State) : Answers s (execPayDec s) := by
  unfold execPayDec
  split
  · exact .inl ⟨_, rfl⟩
  · split
    · exact .inl ⟨_, rfl⟩
    next hv =>
      have hv : s.status.treeValid = true := by simpa using hv
      split
      · exact .inl ⟨_, rfl⟩
      · dsimp only
        split
        · exact .inl ⟨_, rfl⟩
        · split
          · exact .inl ⟨_, rfl⟩
          · split
            next hnone => exact .inr ⟨hv, .inr (.inl hnone), _, rfl⟩
            next rt hrt =>
              split
              · exact .inl (decodeSingleLeaf_goes _ _ _ s)
              next hint => exact decodeWalk_answers hv hrt (by simpa using hint) _ _

theorem exec_answers (i : Instr) (s : State) : Answers s (exec i s) := by
  cases i with
  | nop | histClear | srst => exact .inl ⟨_, rfl⟩
  | histAccum => exact .inl (execHistAccum_goes s)
  | treeBuild => exact .inl (execTreeBuild_goes s)
  | codeGen => exact execCodeGen_answers s
  | treeSer => exact execTreeSer_answers s
  | payEnc => exact .inl (execPayEnc_goes s)
  | treeDes => exact .inl (exec_treeDes_goes s)
  | payDec => exact execPayDec_answers s

theorem coreStep_answers (s : State) : Answers s (coreStep s) := by
  rcases coreStep_cases s with ⟨-, h⟩ | ⟨w, i, -, -, h⟩ | ⟨w, e, -, -, h⟩ <;> rw [h]
  · exact .inl ⟨_, rfl⟩
  · exact exec_answers i s
  · exact .inl ⟨_, rfl⟩

/-- The core's step takes the pending command away. -/
theorem coreStep_pending {s t : State} (h : coreStep s = .next t) : t.pending = none := by
  rcases coreStep_cases s with ⟨hp, he⟩ | ⟨w, i, -, hd, he⟩ | ⟨w, e, -, -, he⟩
  · obtain rfl := Host.Outcome.next.inj (he.symm.trans h)
    exact hp
  · obtain ⟨-, -, -, hp⟩ := (exec_command_ends (decodeCmd_isCommand hd) (he.symm.trans h)).shows_done
    exact hp
  · obtain rfl := Host.Outcome.next.inj (he.symm.trans h)
    rfl

/-! ### Progress of a pending command (70_reset_and_hazards.md R303) -/

theorem run_succ_next {k : Nat} {s t : State} (h : step s = .next t) :
    Host.Core.run Sys2Proof.core (k + 1) s = Host.Core.run Sys2Proof.core k t := by
  have hcore : Sys2Proof.core.step s = .next t := h
  simp only [Host.Core.run, hcore]

theorem run_one_fault {s : State} {f : Fault} (h : step s = .fault f) : Host.Core.run Sys2Proof.core 1 s = .fault f := by
  have hcore : Sys2Proof.core.step s = .fault f := h
  simp only [Host.Core.run, hcore]

/-- At most `n` steps take the pending command away, or end in a fault. -/
def EndsWithin (n : Nat) (s : State) : Prop :=
  ∃ k ≤ n, (∃ t, Host.Core.run Sys2Proof.core k s = .next t ∧ t.pending = none) ∨
    (∃ f, Host.Core.run Sys2Proof.core k s = .fault f)

theorem EndsWithin.of_next {n : Nat} {s t : State} (h : step s = .next t) (ht : EndsWithin n t) : EndsWithin (n + 1) s := by
  obtain ⟨k, hk, hend⟩ := ht
  exact ⟨k + 1, Nat.succ_le_succ hk, by rwa [run_succ_next h]⟩

theorem endsWithin_of_not_pending (n : Nat) {s : State} (h : s.pending = none) : EndsWithin n s :=
  ⟨0, n.zero_le, .inl ⟨s, rfl, h⟩⟩

/-- One turn of the core is enough. -/
theorem endsWithin_of_core (n : Nat) {s : State} (h : turnOf s = .core) : EndsWithin (n + 1) s := by
  have hstep := step_eq_coreStep h
  rcases coreStep_answers (passTurn s) with ⟨t, ht⟩ | ⟨-, -, f, hf⟩
  · exact .of_next (hstep.trans ht) (endsWithin_of_not_pending n (coreStep_pending ht))
  · exact ⟨1, Nat.succ_le_succ n.zero_le, .inr ⟨f, run_one_fault (hstep.trans hf)⟩⟩

/-- Settles O8: each turn the schedule gives to the host shortens it, and the core's turn takes the command away. -/
theorem pendingCommandIsPerformed : Obligations.PendingCommandIsPerformed := by
  intro s hpending
  change EndsWithin (s.sched.length + 1) s
  induction hsched : s.sched generalizing s with
  | nil => exact endsWithin_of_core 0 (by simp [turnOf, hsched, hpending])
  | cons a rest ih =>
    cases a with
    | core => exact endsWithin_of_core _ (by simp [turnOf, hsched])
    | host =>
      obtain ⟨t, ht⟩ := hostStep_goes (passTurn s)
      have hstep : step s = .next t := (step_eq_hostStep (by simp [turnOf, hsched])).trans ht
      have hrest : t.sched = rest := by rw [hostStep_sched ht, passTurn_sched, hsched, List.tail_cons]
      refine .of_next hstep ?_
      cases htp : t.pending with
      | none => exact endsWithin_of_not_pending _ htp
      | some w => exact ih t (by rw [htp]; rfl) hrest

/-! ### Reset and error completion -/

/-- No register is one of the stores a reset draws. -/
theorem regValue_resetEffect (s : State) (r : Reg) : regValue (resetEffect s) r = registerAfterReset s.caps r := by
  rw [← regValue_resetWith]
  cases r <;> dsimp only [regValue, resetEffect, State.resetWith]

/-- Settles O10: the registers are those of the state after reset, and the host's fields are kept. -/
theorem softResetLeavesResetRegisters : Obligations.SoftResetLeavesResetRegisters :=
  fun s _ => ⟨resetEffect s, rfl, regValue_resetEffect s, rfl, rfl, rfl, rfl, rfl, rfl, rfl, rfl⟩

/-- Settles O11: both are the effect of a reset. -/
theorem hardwareResetActsAsSoftReset : Obligations.HardwareResetActsAsSoftReset := by
  intro s rest ignored hhost
  refine ⟨hostStep_rstN hhost, fun hturn => ?_⟩
  rw [step_eq_hostStep hturn]
  exact hostStep_rstN (s := passTurn s) hhost

/-- Settles O13: `raise` is the record of R260, and the numbers are as tabulated. -/
theorem errorCompletionWrites : Obligations.ErrorCompletionWrites :=
  ⟨fun _ _ _ _ => rfl, fun _ _ _ _ => rfl, rfl, rfl, rfl, rfl, rfl, rfl, rfl, rfl, rfl, rfl, rfl⟩

end Sys2Proof.Machine
end

section
/-! The address map, what host reads and writes of registers do, and host programs (20_memory.md R73, 10_state.md R22 to R39,
44_control.md R236 to R238, 30_encoding.md R115 to R118). -/

namespace Sys2Proof.Machine

/-! ### The address map (20_memory.md R73) -/

theorem decodeAddr_of_memWindow (c : Caps) {n : Nat} (halign : n % 4 = 0) (hlo : 0x9FF0 ≤ n) (hhi : n < 2 ^ 24) :
    decodeAddr c (BitVec.ofNat 24 n) = decodeMemWindow c n := by
  unfold decodeAddr
  simp only [BitVec.toNat_ofNat, Nat.mod_eq_of_lt hhi]
  rw [if_neg (by omega), if_neg (by omega), if_neg (by omega), if_neg (by omega), if_neg (by omega), if_neg (by omega)]

/-- A legal capacity is no more than the distance of two windows. -/
theorem decodeMemWindow_at {c : Caps} (hc : c.Legal) (id : MemId) {n a : Nat} (hn : n = windowBase id + a) (ha : a < c.cap id) :
    decodeMemWindow c n = some (.mem id a) := by
  obtain ⟨⟨-, -, hin⟩, ⟨-, -, hout⟩, ⟨-, -, hbs⟩, -, -, hdec⟩ := hc
  unfold decodeMemWindow
  cases id <;> simp only [windowBase, Caps.cap] at hn ha
  · rw [if_pos (by omega), show n - 0x100000 = a by omega]
  · rw [if_neg (by omega), if_pos (by omega), show n - 0x200000 = a by omega]
  · rw [if_neg (by omega), if_neg (by omega), if_pos (by omega), show n - 0x300000 = a by omega]
  · rw [if_neg (by omega), if_neg (by omega), if_neg (by omega), if_pos (by omega), show n - 0x400000 = a by omega]

theorem legalCap_cap {c : Caps} (hc : c.Legal) (id : MemId) : Caps.LegalCap (c.cap id) := by
  obtain ⟨hin, hout, hbs, hdec⟩ := hc
  cases id
  · exact hin
  · exact hout
  · exact hbs
  · exact hdec

theorem windowBase_bounds (id : MemId) : windowBase id % 4 = 0 ∧ 0x100000 ≤ windowBase id ∧ windowBase id ≤ 0x400000 := by
  cases id <;> decide

theorem decodeAddr_mem {c : Caps} (hc : c.Legal) (id : MemId) {m : Nat} (hm : 4 * m < c.cap id) :
    decodeAddr c (BitVec.ofNat 24 (windowBase id + 4 * m)) = some (.mem id (4 * m)) := by
  obtain ⟨-, -, hcap⟩ := legalCap_cap hc id
  obtain ⟨halign, hlo, hhi⟩ := windowBase_bounds id
  rw [decodeAddr_of_memWindow c (by omega) (by omega) (by omega), decodeMemWindow_at hc id rfl hm]

/-- Settles O17: the windows are disjoint ranges, and each address names its register or word by its distance from the base. -/
theorem addressMapPlacesWindows : Obligations.AddressMapPlacesWindows := fun c hc =>
  ⟨decodeAddr_registerOffset c, decodeAddr_hist c, decodeAddr_codeLen c, fun sym _ => decodeAddr_codeBits c sym,
    fun _ _ => decodeAddr_node c, fun id _ => decodeAddr_mem hc id⟩

/-! ### The values of the registers (10_state.md R22 to R39) -/

theorem regValue_of_wordOfRegister {s : State} {r : Reg} {v : Word} (h : wordOfRegister s r = some v) : regValue s r = v := by
  cases r with
  | status | errCode | irqEn | irqStatus => cases h
  | _ => exact Option.some.inj h

theorem statusWord_bit (st : Status) (k : Nat) :
    (statusWord st).getLsbD k =
      if k = 0 then st.busy else if k = 1 then st.done else if k = 2 then st.err else if k = 3 then st.treeValid
      else if k = 4 then st.codeValid else if k = 5 then st.singleLeaf else if k = 8 then st.ovr else false := by
  simp only [statusWord, BitVec.getLsbD_append]
  match k with
  | 0 | 1 | 2 | 3 | 4 | 5 | 6 | 7 | 8 | k + 9 => simp

/-- Settles O28: the flag registers are put together from their flags bit by bit, and every other register is its field. -/
theorem registerValuesShowFields : Obligations.RegisterValuesShowFields := by
  intro s
  obtain ⟨hcode, hsub, hop, hzero⟩ := extractLsb'_append₄ 0#8 s.errCode.op s.errCode.sub s.errCode.code
  exact ⟨fun _ => rfl, fun _ _ => regValue_of_wordOfRegister, statusWord_bit s.status, ⟨hcode, hsub, hop, hzero⟩,
    irqEnWord_bit s.irqEn, irqStatusWord_bit s.irqStatus⟩

/-! ### Reads (44_control.md R236, R238) -/

/-- Settles O18: an idle read answers `peek`, which of a register is its value. -/
theorem idleReadAnswersValue : Obligations.IdleReadAnswersValue := by
  intro s r l hb hw ht
  have hread := readAnswers_peek_of_idle hb hw ht
  refine ⟨hread, ?_⟩
  rintro rg v rfl hv
  exact regValue_of_wordOfRegister hv ▸ hread

/-- The model's list of the registers of R238 is the statement's. -/
theorem definedWhileBusy_eq (l : Loc) : definedWhileBusy l = readableWhileBusy l := by
  cases l with
  | reg r => cases r <;> rfl
  | hist | codeLen | codeBits | node | mem => rfl

theorem busAccess_read {s : State} {r : BusReq} {l : Loc} (hw : r.write = false) (ht : target s.caps r = some l) :
    busAccess r s = .next (hostRead l s) := by
  simp [busAccess, ht, hw]

/-- Settles O19: a busy read answers `peek` of the listed registers and an open value of every other word. -/
theorem busyReadAnswersListedRegisters : Obligations.BusyReadAnswersListedRegisters := by
  intro s r l hb hw ht
  rw [definedWhileBusy_eq]
  refine ⟨fun hl => ?_, fun hl => ?_⟩
  · have hread : ReadAnswers r s (peek s l) := by
      rcases hostRead_cases l s with ⟨-, hno, -⟩ | ⟨-, h⟩
      · cases hl.symm.trans hno
      · exact (busAccess_read hw ht).trans (congrArg _ h)
    refine ⟨hread, ?_⟩
    rintro rg v rfl hv
    exact regValue_of_wordOfRegister hv ▸ hread
  · rcases hostRead_cases l s with ⟨-, -, h⟩ | ⟨hidle | hyes, -⟩
    · exact ⟨_, (busAccess_read hw ht).trans (congrArg _ h)⟩
    · cases hb.symm.trans hidle
    · cases hl.symm.trans hyes

/-! ### Writes (44_control.md R237) -/

/-- Settles O22: an idle write of a register is `pokeIdle`. -/
theorem idleWritesSetRegisters : Obligations.IdleWritesSetRegisters := by
  intro s r l hb hw ht
  refine ⟨?_, ?_, ?_, ?_, ?_, writeLeaves_same_of_readOnly hb hw ht⟩ <;>
    (rintro rfl; exact writeLeaves_pokeIdle_of_idle hb hw ht (by simp))

/-- The tree, the code table and their flags are as they were. -/
def TreeAndTableKept (s t : State) : Prop :=
  t.status.treeValid = s.status.treeValid ∧ t.status.codeValid = s.status.codeValid ∧
    t.status.singleLeaf = s.status.singleLeaf ∧ t.root = s.root ∧ t.nodeCount = s.nodeCount ∧ t.symCount = s.symCount ∧
    t.arena = s.arena ∧ t.lut = s.lut

theorem pokeIdle_keepsTree (l : Loc) (w : Word) (s : State) : TreeAndTableKept s (pokeIdle l w s) := by
  cases l with
  | reg r => cases r <;> exact ⟨rfl, rfl, rfl, rfl, rfl, rfl, rfl, rfl⟩
  | mem id => cases id <;> exact ⟨rfl, rfl, rfl, rfl, rfl, rfl, rfl, rfl⟩
  | hist | codeLen | codeBits | node => exact ⟨rfl, rfl, rfl, rfl, rfl, rfl, rfl, rfl⟩

theorem poke_keepsTree (l : Loc) (w : Word) (s : State) : TreeAndTableKept s (poke l w s) := by
  rcases poke_cases l w s with ⟨h, -⟩ | h <;> rw [h]
  · exact pokeIdle_keepsTree l w s
  · exact ⟨rfl, rfl, rfl, rfl, rfl, rfl, rfl, rfl⟩

theorem SameBlock.keepsTree {s t u : State} (h : SameBlock t u) (hk : TreeAndTableKept s t) : TreeAndTableKept s u := by
  rw [h]
  exact hk

/-- Settles O29: a write other than a soft reset is a poke or nothing. -/
theorem hostWritesKeepTreeAndTable : Obligations.HostWritesKeepTreeAndTable := by
  intro s t r _ h hno
  rcases busAccess_next h with hsame | ⟨l, -, hpoke⟩ | ⟨ht, hbit, -⟩
  · exact hsame.keepsTree ⟨rfl, rfl, rfl, rfl, rfl, rfl, rfl, rfl⟩
  · exact hpoke.keepsTree (poke_keepsTree l r.wdata s)
  · exact absurd ⟨ht, hbit⟩ hno

/-! ### Host programs (30_encoding.md R115 to R118) -/

theorem issue_command {i : Instr} (hi : i.isCommand = true) : issue i = .access ⟨0x00000C, true, (encode i).2, 4⟩ := by
  cases i with
  | srst => cases hi
  | _ => rfl

theorem toNat_append_byte {n : Nat} (x : BitVec n) (y : Byte) : (x ++ y).toNat = 2 ^ 8 * x.toNat + y.toNat := by
  rw [BitVec.toNat_append, ← Nat.shiftLeft_add_eq_or_of_lt y.isLt, Nat.shiftLeft_eq, Nat.mul_comm]

/-- The word of four bytes, the lowest in the lowest lane. -/
theorem ofNat_wordOfBytes (bs : List Byte) (m : Nat) :
    BitVec.ofNat 32 (wordOfBytes bs m) =
      bs.getD (4 * m + 3) 0 ++ bs.getD (4 * m + 2) 0 ++ bs.getD (4 * m + 1) 0 ++ bs.getD (4 * m) 0 := by
  have h₀ := (bs.getD (4 * m) 0).isLt
  have h₁ := (bs.getD (4 * m + 1) 0).isLt
  have h₂ := (bs.getD (4 * m + 2) 0).isLt
  have h₃ := (bs.getD (4 * m + 3) 0).isLt
  apply BitVec.eq_of_toNat_eq
  rw [BitVec.toNat_ofNat, wordOfBytes, toNat_append_byte, toNat_append_byte, toNat_append_byte]
  omega

theorem memBase_eq (id : MemId) : memBase id = windowBase id := by cases id <;> rfl

theorem storeBytes_getElem? (sp : MemId) (a : Nat) (bs : List Byte) {m : Nat} (hm : m < (bs.length + 3) / 4) :
    (storeBytes sp a bs)[m]? = some (.access ⟨BitVec.ofNat 24 (windowBase sp + a + 4 * m), true,
      bs.getD (4 * m + 3) 0 ++ bs.getD (4 * m + 2) 0 ++ bs.getD (4 * m + 1) 0 ++ bs.getD (4 * m) 0, 4⟩) := by
  rw [← ofNat_wordOfBytes, ← memBase_eq]
  simp [storeBytes, writeOp, hm]

/-- A read of STATUS by an agent is answered busy or idle. -/
theorem hostRead_status (s : State) : hostRead (.reg .status) s = { s with resp := some ⟨regValue s .status, false⟩ } := by
  rcases hostRead_cases (.reg .status) s with ⟨-, hno, -⟩ | ⟨-, h⟩
  · cases hno
  · exact h

/-- Settles O31: each line expands to the listed operations, and `wait` and the test read STATUS. -/
theorem hostPseudoInstructions : Obligations.HostPseudoInstructions := by
  refine ⟨fun _ _ => rfl, fun _ => ⟨0, rfl⟩, fun i hi => by rw [expand, issue_command hi], rfl, rfl,
    fun i hi => by rw [expand, issue_command hi], fun sp a bs => ⟨by simp [expand, storeBytes], fun m hm => ?_⟩,
    fun _ => rfl, fun _ _ => rfl, fun s rest hturn hhost => ?_, fun s n rest hturn hhost => ?_⟩
  · exact storeBytes_getElem? sp a bs hm
  · rw [step_eq_hostStep hturn]
    refine ⟨fun hb => ?_, fun hb => ?_⟩
    · rw [hostStep_wait_busy (s := passTurn s) hhost hb, hostRead_status]; rfl
    · rw [hostStep_wait_idle (s := passTurn s) hhost hb, hostRead_status]; rfl
  · rw [step_eq_hostStep hturn, hostStep_stopIfErr (s := passTurn s) hhost, hostRead_status, passTurn_status]
    refine ⟨fun herr => ?_, fun herr => ?_⟩
    · rw [if_pos herr]; rfl
    · rw [if_neg (by simp [herr])]; rfl

end Sys2Proof.Machine
end

section
/-! The invariant: it holds after reset, every step keeps it, and no step from it stops (10_state.md section 4). -/

namespace Sys2Proof.Machine

/-! ### What the invariant says of the stores -/

/-- The part of the invariant that does not speak of BUSY, DONE, ERR and the pending command. -/
def Sound (s : State) : Prop := Validity s ∧ MemoriesCanonical s ∧ ResultsInRange s

theorem inv_iff (s : State) : Inv s ↔ Sound s ∧ PendingShown s ∧ ErrorShown s := by
  unfold Inv Sound
  tauto

theorem MemoriesCanonical.legal {s : State} (h : MemoriesCanonical s) : s.caps.Legal := h.1

theorem MemoriesCanonical.wf {s : State} (h : MemoriesCanonical s) (id : MemId) : (s.mem id).wf (s.caps.cap id) = true := h.2 id

/-- One memory is replaced by another of canonical form. -/
theorem MemoriesCanonical.setMem {s : State} (h : MemoriesCanonical s) {id : MemId} {m : ByteMem}
    (hm : m.wf (s.caps.cap id) = true) : MemoriesCanonical (s.setMem id m) := by
  have hcaps : (s.setMem id m).caps = s.caps := by cases id <;> rfl
  refine ⟨hcaps ▸ h.legal, fun id' => ?_⟩
  rw [hcaps]
  by_cases he : id = id'
  · subst he
    rwa [mem_setMem_same]
  · rw [mem_setMem_other s m he]
    exact h.wf id'

/-- A full tree of exactly the entries 0 .. NODE_COUNT-1 has at most 511 nodes, and so at most 256 leaves. -/
theorem HoldsTree.counts {s : State} {t : Tree} (h : HoldsTree s t) : s.nodeCount.toNat ≤ 511 ∧ s.symCount.toNat ≤ 256 := by
  have hle := h.size_le
  obtain ⟨-, hperm, hleaves, -⟩ := h
  have hsize : t.size = s.nodeCount.toNat := by simpa using hperm.length_eq
  have := t.size_succ
  omega

/-- Where a tree has been installed, it is the valid tree, and the old code table is gone. -/
theorem validity_installTree {s : State} {root count leaves : Nat} {single : Bool} {tr : Tree}
    (h : HoldsTree (installTree root count leaves single s) tr) : Validity (installTree root count leaves single s) :=
  ⟨fun _ => ⟨tr, h⟩, fun hcode => (nomatch hcode), fun hnone => (nomatch hnone)⟩

theorem StoresLost.sound {s t : State} (h : StoresLost s t) (hs : Sound s) : Sound t := by
  cases h with
  | nothing | hist => exact hs
  | lut hv =>
    obtain ⟨⟨htree, -, -⟩, hmem, hres⟩ := hs
    exact ⟨⟨htree, fun hcode => (nomatch hcode), fun hnone => (nomatch hv.symm.trans hnone)⟩, hmem, hres⟩
  | tree =>
    obtain ⟨-, hmem, hres⟩ := hs
    exact ⟨⟨fun hv => (nomatch hv), fun hcode => (nomatch hcode), fun _ => ⟨rfl, rfl⟩⟩, hmem, hres⟩
  | dec =>
    obtain ⟨hval, hmem, hres⟩ := hs
    exact ⟨hval, hmem.setMem (id := .dec) (nothing_listed_wf _ _), hres⟩

theorem toNat_ofNat_pad {p : Nat} (hp : p < 8) : (BitVec.ofNat 8 p).toNat ≤ 7 := by
  rw [BitVec.toNat_ofNat]
  omega

theorem Updated.sound {s t : State} (h : Updated s t) (hs : Sound s) : Sound t := by
  obtain ⟨hval, hmem, hseg, hdec, hnodes, hsyms⟩ := hs
  cases h with
  | nothing | counted => exact ⟨hval, hmem, hseg, hdec, hnodes, hsyms⟩
  | built htree => exact ⟨validity_installTree htree, hmem, hseg, hdec, htree.counts⟩
  | coded hv ht hl =>
    obtain ⟨htree, -, -⟩ := hval
    exact ⟨⟨htree, fun _ => ⟨hv, _, ht, hl⟩, fun hnone => (nomatch hv.symm.trans hnone)⟩, hmem, hseg, hdec, hnodes, hsyms⟩
  | emitted body hroom =>
    have hout := setBits_wf (cap := s.caps.outCap) .out (frameSegment body) (by rwa [frameSegment_length]) (hmem.wf .out)
    exact ⟨hval, hmem.setMem (id := .out) hout, toNat_ofNat_pad (padOf_lt _), hdec, hnodes, hsyms⟩
  | rebuilt bitptr segBits hp htree => exact ⟨validity_installTree htree, hmem, toNat_ofNat_pad hp, hdec, htree.counts⟩
  | @decoded syms p segBits hp hroom =>
    have hwf := writeBytes_wf (cap := s.caps.decCap) (a := 0) syms (by rwa [Nat.zero_add]) (hmem.wf .dec)
    exact ⟨hval, hmem.setMem (id := .dec) hwf, toNat_ofNat_pad hp, (Nat.mod_le _ _).trans hroom, hnodes, hsyms⟩

/-! ### The core's step keeps the invariant -/

theorem Updated.error_eq {s t : State} (h : Updated s t) :
    t.status.err = s.status.err ∧ t.errCode = s.errCode ∧ t.errInfo = s.errInfo := by
  cases h <;> exact ⟨rfl, rfl, rfl⟩

/-- A command ends neither busy nor pending, with DONE, and with an error recorded only beside ERR. -/
theorem Performed.inv {s t : State} (h : Performed s t) (hs : Inv s) : Inv t := by
  obtain ⟨hsound, -, -, -, hnone⟩ := (inv_iff s).1 hs
  refine (inv_iff t).2 ?_
  cases h with
  | failed k sub info hlost =>
    exact ⟨hlost.sound hsound, ⟨rfl, fun _ hp => (nomatch hp)⟩, fun hb => (nomatch hb), fun _ => rfl, fun he => (nomatch he)⟩
  | completed hupdated =>
    obtain ⟨herr, hcode, hinfo⟩ := hupdated.error_eq
    refine ⟨hupdated.sound hsound, ⟨rfl, fun _ hp => (nomatch hp)⟩, fun hb => (nomatch hb), fun _ => rfl, fun he => ?_⟩
    rw [complete_errCode, complete_errInfo, hcode, hinfo]
    exact hnone (herr.symm.trans he)

theorem coreStep_inv {s t : State} (hs : Inv s) (h : coreStep s = .next t) : Inv t := by
  rcases coreStep_cases s with ⟨-, he⟩ | ⟨w, i, -, hd, he⟩ | ⟨w, e, -, -, he⟩
  · obtain rfl := Host.Outcome.next.inj (he.symm.trans h)
    exact hs
  · exact (exec_performed (decodeCmd_isCommand hd) (he.symm.trans h)).inv hs
  · obtain rfl := Host.Outcome.next.inj (he.symm.trans h)
    exact (Performed.failed _ _ _ .nothing).inv hs

/-! ### The host's step keeps the invariant -/

/-- The invariant does not speak of the fields in which the states differ. -/
theorem SameBlock.inv {s t : State} (h : SameBlock s t) (hs : Inv s) : Inv t := by
  rw [h]
  exact hs

theorem accept_inv {s : State} (w : Word) (hs : Inv s) : Inv (accept w s) := by
  obtain ⟨hsound, -⟩ := (inv_iff s).1 hs
  exact (inv_iff _).2 ⟨hsound, ⟨rfl, fun _ hp => Option.some.inj hp⟩, fun _ => rfl, fun he => (nomatch he), fun _ => ⟨rfl, rfl⟩⟩

theorem decodeMemWindow_lt {c : Caps} {n a : Nat} {id : MemId} (h : decodeMemWindow c n = some (.mem id a)) : a < c.cap id := by
  unfold decodeMemWindow at h
  split_ifs at h <;> obtain ⟨rfl, rfl⟩ := Loc.mem.inj (Option.some.inj h) <;> simp only [Caps.cap] <;> omega

theorem target_mem_lt {c : Caps} {r : BusReq} {id : MemId} {a : Nat} (h : target c r = some (.mem id a)) : a < c.cap id := by
  unfold target decodeAddr at h
  dsimp only at h
  split_ifs at h
  case neg => exact decodeMemWindow_lt h
  all_goals simp at h

theorem pokeIdle_inv {s : State} {r : BusReq} {l : Loc} (hs : Inv s) (ht : target s.caps r = some l) (w : Word) :
    Inv (pokeIdle l w s) := by
  cases l with
  | reg rg =>
    cases rg with
    | cmd => exact accept_inv w hs
    | _ => exact hs
  | hist | codeLen | codeBits | node => exact hs
  | mem id a =>
    obtain ⟨hval, hpend, herr, hmem, hres⟩ := hs
    have halign := target_mem_aligned ht
    have hlt := target_mem_lt ht
    obtain ⟨hcap, -⟩ := legalCap_cap hmem.legal id
    have hmem' := hmem.setMem (writeWord_wf (a := a) w (by omega) (hmem.wf id))
    cases id <;> exact ⟨hval, hpend, herr, hmem', hres⟩

theorem poke_inv {s : State} {r : BusReq} {l : Loc} (hs : Inv s) (ht : target s.caps r = some l) (w : Word) :
    Inv (poke l w s) := by
  rcases poke_cases l w s with ⟨h, -⟩ | h <;> rw [h]
  · exact pokeIdle_inv hs ht w
  · exact hs

/-- With every flag, every record and every result cleared only the memories matter. -/
theorem inv_of_cleared {s : State} (hmem : MemoriesCanonical s) (hstatus : s.status = Status.reset) (hpending : s.pending = none)
    (herror : s.errCode = ⟨0, 0, 0⟩ ∧ s.errInfo = 0)
    (hresults : s.segPad = 0 ∧ s.decLen = 0 ∧ s.nodeCount = 0 ∧ s.symCount = 0) : Inv s := by
  obtain ⟨hseg, hdec, hnodes, hsyms⟩ := hresults
  have hvalid : Validity s := by
    simp [Validity, TreeValidity, CodeValidity, NoTreeNoFlags, hstatus, Status.reset]
  have hpend : PendingShown s := by simp [PendingShown, hstatus, hpending, Status.reset]
  have herr : ErrorShown s := by simp [ErrorShown, hstatus, herror, Status.reset]
  have hres : ResultsInRange s := by simp [ResultsInRange, hseg, hdec, hnodes, hsyms]
  exact ⟨hvalid, hpend, herr, hmem, hres⟩

theorem resetEffect_inv {s : State} (hs : s.caps.Legal) : Inv (resetEffect s) :=
  inv_of_cleared ⟨hs, fun id => by cases id <;> rfl⟩ rfl rfl ⟨rfl, rfl⟩ ⟨rfl, rfl, rfl, rfl⟩

theorem hostStep_inv {s t : State} (hs : Inv s) (h : hostStep s = .next t) : Inv t := by
  obtain ⟨s₀, hs₀, hsame | ⟨r, l, ht, hpoke⟩ | hreset⟩ := hostStep_next h
  · exact hsame.inv (hs₀.inv hs)
  · exact hpoke.inv (poke_inv (hs₀.inv hs) ht r.wdata)
  · obtain ⟨-, -, -, hmem, -⟩ := hs₀.inv hs
    exact hreset.inv (resetEffect_inv hmem.legal)

/-! ### Reset, every step, and progress -/

/-- Settles O58: after reset everything the invariant speaks of is cleared. -/
theorem resetHasInvariant : Obligations.ResetHasInvariant := by
  have hinv (c : Caps) (hc : c.Legal) : Inv (State.resetWith c) :=
    inv_of_cleared ⟨hc, reset_memories_wf c⟩ rfl rfl ⟨rfl, rfl⟩ ⟨rfl, rfl, rfl, rfl⟩
  exact ⟨hinv, hinv Config.caps (by decide)⟩

theorem passTurn_inv {s : State} (hs : Inv s) : Inv (passTurn s) := hs

/-- Settles O59: the host's accesses and the core's commands each keep it. -/
theorem everyStepKeepsInvariant : Obligations.EveryStepKeepsInvariant := by
  intro s t hs h
  rcases step_cases s with ⟨-, he⟩ | ⟨-, he⟩
  · exact hostStep_inv (passTurn_inv hs) (he.symm.trans h)
  · exact coreStep_inv (passTurn_inv hs) (he.symm.trans h)

theorem emit_eq_noNode {sym : Byte} {e : WalkEnd} (h : e.emit sym = .noNode) : e = .noNode := by
  cases e with
  | noNode => rfl
  | finished | overflow => cases h

/-- An internal node from which the walk of a tree reads a tree. -/
def ReadsNode (ar : Arena) (i : BitVec 9) : Prop := ∃ fuel t, readTree ar fuel i = some t ∧ t.isLeaf = false

/-- Both children of such a node are entries, each a leaf or again such a node. -/
theorem ReadsNode.child {ar : Arena} {i : BitVec 9} (h : ReadsNode ar i) :
    ∃ nd, ar.node? i = some nd ∧ ∀ b : Bool, ∃ child, ar.node? (if b then nd.right else nd.left) = some child ∧
      (child.leaf = false → ReadsNode ar (if b then nd.right else nd.left)) := by
  obtain ⟨fuel, t, ht, hint⟩ := h
  cases fuel with
  | zero => cases ht
  | succ fuel =>
    obtain ⟨nd, hnd, ⟨-, rfl⟩ | ⟨-, l, r, hl, hr, -⟩⟩ := (readTree_succ_eq_some_iff ..).1 ht
    · cases hint
    · have hchild {j : BitVec 9} {u : Tree} (hu : readTree ar fuel j = some u) :
          ∃ child, ar.node? j = some child ∧ (child.leaf = false → ReadsNode ar j) := by
        cases fuel with
        | zero => cases hu
        | succ fuel =>
          obtain ⟨child, hchild, ⟨hleaf, -⟩ | ⟨-, l', r', -, -, rfl⟩⟩ := (readTree_succ_eq_some_iff ..).1 hu
          · exact ⟨child, hchild, fun hno => (nomatch hleaf.symm.trans hno)⟩
          · exact ⟨child, hchild, fun _ => ⟨_, _, hu, rfl⟩⟩
      refine ⟨nd, hnd, fun b => ?_⟩
      cases b
      · exact hchild hl
      · exact hchild hr

/-- Within a tree the walk meets only entries of the arena. -/
theorem walk_ne_noNode {ar : Arena} {root cur : BitVec 9} {decCap k n : Nat} (hroot : ReadsNode ar root) (bs : Bits)
    (hcur : ReadsNode ar cur) : walk ar root decCap bs k cur n ≠ .noNode := by
  induction bs generalizing k cur n with
  | nil => simp [walk]
  | cons b bs ih =>
    obtain ⟨nd, hnd, hchildren⟩ := hcur.child
    obtain ⟨child, hchild, hnext⟩ := hchildren b
    cases hleaf : child.leaf with
    | true =>
      rw [walk_cons_leaf hnd hchild hleaf]
      split
      · simp
      · exact fun h => ih hroot (emit_eq_noNode h)
    | false =>
      rw [walk_cons_internal hnd hchild hleaf]
      exact ih (hnext hleaf)

theorem HoldsTree.not_noTreeAtRoot {s : State} {t : Tree} (h : HoldsTree s t) : ¬ NoTreeAtRoot s := by
  obtain ⟨ht, -⟩ := h
  obtain ⟨nd, hnd, hleaf⟩ := root_of_currentTree ht
  rintro (hnone | hnone | ⟨rt, bs, hrt, hint, hwalk⟩)
  · cases hnone.symm.trans ht
  · cases hnone.symm.trans hnd
  · obtain rfl := Option.some.inj (hnd.symm.trans hrt)
    have hroot : ReadsNode s.arena s.root := ⟨511, t, ht, hleaf ▸ hint⟩
    exact walk_ne_noNode hroot bs hroot hwalk

/-- Settles O60: a fault needs TREE_VALID without a tree at ROOT, which the invariant excludes. -/
theorem stepsFromInvariantNeverStop : Obligations.StepsFromInvariantNeverStop := by
  intro s hs
  obtain ⟨⟨htree, -, -⟩, -⟩ := passTurn_inv hs
  rcases step_cases s with ⟨-, he⟩ | ⟨-, he⟩ <;> rw [he]
  · exact hostStep_goes (passTurn s)
  · rcases coreStep_answers (passTurn s) with hgoes | ⟨hv, hnone, -⟩
    · exact hgoes
    · obtain ⟨t, ht⟩ := htree hv
      exact absurd hnone ht.not_noTreeAtRoot

end Sys2Proof.Machine
end
